-- ==== Sys2Proof/Word.lean ====
section
/-! DEFINITION. The words of GM128: the 128-bit pattern, bytes, host data words, register indices,
the four narrow widths, and the command packet. -/
namespace Sys2Proof

/-- A raw 128-bit pattern, the content of a value register (10_state.md R21, 00_scope.md R9). -/
abbrev Word := BitVec 128

/-- One byte of the string buffer (10_state.md R22). -/
abbrev Byte := BitVec 8

/-- One 64-bit data word of a packet or a response (30_encoding.md R60, R62). -/
abbrev DWord := BitVec 64

/-- The index of a value register `x0 … x15` (10_state.md R31 i); all sixteen are legal (30_encoding.md R67). -/
abbrev Reg := Fin 16

/-- The four narrow widths of `LDZ.w`, `LDS.w`, `UNARROW.w`, `INARROW.w` (40_host_data.md R100). -/
inductive Width where
  | w8 | w16 | w32 | w64
  deriving DecidableEq, Repr

/-- A command packet: the command word and two data words, 160 bits (30_encoding.md R60). -/
structure Packet where
  /-- the command word -/
  cw : BitVec 32
  /-- the high data word -/
  dhi : DWord
  /-- the low data word -/
  dlo : DWord
  deriving DecidableEq, Repr

end Sys2Proof
end

