-- ==== Sys2Proof/Config.lean ====
section
/-! DEFINITION. The parameters of 00_scope.md R7, each at the value that rule gives. The ones R7 calls
decisions may be taken as arguments by a model (93 U7): this model fixes the spec's defaults (log entry 9). -/
namespace Sys2Proof.Config

/-- `W`, the width of every value in bits. -/
abbrev wordBits : Nat := 128
/-- `LIMB`, the width of a limb in bits. -/
abbrev limbBits : Nat := 32
/-- `NLIMB`, limbs per value. -/
abbrev limbs : Nat := 4
/-- `EXP_BITS`, the Float128 exponent field. -/
abbrev expBits : Nat := 15
/-- `BIAS`, the Float128 exponent bias. -/
abbrev bias : Nat := 16383
/-- `MANT_BITS`, the Float128 mantissa field. -/
abbrev mantBits : Nat := 112
/-- `MUL_TOP`, the significand bits per operand used by Float128 multiply. -/
abbrev mulTop : Nat := 57
/-- `DBL_MANT`, the double-precision mantissa field. -/
abbrev dblMant : Nat := 52
/-- `DBL_BIAS`, the double-precision exponent bias. -/
abbrev dblBias : Nat := 1023
/-- `BASE_MIN`, the least legal radix. -/
abbrev baseMin : Nat := 2
/-- `BASE_MAX`, the greatest legal radix. -/
abbrev baseMax : Nat := 36
/-- `BASE_DEFAULT`, the radix the assembler supplies for the parse and format commands. -/
abbrev baseDefault : Nat := 10
/-- `NREG`, the number of value registers. -/
abbrev registers : Nat := 16
/-- `SB_SIZE`, the bytes of the string buffer. -/
abbrev sbSize : Nat := 256
/-- `SLEN_MAX`, the largest string length. -/
abbrev slenMax : Nat := 255
/-- `QNAN128`, the canonical quiet NaN (44_float128_format.md R202). -/
abbrev qnan128 : Word := 0x7FFF8000000000000000000000000000#128
/-- `QNAN64`, the double NaN that `FTOD` produces (44_float128_format.md R212). -/
abbrev qnan64 : DWord := 0x7FF8000000000000#64

end Sys2Proof.Config
end

