-- ==== Sys2Proof/Syntax.lean ====
section
/-! DEFINITION. The commands of GM128: one constructor per row of spec/opcode_table.json
(30_encoding.md R65), operands in the table's assembler order. The data words a command reads
(R60) are operands of it; the data words it ignores are not. -/
namespace Sys2Proof

/-- A decoded command (30_encoding.md R65). -/
inductive Instr where
  | nop
  | ldp (rd : Reg) (dhi dlo : DWord)
  | ldz (rd : Reg) (w : Width) (dlo : DWord)
  | lds (rd : Reg) (w : Width) (dlo : DWord)
  | rd (ra : Reg)
  | mov (rd ra : Reg)
  | sbw (imm : Byte) (dlo : DWord)
  | sbr (imm : Byte)
  | slenw (imm : Byte)
  | slenr
  | esrr
  | esrc
  | unarrow (rd ra : Reg) (w : Width)
  | inarrow (rd ra : Reg) (w : Width)
  | uadd (rd ra rb : Reg)
  | usub (rd ra rb : Reg)
  | umul (rd ra rb : Reg)
  | udiv (rd ra rb : Reg)
  | urem (rd ra rb : Reg)
  | udivrem (rd re ra rb : Reg)
  | ushl (rd ra rb : Reg)
  | ushr (rd ra rb : Reg)
  | ushli (rd ra : Reg) (imm : Byte)
  | ushri (rd ra : Reg) (imm : Byte)
  | and (rd ra rb : Reg)
  | or (rd ra rb : Reg)
  | xor (rd ra rb : Reg)
  | not (rd ra : Reg)
  | ucmp (rd ra rb : Reg)
  | umsb (rd ra : Reg)
  | ineg (rd ra : Reg)
  | iabs (rd ra : Reg)
  | imul (rd ra rb : Reg)
  | idiv (rd ra rb : Reg)
  | irem (rd ra rb : Reg)
  | ishr (rd ra rb : Reg)
  | ishri (rd ra : Reg) (imm : Byte)
  | icmp (rd ra rb : Reg)
  | uparse (rd : Reg) (base : Byte)
  | iparse (rd : Reg) (base : Byte)
  | ufmt (ra : Reg) (base : Byte)
  | ifmt (ra : Reg) (base : Byte)
  | udebug (ra : Reg) (base : Byte)
  | idebug (ra : Reg) (base : Byte)
  | fclass (rd ra : Reg)
  | ffromd (rd ra : Reg)
  | ftod (rd ra : Reg)
  | ffrexp (rd re ra : Reg)
  | fldexp (rd ra rb : Reg)
  | fcmp (rd ra rb : Reg)
  | fmul (rd ra rb : Reg)
  | fadd (rd ra rb : Reg)
  | fdiv (rd ra rb : Reg)
  | fmod (rd ra rb : Reg)
  deriving DecidableEq, Repr

end Sys2Proof
end

