-- ==== Sys2Proof/WellFormed.lean ====
section
/-! DEFINITION. Which terms of `Instr` are commands. Every operand's range is in its type; the one
further condition is that the two destinations of `UDIVREM` and `FFREXP` differ (30_encoding.md R64). -/
namespace Sys2Proof

/-- The well-formed commands: `rd ≠ re` in the formats `DEA` and `DEAB` (30_encoding.md R64); every
other command is well-formed with any operands (R67). -/
def Instr.wellFormed : Instr → Bool
  | .udivrem d e _ _ => d != e
  | .ffrexp d e _ => d != e
  | .nop | .ldp .. | .ldz .. | .lds .. | .rd .. | .mov .. | .sbw .. | .sbr .. | .slenw .. | .slenr
  | .esrr | .esrc | .unarrow .. | .inarrow .. | .uadd .. | .usub .. | .umul .. | .udiv .. | .urem ..
  | .ushl .. | .ushr .. | .ushli .. | .ushri .. | .and .. | .or .. | .xor .. | .not .. | .ucmp ..
  | .umsb .. | .ineg .. | .iabs .. | .imul .. | .idiv .. | .irem .. | .ishr .. | .ishri .. | .icmp ..
  | .uparse .. | .iparse .. | .ufmt .. | .ifmt .. | .udebug .. | .idebug .. | .fclass .. | .ffromd ..
  | .ftod .. | .fldexp .. | .fcmp .. | .fmul .. | .fadd .. | .fdiv .. | .fmod .. => true

end Sys2Proof
end

