-- ==== Sys2Proof/Decode.lean ====
section
/-! DEFINITION. The decoder of 30_encoding.md R68, total on any packet and rejecting by name, and the
encoder beside it, both over one opcode map (R65) and one table of formats (R63). -/
namespace Sys2Proof

/-! ## Fields of a command word -/

/-- The six fields of a command word (30_encoding.md R61). -/
structure Fields where
  op : BitVec 8
  rd : Reg
  ra : Reg
  rb : Reg
  re : Reg
  imm : Byte
  deriving DecidableEq, Repr

/-- The fields of a word: `op` 31:24, `rd` 23:20, `ra` 19:16, `rb` 15:12, `re` 11:8, `imm` 7:0
(30_encoding.md R61). -/
def Fields.ofWord (cw : BitVec 32) : Fields where
  op := cw.extractLsb' 24 8
  rd := (cw.extractLsb' 20 4).toFin
  ra := (cw.extractLsb' 16 4).toFin
  rb := (cw.extractLsb' 12 4).toFin
  re := (cw.extractLsb' 8 4).toFin
  imm := cw.extractLsb' 0 8

/-- The word with given fields (30_encoding.md R61). -/
def Fields.toWord (f : Fields) : BitVec 32 :=
  f.op ++ (BitVec.ofFin f.rd : BitVec 4) ++ (BitVec.ofFin f.ra : BitVec 4) ++
    (BitVec.ofFin f.rb : BitVec 4) ++ (BitVec.ofFin f.re : BitVec 4) ++ f.imm

/-- The width code `wc` (30_encoding.md R67 a, 40_host_data.md R100): 0 is 8 bits, 1 is 16, 2 is 32, 3 is 64. -/
def Width.code : Width → BitVec 2
  | .w8 => 0
  | .w16 => 1
  | .w32 => 2
  | .w64 => 3

/-- The width a code names (40_host_data.md R100). -/
def Width.ofCode (c : BitVec 2) : Width :=
  if c = 0 then .w8 else if c = 1 then .w16 else if c = 2 then .w32 else .w64

/-- `wbits(wc) = 8 << wc` (40_host_data.md R100). -/
def Width.bits (w : Width) : Nat := 8 <<< w.code.toNat

/-! ## Formats -/

/-- The thirteen formats (30_encoding.md R63). -/
inductive Format where
  | z | d | dw | a | da | i | daw | dab | deab | dai | di | ai | dea
  deriving DecidableEq, Repr

/-- The bits of the command word that a format requires to match exactly (30_encoding.md R63). -/
def Format.mask : Format → BitVec 32
  | .z => 0xFFFFFFFF
  | .d => 0xFF0FFFFF
  | .dw => 0xFF0FFFFC
  | .a => 0xFFF0FFFF
  | .da => 0xFF00FFFF
  | .i => 0xFFFFFF00
  | .daw => 0xFF00FFFC
  | .dab => 0xFF000FFF
  | .deab => 0xFF0000FF
  | .dai => 0xFF00FF00
  | .di => 0xFF0FFF00
  | .ai => 0xFFF0FF00
  | .dea => 0xFF00F0FF

/-- Has the format two destinations, which must differ (30_encoding.md R64)? -/
def Format.twoDestinations : Format → Bool
  | .dea | .deab => true
  | .z | .d | .dw | .a | .da | .i | .daw | .dab | .dai | .di | .ai => false

/-! ## The opcode map -/

/-- The rows of the opcode map, in its order (30_encoding.md R65). -/
inductive Op where
  | nop | ldp | ldz | lds | rd | mov | sbw | sbr | slenw | slenr
  | esrr | esrc | unarrow | inarrow | uadd | usub | umul | udiv | urem | udivrem
  | ushl | ushr | ushli | ushri | and | or | xor | not | ucmp | umsb
  | ineg | iabs | imul | idiv | irem | ishr | ishri | icmp | uparse | iparse
  | ufmt | ifmt | udebug | idebug | fclass | ffromd | ftod | ffrexp | fldexp | fcmp
  | fmul | fadd | fdiv | fmod
  deriving DecidableEq, Repr

/-- Every row of the opcode map. -/
def Op.all : List Op :=
  [.nop, .ldp, .ldz, .lds, .rd, .mov, .sbw, .sbr, .slenw, .slenr,
   .esrr, .esrc, .unarrow, .inarrow, .uadd, .usub, .umul, .udiv, .urem, .udivrem,
   .ushl, .ushr, .ushli, .ushri, .and, .or, .xor, .not, .ucmp, .umsb,
   .ineg, .iabs, .imul, .idiv, .irem, .ishr, .ishri, .icmp, .uparse, .iparse,
   .ufmt, .ifmt, .udebug, .idebug, .fclass, .ffromd, .ftod, .ffrexp, .fldexp, .fcmp,
   .fmul, .fadd, .fdiv, .fmod]

/-- The opcode `cw[31:24]` of a row (30_encoding.md R65). -/
def Op.code : Op → BitVec 8
  | .nop => 0x00
  | .ldp => 0x01
  | .ldz => 0x02
  | .lds => 0x03
  | .rd => 0x04
  | .mov => 0x05
  | .sbw => 0x06
  | .sbr => 0x07
  | .slenw => 0x08
  | .slenr => 0x09
  | .esrr => 0x0A
  | .esrc => 0x0B
  | .unarrow => 0x0C
  | .inarrow => 0x0D
  | .uadd => 0x10
  | .usub => 0x11
  | .umul => 0x12
  | .udiv => 0x13
  | .urem => 0x14
  | .udivrem => 0x15
  | .ushl => 0x16
  | .ushr => 0x17
  | .ushli => 0x18
  | .ushri => 0x19
  | .and => 0x1A
  | .or => 0x1B
  | .xor => 0x1C
  | .not => 0x1D
  | .ucmp => 0x1E
  | .umsb => 0x1F
  | .ineg => 0x20
  | .iabs => 0x21
  | .imul => 0x22
  | .idiv => 0x23
  | .irem => 0x24
  | .ishr => 0x25
  | .ishri => 0x26
  | .icmp => 0x27
  | .uparse => 0x30
  | .iparse => 0x31
  | .ufmt => 0x32
  | .ifmt => 0x33
  | .udebug => 0x34
  | .idebug => 0x35
  | .fclass => 0x40
  | .ffromd => 0x41
  | .ftod => 0x42
  | .ffrexp => 0x43
  | .fldexp => 0x44
  | .fcmp => 0x45
  | .fmul => 0x46
  | .fadd => 0x47
  | .fdiv => 0x48
  | .fmod => 0x49

/-- The format of a row (30_encoding.md R65). -/
def Op.format : Op → Format
  | .nop | .slenr | .esrr | .esrc => .z
  | .ldp => .d
  | .ldz | .lds => .dw
  | .rd => .a
  | .mov | .not | .umsb | .ineg | .iabs | .fclass | .ffromd | .ftod => .da
  | .sbw | .sbr | .slenw => .i
  | .unarrow | .inarrow => .daw
  | .uadd | .usub | .umul | .udiv | .urem | .ushl | .ushr | .and | .or | .xor | .ucmp | .imul | .idiv | .irem | .ishr | .icmp | .fldexp | .fcmp | .fmul | .fadd | .fdiv | .fmod => .dab
  | .udivrem => .deab
  | .ushli | .ushri | .ishri => .dai
  | .uparse | .iparse => .di
  | .ufmt | .ifmt | .udebug | .idebug => .ai
  | .ffrexp => .dea

/-- The row with a given opcode; `none` for the reserved opcodes (30_encoding.md R65, R66). -/
def Op.ofCode (code : BitVec 8) : Option Op :=
  Op.all.find? fun o => o.code == code

/-- The command of a row whose word has the fields `f`, with the packet's data words (30_encoding.md R60, R65). -/
def Op.build (f : Fields) (dhi dlo : DWord) : Op → Instr
  | .nop => .nop
  | .ldp => .ldp f.rd dhi dlo
  | .ldz => .ldz f.rd (Width.ofCode (f.imm.extractLsb' 0 2)) dlo
  | .lds => .lds f.rd (Width.ofCode (f.imm.extractLsb' 0 2)) dlo
  | .rd => .rd f.ra
  | .mov => .mov f.rd f.ra
  | .sbw => .sbw f.imm dlo
  | .sbr => .sbr f.imm
  | .slenw => .slenw f.imm
  | .slenr => .slenr
  | .esrr => .esrr
  | .esrc => .esrc
  | .unarrow => .unarrow f.rd f.ra (Width.ofCode (f.imm.extractLsb' 0 2))
  | .inarrow => .inarrow f.rd f.ra (Width.ofCode (f.imm.extractLsb' 0 2))
  | .uadd => .uadd f.rd f.ra f.rb
  | .usub => .usub f.rd f.ra f.rb
  | .umul => .umul f.rd f.ra f.rb
  | .udiv => .udiv f.rd f.ra f.rb
  | .urem => .urem f.rd f.ra f.rb
  | .udivrem => .udivrem f.rd f.re f.ra f.rb
  | .ushl => .ushl f.rd f.ra f.rb
  | .ushr => .ushr f.rd f.ra f.rb
  | .ushli => .ushli f.rd f.ra f.imm
  | .ushri => .ushri f.rd f.ra f.imm
  | .and => .and f.rd f.ra f.rb
  | .or => .or f.rd f.ra f.rb
  | .xor => .xor f.rd f.ra f.rb
  | .not => .not f.rd f.ra
  | .ucmp => .ucmp f.rd f.ra f.rb
  | .umsb => .umsb f.rd f.ra
  | .ineg => .ineg f.rd f.ra
  | .iabs => .iabs f.rd f.ra
  | .imul => .imul f.rd f.ra f.rb
  | .idiv => .idiv f.rd f.ra f.rb
  | .irem => .irem f.rd f.ra f.rb
  | .ishr => .ishr f.rd f.ra f.rb
  | .ishri => .ishri f.rd f.ra f.imm
  | .icmp => .icmp f.rd f.ra f.rb
  | .uparse => .uparse f.rd f.imm
  | .iparse => .iparse f.rd f.imm
  | .ufmt => .ufmt f.ra f.imm
  | .ifmt => .ifmt f.ra f.imm
  | .udebug => .udebug f.ra f.imm
  | .idebug => .idebug f.ra f.imm
  | .fclass => .fclass f.rd f.ra
  | .ffromd => .ffromd f.rd f.ra
  | .ftod => .ftod f.rd f.ra
  | .ffrexp => .ffrexp f.rd f.re f.ra
  | .fldexp => .fldexp f.rd f.ra f.rb
  | .fcmp => .fcmp f.rd f.ra f.rb
  | .fmul => .fmul f.rd f.ra f.rb
  | .fadd => .fadd f.rd f.ra f.rb
  | .fdiv => .fdiv f.rd f.ra f.rb
  | .fmod => .fmod f.rd f.ra f.rb

/-- The row a command belongs to. -/
def Instr.op : Instr → Op
  | .nop => .nop
  | .ldp .. => .ldp
  | .ldz .. => .ldz
  | .lds .. => .lds
  | .rd .. => .rd
  | .mov .. => .mov
  | .sbw .. => .sbw
  | .sbr .. => .sbr
  | .slenw .. => .slenw
  | .slenr => .slenr
  | .esrr => .esrr
  | .esrc => .esrc
  | .unarrow .. => .unarrow
  | .inarrow .. => .inarrow
  | .uadd .. => .uadd
  | .usub .. => .usub
  | .umul .. => .umul
  | .udiv .. => .udiv
  | .urem .. => .urem
  | .udivrem .. => .udivrem
  | .ushl .. => .ushl
  | .ushr .. => .ushr
  | .ushli .. => .ushli
  | .ushri .. => .ushri
  | .and .. => .and
  | .or .. => .or
  | .xor .. => .xor
  | .not .. => .not
  | .ucmp .. => .ucmp
  | .umsb .. => .umsb
  | .ineg .. => .ineg
  | .iabs .. => .iabs
  | .imul .. => .imul
  | .idiv .. => .idiv
  | .irem .. => .irem
  | .ishr .. => .ishr
  | .ishri .. => .ishri
  | .icmp .. => .icmp
  | .uparse .. => .uparse
  | .iparse .. => .iparse
  | .ufmt .. => .ufmt
  | .ifmt .. => .ifmt
  | .udebug .. => .udebug
  | .idebug .. => .idebug
  | .fclass .. => .fclass
  | .ffromd .. => .ffromd
  | .ftod .. => .ftod
  | .ffrexp .. => .ffrexp
  | .fldexp .. => .fldexp
  | .fcmp .. => .fcmp
  | .fmul .. => .fmul
  | .fadd .. => .fadd
  | .fdiv .. => .fdiv
  | .fmod .. => .fmod

/-! ## Decoding -/

/-- Why a command word is illegal (30_encoding.md R68); each raises `IllegalCommand` (60_exceptions.md R285). -/
inductive DecodeError where
  /-- `cw[31:24]` is not in the opcode map (R66). -/
  | reservedOpcode
  /-- a field the format does not use is nonzero (R64). -/
  | unusedFieldNonzero
  /-- `rd = re` in format `DEA` or `DEAB` (R64). -/
  | equalDestinations
  deriving DecidableEq, Repr

/-- The decoder: total, in the order of 30_encoding.md R68. -/
def decode (p : Packet) : Except DecodeError Instr :=
  let f := Fields.ofWord p.cw
  match Op.ofCode f.op with
  | none => .error .reservedOpcode
  | some o =>
    if p.cw &&& o.format.mask ≠ f.op.setWidth 32 <<< 24 then .error .unusedFieldNonzero
    else if o.format.twoDestinations ∧ f.rd = f.re then .error .equalDestinations
    else .ok (o.build f p.dhi p.dlo)

/-- The packet whose 160 bits are `w`, numbered from the command word's bit 0 on: `cw` is bits 31:0,
then `dhi`, then `dlo`, the order of 30_encoding.md R60 (log entry 8). -/
def Packet.ofBits (w : Nat) : Packet where
  cw := BitVec.ofNat 32 w
  dhi := BitVec.ofNat 64 (w >>> 32)
  dlo := BitVec.ofNat 64 (w >>> 96)

/-- The command the decoder reads from a packet of which the low `nbits` bits are given and the rest are 0. -/
def decodeTableWord (nbits w : Nat) : Option Instr :=
  match decode (Packet.ofBits (w % 2 ^ nbits)) with
  | .ok i => some i
  | .error _ => none

/-! ## Encoding -/

/-- The fields of a command's word; a field its format does not use is 0 (30_encoding.md R63). -/
def Instr.fields (i : Instr) : Fields :=
  match i with
  | .nop => ⟨i.op.code, 0, 0, 0, 0, 0⟩
  | .ldp d _ _ => ⟨i.op.code, d, 0, 0, 0, 0⟩
  | .ldz d w _ => ⟨i.op.code, d, 0, 0, 0, w.code.setWidth 8⟩
  | .lds d w _ => ⟨i.op.code, d, 0, 0, 0, w.code.setWidth 8⟩
  | .rd a => ⟨i.op.code, 0, a, 0, 0, 0⟩
  | .mov d a => ⟨i.op.code, d, a, 0, 0, 0⟩
  | .sbw imm _ => ⟨i.op.code, 0, 0, 0, 0, imm⟩
  | .sbr imm => ⟨i.op.code, 0, 0, 0, 0, imm⟩
  | .slenw imm => ⟨i.op.code, 0, 0, 0, 0, imm⟩
  | .slenr => ⟨i.op.code, 0, 0, 0, 0, 0⟩
  | .esrr => ⟨i.op.code, 0, 0, 0, 0, 0⟩
  | .esrc => ⟨i.op.code, 0, 0, 0, 0, 0⟩
  | .unarrow d a w => ⟨i.op.code, d, a, 0, 0, w.code.setWidth 8⟩
  | .inarrow d a w => ⟨i.op.code, d, a, 0, 0, w.code.setWidth 8⟩
  | .uadd d a b => ⟨i.op.code, d, a, b, 0, 0⟩
  | .usub d a b => ⟨i.op.code, d, a, b, 0, 0⟩
  | .umul d a b => ⟨i.op.code, d, a, b, 0, 0⟩
  | .udiv d a b => ⟨i.op.code, d, a, b, 0, 0⟩
  | .urem d a b => ⟨i.op.code, d, a, b, 0, 0⟩
  | .udivrem d e a b => ⟨i.op.code, d, a, b, e, 0⟩
  | .ushl d a b => ⟨i.op.code, d, a, b, 0, 0⟩
  | .ushr d a b => ⟨i.op.code, d, a, b, 0, 0⟩
  | .ushli d a imm => ⟨i.op.code, d, a, 0, 0, imm⟩
  | .ushri d a imm => ⟨i.op.code, d, a, 0, 0, imm⟩
  | .and d a b => ⟨i.op.code, d, a, b, 0, 0⟩
  | .or d a b => ⟨i.op.code, d, a, b, 0, 0⟩
  | .xor d a b => ⟨i.op.code, d, a, b, 0, 0⟩
  | .not d a => ⟨i.op.code, d, a, 0, 0, 0⟩
  | .ucmp d a b => ⟨i.op.code, d, a, b, 0, 0⟩
  | .umsb d a => ⟨i.op.code, d, a, 0, 0, 0⟩
  | .ineg d a => ⟨i.op.code, d, a, 0, 0, 0⟩
  | .iabs d a => ⟨i.op.code, d, a, 0, 0, 0⟩
  | .imul d a b => ⟨i.op.code, d, a, b, 0, 0⟩
  | .idiv d a b => ⟨i.op.code, d, a, b, 0, 0⟩
  | .irem d a b => ⟨i.op.code, d, a, b, 0, 0⟩
  | .ishr d a b => ⟨i.op.code, d, a, b, 0, 0⟩
  | .ishri d a imm => ⟨i.op.code, d, a, 0, 0, imm⟩
  | .icmp d a b => ⟨i.op.code, d, a, b, 0, 0⟩
  | .uparse d imm => ⟨i.op.code, d, 0, 0, 0, imm⟩
  | .iparse d imm => ⟨i.op.code, d, 0, 0, 0, imm⟩
  | .ufmt a imm => ⟨i.op.code, 0, a, 0, 0, imm⟩
  | .ifmt a imm => ⟨i.op.code, 0, a, 0, 0, imm⟩
  | .udebug a imm => ⟨i.op.code, 0, a, 0, 0, imm⟩
  | .idebug a imm => ⟨i.op.code, 0, a, 0, 0, imm⟩
  | .fclass d a => ⟨i.op.code, d, a, 0, 0, 0⟩
  | .ffromd d a => ⟨i.op.code, d, a, 0, 0, 0⟩
  | .ftod d a => ⟨i.op.code, d, a, 0, 0, 0⟩
  | .ffrexp d e a => ⟨i.op.code, d, a, 0, e, 0⟩
  | .fldexp d a b => ⟨i.op.code, d, a, b, 0, 0⟩
  | .fcmp d a b => ⟨i.op.code, d, a, b, 0, 0⟩
  | .fmul d a b => ⟨i.op.code, d, a, b, 0, 0⟩
  | .fadd d a b => ⟨i.op.code, d, a, b, 0, 0⟩
  | .fdiv d a b => ⟨i.op.code, d, a, b, 0, 0⟩
  | .fmod d a b => ⟨i.op.code, d, a, b, 0, 0⟩

/-- The high data word of a command's packet; 0 where the command ignores it (30_encoding.md R60, R71). -/
def Instr.dhi : Instr → DWord
  | .ldp _ dhi _ => dhi
  | _ => 0

/-- The low data word of a command's packet; 0 where the command ignores it (30_encoding.md R60, R71). -/
def Instr.dlo : Instr → DWord
  | .ldp _ _ dlo | .ldz _ _ dlo | .lds _ _ dlo | .sbw _ dlo => dlo
  | _ => 0

/-- The packet of a command (30_encoding.md R60, R61, R63, R65). -/
def encode (i : Instr) : Packet where
  cw := i.fields.toWord
  dhi := i.dhi
  dlo := i.dlo

end Sys2Proof
end

