-- ==== Sys2Proof/Machine/State.lean ====
section
/-! DEFINITION. The state of one GM128 unit (10_state.md R20) with the two ends of its host interface
(30_encoding.md R60, R62), what stops the model, and the state after reset (R33). -/
namespace Sys2Proof.Machine

/-- The string buffer: the bytes that something has written since reset, by address. A byte not
listed has no value (10_state.md R34, log entry 2). -/
abbrev Memory := List Host.Cell

/-- The canonical form of a string buffer: addresses strictly rising, each in the address space
0 to 255 (20_memory.md R40). An unlisted address has no value, so no entry can equal it. -/
abbrev Memory.wf (m : Memory) : Prop :=
  m.Pairwise (fun c d => c.1 < d.1) ∧ ∀ c ∈ m, c.1 < Config.sbSize

/-- The five errors of GM128, its only exceptions (60_exceptions.md R280 to R285). -/
inductive ErrorCause where
  | invalidDigit
  | invalidBase
  | divisionByZero
  | overflow
  | illegalCommand
  deriving DecidableEq, Repr

/-- The completion status of a command: exactly six values (60_exceptions.md R280, 93 U3). -/
inductive Status where
  | ok
  | error (c : ErrorCause)
  deriving DecidableEq, Repr

/-- The response to one packet: a status and two data words (30_encoding.md R62). -/
structure Response where
  /-- completion status -/
  status : Status
  /-- the high data word -/
  rhi : DWord
  /-- the low data word -/
  rlo : DWord
  deriving DecidableEq, Repr

/-- What the host can do to the unit: present a packet or assert reset (00_scope.md R5, 70_reset_and_hazards.md R310). -/
inductive HostEvent where
  | packet (p : Packet)
  | reset
  deriving DecidableEq, Repr

/-- The state. `x`, `sb`, `slen`, `esr` are the whole architectural state (10_state.md R20); `hostInput`
and `responses` are the model's own ends of the host interface (log entries 4 to 7). -/
structure State where
  /-- the value registers `x0 … x15` (R21) -/
  x : Vector Word 16
  /-- the string buffer `SB` (R22) -/
  sb : Memory
  /-- the string length `SLEN` (R23) -/
  slen : BitVec 8
  /-- the error status register `ESR` (R26) -/
  esr : BitVec 16
  /-- what the host has presented and the unit has not yet taken, oldest first -/
  hostInput : List HostEvent
  /-- the responses produced, oldest first -/
  responses : List Response
  deriving DecidableEq, Repr

/-- Why the model stops with a fault. -/
inductive Fault where
  /-- Raised by `SBR`, `UPARSE` and `IPARSE` when they read a string-buffer byte that nothing has written
  since reset, which the spec says a model should refuse (10_state.md R34, 70_reset_and_hazards.md R313,
  93 U1). The hardware goes on with an unspecified value. Safe: nothing is claimed of it. -/
  | unwrittenByte
  deriving DecidableEq, Repr

/-- Why the model refuses a command. -/
inductive Refusal where
  /-- Raised by an arm of `exec` that gives its instruction no meaning. Safe. No arm does: every
  command has its meaning. -/
  | notModelled (mnemonic : String)
  deriving DecidableEq, Repr

/-- The three outcomes of a step of this machine. -/
abbrev Result := Host.Outcome State Fault Refusal

/-- The state after reset (10_state.md R33): `SLEN = 0`, `ESR = 0`, no byte of `SB` with a value.
The spec leaves `x0 … x15` unspecified: DESIGN CHOICE 0, unsafe (log entry 1). No packet is presented
and no response pending (70_reset_and_hazards.md R311). -/
def State.reset : State where
  x := Vector.replicate 16 0
  sb := []
  slen := 0
  esr := 0
  hostInput := []
  responses := []

end Sys2Proof.Machine
end

