-- ==== Sys2Proof/Machine/Ops.lean ====
section
/-! DEFINITION. The named operations over registers, the string buffer, the response stream, and taking
an error. -/
namespace Sys2Proof.Machine

/-! ## Value registers (10_state.md R21, 00_scope.md R10) -/

/-- `x[r]`. -/
def State.readReg (s : State) (r : Reg) : Word := s.x[r]

/-- `x[r] <- v`. -/
def State.writeReg (s : State) (r : Reg) (v : Word) : State :=
  { s with x := s.x.set r v }

/-! ## The string buffer (20_memory.md R41) -/

/-- The byte at an address, `none` where nothing has written it since reset. -/
def Memory.read : Memory → Nat → Option Byte
  | [], _ => none
  | (k, b) :: m, a => if k = a then some b else Memory.read m a

/-- Writing one byte, keeping the addresses rising. -/
def Memory.write : Memory → Nat → Byte → Memory
  | [], a, b => [(a, b)]
  | (k, c) :: m, a, b =>
    if a < k then (a, b) :: (k, c) :: m
    else if a = k then (a, b) :: m
    else (k, c) :: Memory.write m a b

/-- Writing the bytes of a text at consecutive addresses from `a` on. -/
def Memory.writeText (m : Memory) (a : Nat) : List Byte → Memory
  | [] => m
  | b :: t => Memory.writeText (m.write a b) (a + 1) t

/-- `MemRead(a, 1)` (20_memory.md R41); `none` where `SB[a]` has no value (10_state.md R34). -/
def State.readByte (s : State) (a : Nat) : Option Byte := s.sb.read a

/-- `MemWrite(a, 1, b)` for an 8-bit address, so that none outside `SB` can be formed (20_memory.md R41). -/
def State.writeByte (s : State) (a : Byte) (b : Byte) : State :=
  { s with sb := s.sb.write a.toNat b }

/-- The current string `SB[0 … SLEN-1]` (10_state.md R22, R23), each byte as `MemRead` gives it. -/
def State.text (s : State) : List (Option Byte) :=
  (List.range s.slen.toNat).map s.readByte

/-- `emit(t)` (43_radix.md R177): `SB[0 … n-1]` and `SLEN`. -/
def State.emit (s : State) (t : List Byte) : State :=
  { s with sb := s.sb.writeText 0 t, slen := BitVec.ofNat 8 t.length }

/-! ## Responses (30_encoding.md R62) -/

/-- The numeric code of an error (60_exceptions.md R280). -/
def ErrorCause.code : ErrorCause → BitVec 4
  | .invalidDigit => 1
  | .invalidBase => 2
  | .divisionByZero => 3
  | .overflow => 4
  | .illegalCommand => 5

/-- `status[3:0]` (60_exceptions.md R280). -/
def Status.code : Status → BitVec 4
  | .ok => 0
  | .error c => c.code

/-- The 132 bits of a response: `status`, `rhi`, `rlo` (30_encoding.md R62). R62 gives them no bit positions:
that `status` is bits 131:128, `rhi` 127:64 and `rlo` 63:0 is the model's choice, DESIGN CHOICE, safe
(log entry 14). No step reads it. -/
def Response.bits (r : Response) : BitVec 132 := r.status.code ++ r.rhi ++ r.rlo

/-- Producing one response. -/
def State.respond (s : State) (r : Response) : State :=
  { s with responses := s.responses ++ [r] }

/-- Completing with status `OK` and zero data (30_encoding.md R62). -/
def State.done (s : State) : State := s.respond ⟨.ok, 0, 0⟩

/-- Completing with status `OK` and `rsp <- (hi, lo)` (00_scope.md R10). -/
def State.reply (s : State) (hi lo : DWord) : State := s.respond ⟨.ok, hi, lo⟩

/-! ## Errors (60_exceptions.md R286) -/

/-- The `ESR` that a command with opcode byte `op` ending in error `c` leaves: `OP` 15:8, zero 7:4,
`CAUSE` 3:0 (10_state.md R26). -/
def errorStatus (op : BitVec 8) (c : ErrorCause) : BitVec 16 := op ++ (0 : BitVec 4) ++ c.code

/-- Taking an error, the whole of GM128's exception entry: `x`, `SB`, `SLEN` unchanged, `ESR` records
the opcode byte and the cause, the response carries the cause and zero data (60_exceptions.md R286). No
mode, vector or saved state exists; there is no return from it, the next packet executes normally (R290). -/
def State.takeError (s : State) (op : BitVec 8) (c : ErrorCause) : State :=
  ({ s with esr := errorStatus op c }).respond ⟨.error c, 0, 0⟩

/-! ## Reset (70_reset_and_hazards.md R310) -/

/-- Reset asserted between commands: the state after reset, the events still to come and the responses
already produced kept (log entry 7). -/
def State.resetUnit (s : State) (rest : List HostEvent) : State :=
  { State.reset with hostInput := rest, responses := s.responses }

end Sys2Proof.Machine
end

