-- ==== Sys2Proof/Machine/Flags.lean ====
section
/-! DEFINITION. GM128 has no flags (10_state.md R25): a comparison or a classification is a VALUE written
to a register. This file holds those values: comparison codes and the class mask. -/
namespace Sys2Proof.Machine

/-- The outcome of a comparison (41_uint128.md R126, 44_float128_format.md R221). -/
inductive CmpCode where
  | eq | lt | gt
  /-- unordered, `FCMP` only -/
  | un
  deriving DecidableEq, Repr

/-- `EQ = 0`, `LT = 1`, `GT = 2`, `UN = 3`, zero-extended (41_uint128.md R126, R127, 44_float128_format.md R221). -/
def CmpCode.word : CmpCode → Word
  | .eq => 0
  | .lt => 1
  | .gt => 2
  | .un => 3

/-- `LT` and `GT` exchanged (44_float128_format.md R221). -/
def CmpCode.swap : CmpCode → CmpCode
  | .lt => .gt
  | .gt => .lt
  | .eq => .eq
  | .un => .un

/-- The four variant tags of a Float128 pattern (44_float128_format.md R203). -/
inductive FTag where
  | zero | infinity | nan | normal
  deriving DecidableEq, Repr

/-- The tag as `FCLASS` reports it (44_float128_format.md R209). -/
def FTag.code : FTag → BitVec 2
  | .zero => 0
  | .infinity => 1
  | .nan => 2
  | .normal => 3

/-- The mask of `FCLASS`: bit 0 zero, 1 infinite, 2 NaN, 3 sign-minus, 4 power of two, 6:5 tag,
zero-extended (44_float128_format.md R209). -/
def classMask (zero infinite nan signMinus powerOf2 : Bool) (tag : FTag) : Word :=
  (tag.code ++ BitVec.ofBool powerOf2 ++ BitVec.ofBool signMinus ++ BitVec.ofBool nan ++
    BitVec.ofBool infinite ++ BitVec.ofBool zero).setWidth 128

end Sys2Proof.Machine
end

