-- ==== Sys2Proof/Machine/Limbs.lean ====
section
/-! DEFINITION. The unsigned engine on patterns (41_uint128.md): adder, subtractor, multiplier, divider,
shifter, comparator and highest-set-bit counter, each as its rule's pseudocode gives it. -/
namespace Sys2Proof.Machine

/-! ## Limbs -/

/-- `limb(v, i)`: limb 0 is the most significant (00_scope.md R8). -/
def limb (v : Word) (i : Nat) : BitVec 32 := v.extractLsb' (96 - 32 * i) 32

/-- `{R_0, R_1, R_2, R_3}`. -/
def ofLimbs (r0 r1 r2 r3 : BitVec 32) : Word := r0 ++ r1 ++ r2 ++ r3

/-! ## Adder and subtractor -/

/-- One limb of the adder: the sum's low 32 bits and the carry out (41_uint128.md R110). -/
def addLimb (a b : BitVec 32) (c : Nat) : BitVec 32 × Nat :=
  let t := a.toNat + b.toNat + c
  (BitVec.ofNat 32 t, t / 2 ^ 32)

/-- `uadd(a, b)`: limb-wise, least significant limb first; the last carry is discarded (41_uint128.md R110). -/
def uadd (a b : Word) : Word :=
  let l3 := addLimb (limb a 3) (limb b 3) 0
  let l2 := addLimb (limb a 2) (limb b 2) l3.2
  let l1 := addLimb (limb a 1) (limb b 1) l2.2
  let l0 := addLimb (limb a 0) (limb b 0) l1.2
  ofLimbs l0.1 l1.1 l2.1 l3.1

/-- One limb of the subtractor: the difference modulo `2^32` and the borrow out (41_uint128.md R112). -/
def subLimb (a b : BitVec 32) (w : Nat) : BitVec 32 × Nat :=
  let t : Int := a.toNat - b.toNat - w
  (BitVec.ofInt 32 t, if t < 0 then 1 else 0)

/-- `usub(a, b)`: limb-wise, least significant limb first; the last borrow is discarded (41_uint128.md R112). -/
def usub (a b : Word) : Word :=
  let l3 := subLimb (limb a 3) (limb b 3) 0
  let l2 := subLimb (limb a 2) (limb b 2) l3.2
  let l1 := subLimb (limb a 1) (limb b 1) l2.2
  let l0 := subLimb (limb a 0) (limb b 0) l1.2
  ofLimbs l0.1 l1.1 l2.1 l3.1

/-! ## Multiplier -/

/-- The 64-bit partial product of limbs `i` and `j` at its place in the 256-bit accumulator (41_uint128.md R114). -/
def partialProduct (a b : Word) (i j : Nat) : BitVec 256 :=
  (((limb a i).setWidth 64 * (limb b j).setWidth 64).setWidth 256) <<< (32 * ((3 - i) + (3 - j)))

/-- `umul(a, b)`: schoolbook multiplication into 256 bits, cut to the low 128 (41_uint128.md R114). -/
def umul (a b : Word) : Word :=
  let acc := (List.range 4).foldl (init := (0 : BitVec 256)) fun acc i =>
    (List.range 4).foldl (init := acc) fun acc j => acc + partialProduct a b i j
  acc.extractLsb' 0 128

/-! ## Divider -/

/-- The restoring division of the bits `n-1 … 0` of `a` by `d`, from quotient `q` and partial
remainder `r` (41_uint128.md R116). -/
def divideBits (a : Word) (d : Nat) : Nat → Word → Nat → Word × Nat
  | 0, q, r => (q, r)
  | i + 1, q, r =>
    let t := 2 * r + (a.getLsbD i).toNat
    if d ≤ t then divideBits a d i (q ||| 1#128 <<< i) (t - d)
    else divideBits a d i q t

/-- `udivrem(a, b)`: quotient and remainder; used only with `b ≠ 0` (41_uint128.md R116). -/
def udivrem (a b : Word) : Word × Word :=
  let qr := divideBits a b.toNat 128 0 0
  (qr.1, BitVec.ofNat 128 qr.2)

/-! ## Shifter -/

/-- `shl(a, n)`: 0 for `n ≥ 128` (41_uint128.md R120). -/
def shl (a : Word) (n : Nat) : Word := if n ≤ 127 then a <<< n else 0

/-- `shr(a, n)`: 0 for `n ≥ 128` (41_uint128.md R120). -/
def shr (a : Word) (n : Nat) : Word := if n ≤ 127 then a >>> n else 0

/-! ## Comparator -/

/-- The limbs of a pattern, most significant first (00_scope.md R8). -/
def limbList (v : Word) : List (BitVec 32) := [limb v 0, limb v 1, limb v 2, limb v 3]

/-- Lexicographic comparison of limbs (41_uint128.md R126). -/
def compareLimbs : List (BitVec 32) → List (BitVec 32) → CmpCode
  | a :: as, b :: bs =>
    if a.toNat < b.toNat then .lt else if b.toNat < a.toNat then .gt else compareLimbs as bs
  | _, _ => .eq

/-- `ucmp(a, b)`: most significant limb first (41_uint128.md R126). -/
def ucmp (a b : Word) : CmpCode := compareLimbs (limbList a) (limbList b)

/-! ## Highest-set-bit counter -/

/-- `msb(n)` of a non-negative integer: the 1-based index of its highest set bit, 0 for 0
(00_scope.md R10, 41_uint128.md R128). -/
def msb (n : Nat) : Nat := if n = 0 then 0 else n.log2 + 1

end Sys2Proof.Machine
end

