-- ==== Sys2Proof/Machine/Signed.lean ====
section
/-! DEFINITION. The signed wrapper on patterns (42_int128.md), built on the unsigned engine. -/
namespace Sys2Proof.Machine

/-- `Int128.min` (42_int128.md R140). -/
def int128Min : Word := 0x80000000000000000000000000000000#128

/-- `isneg(v) = v[127]` (42_int128.md R140). -/
def isneg (v : Word) : Bool := v.getLsbD 127

/-- `ineg(a) = uadd(NOT a, 1)` (42_int128.md R141). -/
def ineg (a : Word) : Word := uadd (~~~a) 1

/-- `iabs(a)` (42_int128.md R143). -/
def iabs (a : Word) : Word := if isneg a then ineg a else a

/-- `imul(a, b)`: sign by XOR, magnitudes multiplied as UInt128 (42_int128.md R145). -/
def imul (a b : Word) : Word :=
  let m := umul (iabs a) (iabs b)
  if isneg a ^^ isneg b then ineg m else m

/-- `idivrem(b, e)` for dividend `b` and divisor `e`: truncating, remainder with the dividend's sign
(42_int128.md R147). -/
def idivrem (b e : Word) : Word × Word :=
  let qr := udivrem (iabs b) (iabs e)
  (if isneg b ^^ isneg e then ineg qr.1 else qr.1, if isneg b then ineg qr.2 else qr.2)

/-- `sar(a, n)`: arithmetic right shift, all copies of the sign for `n ≥ 128` (42_int128.md R150). -/
def sar (a : Word) (n : Nat) : Word :=
  if n ≤ 127 then a.sshiftRight n else if isneg a then BitVec.allOnes 128 else 0

/-- `icmp(a, b)` (42_int128.md R153). -/
def icmp (a b : Word) : CmpCode :=
  if isneg a ≠ isneg b then (if isneg a then .lt else .gt) else ucmp a b

end Sys2Proof.Machine
end

