-- ==== Sys2Proof/Machine/Float.lean ====
section
/-! DEFINITION. The Float128 layout, classification, packing, conversion from and to double precision,
frexp and ldexp, and comparison (44_float128_format.md). -/
namespace Sys2Proof.Machine

/-! ## Fields (10_state.md R28) -/

/-- `sign(v) = v[127]`. -/
def fsign (v : Word) : Bool := v.getLsbD 127

/-- `E(v) = v[126:112]`, the biased exponent. -/
def fexp (v : Word) : Nat := (v.extractLsb' 112 15).toNat

/-- `F(v) = v[111:0]`, the mantissa field. -/
def ffrac (v : Word) : BitVec 112 := v.extractLsb' 0 112

/-- `v[126:0]`, the magnitude: exponent and mantissa as one number. -/
def fmag (v : Word) : Nat := (v.extractLsb' 0 127).toNat

/-- `{s, e, f}`, a pattern from its three fields. -/
def fmake (s : Bool) (e : BitVec 15) (f : BitVec 112) : Word := BitVec.ofBool s ++ e ++ f

/-- Zero of sign `s` (44_float128_format.md R200). -/
def fzero (s : Bool) : Word := fmake s 0 0

/-- Infinity of sign `s` (44_float128_format.md R201). -/
def finf (s : Bool) : Word := fmake s 0x7FFF 0

/-! ## Classification -/

/-- `isZero(v)` (44_float128_format.md R200). -/
def isZero (v : Word) : Bool := fexp v = 0 && ffrac v = 0

/-- `isInfinite(v)` (44_float128_format.md R201). -/
def isInfinite (v : Word) : Bool := fexp v = 32767 && ffrac v = 0

/-- `isNaN(v)` (44_float128_format.md R202). -/
def isNaN (v : Word) : Bool := fexp v = 32767 && ffrac v ≠ 0

/-- `tag(v)` (44_float128_format.md R203). -/
def ftag (v : Word) : FTag :=
  if isZero v then .zero else if isInfinite v then .infinity else if isNaN v then .nan else .normal

/-- `isSpecial(v)` (44_float128_format.md R203). -/
def isSpecial (v : Word) : Bool := ftag v ≠ .normal

/-- `isSignMinus(v)`: a NaN's sign is never reported (44_float128_format.md R208). -/
def isSignMinus (v : Word) : Bool := fsign v && !isNaN v

/-- `isPowerOf2(v)`, whatever the sign (44_float128_format.md R208). -/
def isPowerOf2 (v : Word) : Bool := ffrac v = 0 && 1 ≤ fexp v && fexp v ≤ 32766

/-- `M(v) = 2^112 + F(v)`, the significand of a Normal pattern (44_float128_format.md R204). -/
def signif (v : Word) : Nat := 2 ^ 112 + (ffrac v).toNat

/-- The class mask of a pattern (44_float128_format.md R209). -/
def fclass (v : Word) : Word :=
  classMask (isZero v) (isInfinite v) (isNaN v) (isSignMinus v) (isPowerOf2 v) (ftag v)

/-! ## Packing -/

/-- `pack(s, e, f)`: infinity above the exponent range, zero below it (44_float128_format.md R205). The
fraction is given modulo `2^112`. -/
def pack (s : Bool) (e : Int) (f : Nat) : Word :=
  if 32767 ≤ e then finf s
  else if e ≤ 0 then fzero s
  else fmake s (BitVec.ofInt 15 e) (BitVec.ofNat 112 f)

/-! ## Double precision -/

/-- `dsign(d)` (10_state.md R29). -/
def dsign (d : DWord) : Bool := d.getLsbD 63

/-- `dE(d)`, 11 bits (10_state.md R29). -/
def dexp (d : DWord) : Nat := (d.extractLsb' 52 11).toNat

/-- `dF(d)`, 52 bits (10_state.md R29). -/
def dfrac (d : DWord) : BitVec 52 := d.extractLsb' 0 52

/-- `dfrexp(d)` of a nonzero finite double: the fraction of the normalised mantissa and the exponent
(44_float128_format.md R206). -/
def dfrexp (d : DWord) : BitVec 52 × Int :=
  if 1 ≤ dexp d then (dfrac d, (dexp d : Int) - 1022)
  else
    let p := msb (dfrac d).toNat
    (dfrac d <<< (53 - p), (p : Int) - 1074)

/-- `fromDouble(d)` (44_float128_format.md R211). -/
def fromDouble (d : DWord) : Word :=
  if dexp d = 2047 ∧ dfrac d ≠ 0 then Config.qnan128
  else if dexp d = 2047 then finf (dsign d)
  else if dexp d = 0 ∧ dfrac d = 0 then fzero (dsign d)
  else
    let fe := dfrexp d
    fmake (dsign d) (BitVec.ofInt 15 (fe.2 - 1 + 16383)) (fe.1 ++ (0 : BitVec 60))

/-- `toDouble(v)`: `Overflow` above the double range, zero below it, truncation within (44_float128_format.md R212). -/
def toDouble (v : Word) : Except ErrorCause DWord :=
  let s := BitVec.ofBool (fsign v)
  if isNaN v then .ok Config.qnan64
  else if isInfinite v then .ok (s ++ (0x7FF : BitVec 11) ++ (0 : BitVec 52))
  else if isZero v then .ok (s ++ (0 : BitVec 63))
  else
    let ed : Int := (fexp v : Int) - 16383 + 1023
    if 2047 ≤ ed then .error .overflow
    else if ed ≤ 0 then .ok (s ++ (0 : BitVec 63))
    else .ok (s ++ BitVec.ofInt 11 ed ++ v.extractLsb' 60 52)

/-! ## frexp and ldexp -/

/-- `frexp(v)`: the mantissa with exponent field 16382 and the exponent; specials pass through with
exponent 0 (44_float128_format.md R216). -/
def frexp (v : Word) : Word × Int :=
  if isSpecial v then (v, 0)
  else (fmake (fsign v) 16382 (ffrac v), (fexp v : Int) - 16383 + 1)

/-- `ldexp(m, e)`: the exponent field set to `e - 1 + 16383`, `Overflow` where that is outside 0 to 32766;
specials pass through (44_float128_format.md R218). -/
def ldexp (m : Word) (e : Int) : Except ErrorCause Word :=
  if isSpecial m then .ok m
  else
    let b := e - 1 + 16383
    if b < 0 ∨ 32766 < b then .error .overflow
    else .ok (fmake (fsign m) (BitVec.ofInt 15 b) (ffrac m))

/-! ## Comparison -/

/-- `fcmp(l, r)` (44_float128_format.md R221). -/
def fcmp (l r : Word) : CmpCode :=
  if isNaN l ∨ isNaN r then .un
  else if isZero l ∧ isZero r then .eq
  else if fsign l ≠ fsign r then (if fsign l then .lt else .gt)
  else
    let c := ucmp ((l.extractLsb' 0 127).setWidth 128) ((r.extractLsb' 0 127).setWidth 128)
    if fsign l then c.swap else c

end Sys2Proof.Machine
end

