-- ==== Sys2Proof/Machine/FloatArith.lean ====
section
/-! DEFINITION. Float128 multiply, add, divide and modulo (45_float128_arith.md). Intermediate quantities
are unbounded integers (R240); every narrowing truncates (44_float128_format.md R207). -/
namespace Sys2Proof.Machine

/-! ## Multiply -/

/-- `fmul` of two Normal operands, neither a power of two: 57-bit significands (45_float128_arith.md R243). -/
def fmulGeneral (l r : Word) : Word :=
  let s := fsign l ^^ fsign r
  let ml := 2 ^ 56 + (ffrac l).toNat >>> 56
  let mr := 2 ^ 56 + (ffrac r).toNat >>> 56
  let p := ml * mr
  let e : Int := (fexp l : Int) + fexp r - 16383
  if 2 ^ 113 ≤ p then pack s (e + 1) (p >>> 1) else pack s e p

/-- `fmul` of two Normal operands: the fast path first, `r` tested before `l` (45_float128_arith.md R242). -/
def fmulNormal (l r : Word) : Word :=
  let s := fsign l ^^ fsign r
  let e : Int := (fexp l : Int) + fexp r - 16383
  if isPowerOf2 r then pack s e (ffrac l).toNat
  else if isPowerOf2 l then pack s e (ffrac r).toNat
  else fmulGeneral l r

/-- `fmul(l, r)` (45_float128_arith.md R241). -/
def fmul (l r : Word) : Word :=
  let s := fsign l ^^ fsign r
  if isNaN l ∨ isNaN r then Config.qnan128
  else if (isInfinite l ∧ isZero r) ∨ (isZero l ∧ isInfinite r) then Config.qnan128
  else if isInfinite l ∨ isInfinite r then finf s
  else if isZero l ∨ isZero r then fzero s
  else fmulNormal l r

/-! ## Add -/

/-- Same signs: magnitudes summed, one-bit renormalisation (45_float128_arith.md R247). -/
def faddSame (s : Bool) (e : Int) (mb ms : Nat) : Word :=
  let t := mb + ms
  if 2 ^ 113 ≤ t then pack s (e + 1) (t >>> 1) else pack s e t

/-- Opposite signs: the difference, normalised by the leading-zero count (45_float128_arith.md R248). -/
def faddOpposite (s : Bool) (e : Int) (mb ms : Nat) : Word :=
  let t := mb - ms
  if t = 0 then fzero false
  else
    let k := 113 - msb t
    pack s (e - k) (t <<< k)

/-- The aligner, from the operand of larger and of smaller magnitude (45_float128_arith.md R246). -/
def faddAligned (big small : Word) : Word :=
  let d := fexp big - fexp small
  if 112 < d then big
  else
    let ms := signif small >>> d
    if fsign big = fsign small then faddSame (fsign big) (fexp big) (signif big) ms
    else faddOpposite (fsign big) (fexp big) (signif big) ms

/-- `fadd` of two Normal operands: on a tie of magnitudes `l` is the larger (45_float128_arith.md R246). -/
def faddNormal (l r : Word) : Word :=
  if fmag r ≤ fmag l then faddAligned l r else faddAligned r l

/-- `fadd(l, r)` (45_float128_arith.md R245). -/
def fadd (l r : Word) : Word :=
  if isNaN l ∨ isNaN r then Config.qnan128
  else if isInfinite l ∧ isInfinite r then (if fsign l = fsign r then l else Config.qnan128)
  else if isInfinite l then l
  else if isInfinite r then r
  else if isZero l ∧ isZero r then (if fsign l = fsign r then l else fzero false)
  else if isZero l then r
  else if isZero r then l
  else faddNormal l r

/-! ## Divide -/

/-- Restoring long division: the quotient bits `n-1 … 0` of the partial remainder `r` by `m`, added to
`q` (45_float128_arith.md R251). -/
def fdivBits (m : Nat) : Nat → Nat → Nat → Nat
  | 0, q, _ => q
  | i + 1, q, r =>
    if m ≤ r then fdivBits m i (q + 2 ^ i) ((r - m) <<< 1) else fdivBits m i q (r <<< 1)

/-- `fdiv` of two Normal operands (45_float128_arith.md R251). -/
def fdivNormal (l r : Word) : Word :=
  let s := fsign l ^^ fsign r
  let e : Int := (fexp l : Int) - fexp r + 16383
  if signif l < signif r then pack s (e - 1) (fdivBits (signif r) 113 0 (signif l <<< 1))
  else pack s e (fdivBits (signif r) 113 0 (signif l))

/-- `fdiv(l, r)`: a zero divisor is tested first (45_float128_arith.md R250). -/
def fdiv (l r : Word) : Except ErrorCause Word :=
  let s := fsign l ^^ fsign r
  if isZero r then .error .divisionByZero
  else if isNaN l ∨ isNaN r then .ok Config.qnan128
  else if isInfinite l ∧ isInfinite r then .ok Config.qnan128
  else if isInfinite l then .ok (finf s)
  else if isInfinite r then .ok (fzero s)
  else if isZero l then .ok (fzero s)
  else .ok (fdivNormal l r)

/-! ## Modulo -/

/-- `fmod` of two Normal operands: the exact remainder of truncating division (45_float128_arith.md R254). -/
def fmodNormal (l r : Word) : Word :=
  if fmag l < fmag r then l
  else
    let d := fexp l - fexp r
    let t := (signif l <<< d) % signif r
    if t = 0 then fzero (fsign l)
    else
      let k := 113 - msb t
      pack (fsign l) ((fexp r : Int) - k) (t <<< k)

/-- `fmod(l, r)`: a zero divisor is tested first (45_float128_arith.md R253). -/
def fmod (l r : Word) : Except ErrorCause Word :=
  if isZero r then .error .divisionByZero
  else if isNaN l ∨ isNaN r then .ok Config.qnan128
  else if isInfinite l then .ok Config.qnan128
  else if isInfinite r then .ok l
  else if isZero l then .ok l
  else .ok (fmodNormal l r)

end Sys2Proof.Machine
end

