-- ==== Sys2Proof/Machine/Radix.lean ====
section
/-! DEFINITION. The radix converter on texts (43_radix.md): digits, parsing, formatting, debug forms. -/
namespace Sys2Proof.Machine

/-- Is the radix outside `[2, 36]` (43_radix.md R172)? -/
def badBase (imm : Byte) : Bool :=
  imm.toNat < Config.baseMin || Config.baseMax < imm.toNat

/-- `digitValue(c)` (43_radix.md R171). -/
def digitValue (c : Byte) : Option Nat :=
  let n := c.toNat
  if 0x30 ≤ n ∧ n ≤ 0x39 then some (n - 0x30)
  else if 0x61 ≤ n ∧ n ≤ 0x7A then some (n - 0x61 + 10)
  else if 0x41 ≤ n ∧ n ≤ 0x5A then some (n - 0x41 + 10)
  else none

/-- `digitChar(d)` for `d ≤ 35`: letters lowercase (43_radix.md R171). -/
def digitChar (d : Nat) : Byte :=
  BitVec.ofNat 8 (if d ≤ 9 then 0x30 + d else 0x61 + d - 10)

/-! ## Parsing -/

/-- What a parse gives. -/
inductive Parsed where
  | value (v : Word)
  | invalidDigit
  /-- the scan came to a byte that nothing has written since reset (10_state.md R34) -/
  | unwritten
  deriving DecidableEq, Repr

/-- Scanning digits in base `b`: `v <- uadd(umul(v, pat(B)), pat(d))` in string order, ended by the first
offending character (43_radix.md R173, 60_exceptions.md R288) or unwritten byte (log entry 3). -/
def scanDigits (b : Nat) : Word → List (Option Byte) → Parsed
  | v, [] => .value v
  | _, none :: _ => .unwritten
  | v, some c :: t =>
    match digitValue c with
    | none => .invalidDigit
    | some d =>
      if b ≤ d then .invalidDigit
      else scanDigits b (uadd (umul v (BitVec.ofNat 128 b)) (BitVec.ofNat 128 d)) t

/-- The digits after the optional sign: at least one (43_radix.md R173). -/
def parseDigits (b : Nat) : List (Option Byte) → Parsed
  | [] => .invalidDigit
  | t => scanDigits b 0 t

/-- The value with the sign of a `-` applied afterward (43_radix.md R173). -/
def Parsed.negate : Parsed → Parsed
  | .value v => .value (ineg v)
  | .invalidDigit => .invalidDigit
  | .unwritten => .unwritten

/-- `parse(signed, B)` of a text: optional `+` (0x2B), or `-` (0x2D) when signed, then digits (43_radix.md R173). -/
def parse (signed : Bool) (b : Nat) : List (Option Byte) → Parsed
  | some c :: t =>
    if c = 0x2B then parseDigits b t
    else if c = 0x2D ∧ signed then (parseDigits b t).negate
    else parseDigits b (some c :: t)
  | t => parseDigits b t

/-! ## Formatting -/

/-- The digits of `v` in base `b`, least significant first, by repeated `udivrem`, at most `n` of them
(43_radix.md R178; 128 suffice for `b ≥ 2`, 20_memory.md R55). -/
def digits (b : Word) : Nat → Word → List Byte
  | 0, _ => []
  | n + 1, v =>
    if v = 0 then []
    else
      let qr := udivrem v b
      digitChar qr.2.toNat :: digits b n qr.1

/-- `utext(v, B)` (43_radix.md R178). -/
def utext (v : Word) (b : Nat) : List Byte :=
  if v = 0 then [0x30] else (digits (BitVec.ofNat 128 b) 128 v).reverse

/-- `itext(v, B)`: `-` and the magnitude as UInt128 (43_radix.md R179). -/
def itext (v : Word) (b : Nat) : List Byte :=
  if isneg v then 0x2D :: utext (iabs v) b else utext v b

/-! ## Debug form -/

/-- `decimal(B)`: the base in base 10 without leading zeros (43_radix.md R183). -/
def decimal (b : Nat) : List Byte :=
  if b ≤ 9 then [digitChar b] else [digitChar (b / 10), digitChar (b % 10)]

/-- `UInt128("` in ASCII (43_radix.md R183). -/
def udebugHead : List Byte := [0x55, 0x49, 0x6E, 0x74, 0x31, 0x32, 0x38, 0x28, 0x22]

/-- `Int128("` in ASCII (43_radix.md R183). -/
def idebugHead : List Byte := [0x49, 0x6E, 0x74, 0x31, 0x32, 0x38, 0x28, 0x22]

/-- `",base:` in ASCII (43_radix.md R183). -/
def debugMiddle : List Byte := [0x22, 0x2C, 0x62, 0x61, 0x73, 0x65, 0x3A]

/-- `udebug(v, B)` (43_radix.md R183). -/
def udebug (v : Word) (b : Nat) : List Byte :=
  udebugHead ++ utext v b ++ debugMiddle ++ decimal b ++ [0x29]

/-- `idebug(v, B)` (43_radix.md R183). -/
def idebug (v : Word) (b : Nat) : List Byte :=
  idebugHead ++ itext v b ++ debugMiddle ++ decimal b ++ [0x29]

end Sys2Proof.Machine
end

