-- ==== Sys2Proof/Machine/Operands.lean ====
section
/-! DEFINITION. The shapes of a command's execution: which operands it reads, where its result goes, how it
completes. All sources are read before any destination is written (00_scope.md R10); all checks precede
all writes (60_exceptions.md R286). `op` is the command's opcode byte, which an error records. -/
namespace Sys2Proof.Machine

/-- `x[rd] <- v`, status `OK`. -/
def setReg (rd : Reg) (v : Word) (s : State) : Result := .next (s.writeReg rd v).done

/-- `x[rd] <- f(x[ra])` (formats `DA`, `DAI`). -/
def unary (rd ra : Reg) (f : Word → Word) (s : State) : Result := setReg rd (f (s.readReg ra)) s

/-- `x[rd] <- f(x[ra], x[rb])` (format `DAB`). -/
def binary (rd ra rb : Reg) (f : Word → Word → Word) (s : State) : Result :=
  setReg rd (f (s.readReg ra) (s.readReg rb)) s

/-- `x[rd] <- v` where the computation gave a value; the error where it raised one (60_exceptions.md R286). -/
def setRegOrError (op : BitVec 8) (rd : Reg) (v : Except ErrorCause Word) (s : State) : Result :=
  match v with
  | .ok v => setReg rd v s
  | .error c => .next (s.takeError op c)

/-- `x[rd] <- q ; x[re] <- r`, two different destinations (formats `DEA`, `DEAB`), or the error that the
computation raised. Naming one register twice is illegal (30_encoding.md R64) and is reported first
(60_exceptions.md R288); the decoder lets no such word through (log entry 12). -/
def setRegsOrError (op : BitVec 8) (rd re : Reg) (v : Except ErrorCause (Word × Word)) (s : State) : Result :=
  if rd = re then .next (s.takeError op .illegalCommand)
  else
    match v with
    | .ok (q, r) => .next ((s.writeReg rd q).writeReg re r).done
    | .error c => .next (s.takeError op c)

/-- `x[rd] <- parse(signed, base)` of the current string, the base checked first (43_radix.md R172 to R175). -/
def parseTo (op : BitVec 8) (signed : Bool) (rd : Reg) (base : Byte) (s : State) : Result :=
  if badBase base then .next (s.takeError op .invalidBase)
  else
    match parse signed base.toNat s.text with
    | .value v => setReg rd v s
    | .invalidDigit => .next (s.takeError op .invalidDigit)
    | .unwritten => .fault .unwrittenByte

/-- `emit(text(x[ra], base))`, the base checked first (43_radix.md R172, R177). -/
def formatFrom (op : BitVec 8) (text : Word → Nat → List Byte) (ra : Reg) (base : Byte) (s : State) : Result :=
  if badBase base then .next (s.takeError op .invalidBase)
  else .next (s.emit (text (s.readReg ra) base.toNat)).done

end Sys2Proof.Machine
end

