-- ==== Sys2Proof/Machine/Float128.lean ====
section
/-! DEFINITION. The Float128 commands (44_float128_format.md, 45_float128_arith.md). -/
namespace Sys2Proof.Machine

/-- `FCLASS rd, ra` (44_float128_format.md R209). -/
def execFclass (rd ra : Reg) (s : State) : Result := unary rd ra fclass s

/-- `FFROMD rd, ra`: the double is `x[ra][63:0]` (44_float128_format.md R210). -/
def execFfromd (rd ra : Reg) (s : State) : Result := unary rd ra (fun a => fromDouble (a.extractLsb' 0 64)) s

/-- `FTOD rd, ra`: the double zero-extended (44_float128_format.md R213). -/
def execFtod (rd ra : Reg) (s : State) : Result :=
  setRegOrError Op.ftod.code rd ((toDouble (s.readReg ra)).map (BitVec.setWidth 128)) s

/-- `FFREXP rd, re, ra`: mantissa to `rd`, exponent as an Int128 to `re` (44_float128_format.md R217). -/
def execFfrexp (rd re ra : Reg) (s : State) : Result :=
  setRegsOrError Op.ffrexp.code rd re (.ok (Prod.map id (BitVec.ofInt 128) (frexp (s.readReg ra)))) s

/-- `FLDEXP rd, ra, rb`: the exponent is `S(x[rb])` (44_float128_format.md R219). -/
def execFldexp (rd ra rb : Reg) (s : State) : Result :=
  setRegOrError Op.fldexp.code rd (ldexp (s.readReg ra) (s.readReg rb).toInt) s

/-- `FCMP rd, ra, rb` (44_float128_format.md R222). -/
def execFcmp (rd ra rb : Reg) (s : State) : Result := binary rd ra rb (fun l r => (fcmp l r).word) s

/-- `FMUL rd, ra, rb` (45_float128_arith.md R244). -/
def execFmul (rd ra rb : Reg) (s : State) : Result := binary rd ra rb fmul s

/-- `FADD rd, ra, rb` (45_float128_arith.md R249). -/
def execFadd (rd ra rb : Reg) (s : State) : Result := binary rd ra rb fadd s

/-- `FDIV rd, ra, rb` (45_float128_arith.md R252). -/
def execFdiv (rd ra rb : Reg) (s : State) : Result :=
  setRegOrError Op.fdiv.code rd (fdiv (s.readReg ra) (s.readReg rb)) s

/-- `FMOD rd, ra, rb` (45_float128_arith.md R255). -/
def execFmod (rd ra rb : Reg) (s : State) : Result :=
  setRegOrError Op.fmod.code rd (fmod (s.readReg ra) (s.readReg rb)) s

end Sys2Proof.Machine
end

