-- ==== Sys2Proof/Machine/HostData.lean ====
section
/-! DEFINITION. The host access, construction, narrowing and status commands (40_host_data.md). -/
namespace Sys2Proof.Machine

/-- `NOP` (40_host_data.md R90). -/
def execNop (s : State) : Result := .next s.done

/-- `LDP rd, dhi, dlo`: `x[rd] <- {dhi, dlo}` (40_host_data.md R91). -/
def execLdp (rd : Reg) (dhi dlo : DWord) (s : State) : Result := setReg rd (dhi ++ dlo) s

/-- `zext_128(dlo[w-1:0])` (40_host_data.md R92). -/
def zeroExtended (w : Width) (dlo : DWord) : Word := (dlo.setWidth w.bits).setWidth 128

/-- `sext_128(dlo[w-1:0])` (40_host_data.md R93). -/
def signExtended (w : Width) (dlo : DWord) : Word := (dlo.setWidth w.bits).signExtend 128

/-- `LDZ.w rd, dlo` (40_host_data.md R92). -/
def execLdz (rd : Reg) (w : Width) (dlo : DWord) (s : State) : Result := setReg rd (zeroExtended w dlo) s

/-- `LDS.w rd, dlo` (40_host_data.md R93). -/
def execLds (rd : Reg) (w : Width) (dlo : DWord) (s : State) : Result := setReg rd (signExtended w dlo) s

/-- `RD ra`: the high half in `rhi`, the low half in `rlo` (40_host_data.md R94). -/
def execRd (ra : Reg) (s : State) : Result :=
  .next (s.reply ((s.readReg ra).extractLsb' 64 64) ((s.readReg ra).extractLsb' 0 64))

/-- `MOV rd, ra` (40_host_data.md R95). -/
def execMov (rd ra : Reg) (s : State) : Result := unary rd ra id s

/-- `SBW imm, dlo`: `SB[imm] <- dlo[7:0]` (40_host_data.md R96). -/
def execSbw (imm : Byte) (dlo : DWord) (s : State) : Result :=
  .next (s.writeByte imm (dlo.extractLsb' 0 8)).done

/-- `SBR imm`: `rlo` is `SB[imm]` (40_host_data.md R97); a byte that nothing has written since reset has
no value (10_state.md R34, log entry 2). -/
def execSbr (imm : Byte) (s : State) : Result :=
  match s.readByte imm.toNat with
  | some b => .next (s.reply 0 (b.setWidth 64))
  | none => .fault .unwrittenByte

/-- `SLENW imm` (40_host_data.md R98). -/
def execSlenw (imm : Byte) (s : State) : Result := .next ({ s with slen := imm } : State).done

/-- `SLENR` (40_host_data.md R99). -/
def execSlenr (s : State) : Result := .next (s.reply 0 (s.slen.setWidth 64))

/-- `ESRR`: reading does not clear (40_host_data.md R101). -/
def execEsrr (s : State) : Result := .next (s.reply 0 (s.esr.setWidth 64))

/-- `ESRC` (40_host_data.md R102). -/
def execEsrc (s : State) : Result := .next ({ s with esr := 0 } : State).done

/-- The range check of `UNARROW.w` (40_host_data.md R103). -/
def unarrow (w : Width) (v : Word) : Except ErrorCause Word :=
  if 2 ^ w.bits ≤ v.toNat then .error .overflow else .ok v

/-- The range check of `INARROW.w` (40_host_data.md R104). -/
def inarrow (w : Width) (v : Word) : Except ErrorCause Word :=
  if v.toInt < -2 ^ (w.bits - 1) ∨ 2 ^ (w.bits - 1) - 1 < v.toInt then .error .overflow else .ok v

/-- `UNARROW.w rd, ra` (40_host_data.md R103). -/
def execUnarrow (rd ra : Reg) (w : Width) (s : State) : Result :=
  setRegOrError Op.unarrow.code rd (unarrow w (s.readReg ra)) s

/-- `INARROW.w rd, ra` (40_host_data.md R104). -/
def execInarrow (rd ra : Reg) (w : Width) (s : State) : Result :=
  setRegOrError Op.inarrow.code rd (inarrow w (s.readReg ra)) s

end Sys2Proof.Machine
end

