-- ==== Sys2Proof/Machine/Int128.lean ====
section
/-! DEFINITION. The commands of the signed wrapper (42_int128.md). -/
namespace Sys2Proof.Machine

/-- `INEG rd, ra` (42_int128.md R142). -/
def execIneg (rd ra : Reg) (s : State) : Result := unary rd ra ineg s

/-- `IABS rd, ra` (42_int128.md R144). -/
def execIabs (rd ra : Reg) (s : State) : Result := unary rd ra iabs s

/-- `IMUL rd, ra, rb` (42_int128.md R146). -/
def execImul (rd ra rb : Reg) (s : State) : Result := binary rd ra rb imul s

/-- Signed quotient and remainder, or `DivisionByZero`, or `Overflow` for `Int128.min` by -1, for quotient
and remainder alike (42_int128.md R148, R149, 90_conflicts.md C5). -/
def checkedSignedDivRem (b e : Word) : Except ErrorCause (Word × Word) :=
  if e = 0 then .error .divisionByZero
  else if b = int128Min ∧ e = BitVec.allOnes 128 then .error .overflow
  else .ok (idivrem b e)

/-- `IDIV rd, ra, rb` (42_int128.md R148). -/
def execIdiv (rd ra rb : Reg) (s : State) : Result :=
  setRegOrError Op.idiv.code rd ((checkedSignedDivRem (s.readReg ra) (s.readReg rb)).map Prod.fst) s

/-- `IREM rd, ra, rb` (42_int128.md R149). -/
def execIrem (rd ra rb : Reg) (s : State) : Result :=
  setRegOrError Op.irem.code rd ((checkedSignedDivRem (s.readReg ra) (s.readReg rb)).map Prod.snd) s

/-- `ISHR rd, ra, rb`: the amount is all of `x[rb]`, unsigned (42_int128.md R151, 41_uint128.md R125). -/
def execIshr (rd ra rb : Reg) (s : State) : Result := binary rd ra rb (fun a n => sar a n.toNat) s

/-- `ISHRI rd, ra, imm` (42_int128.md R152). -/
def execIshri (rd ra : Reg) (imm : Byte) (s : State) : Result := unary rd ra (fun a => sar a imm.toNat) s

/-- `ICMP rd, ra, rb` (42_int128.md R154). -/
def execIcmp (rd ra rb : Reg) (s : State) : Result := binary rd ra rb (fun a b => (icmp a b).word) s

end Sys2Proof.Machine
end

