-- ==== Sys2Proof/Machine/RadixCodec.lean ====
section
/-! DEFINITION. The commands of the radix string codec (43_radix.md). -/
namespace Sys2Proof.Machine

/-- `UPARSE rd, base` (43_radix.md R174). -/
def execUparse (rd : Reg) (base : Byte) (s : State) : Result := parseTo Op.uparse.code false rd base s

/-- `IPARSE rd, base` (43_radix.md R175). -/
def execIparse (rd : Reg) (base : Byte) (s : State) : Result := parseTo Op.iparse.code true rd base s

/-- `UFMT ra, base` (43_radix.md R180). -/
def execUfmt (ra : Reg) (base : Byte) (s : State) : Result := formatFrom Op.ufmt.code utext ra base s

/-- `IFMT ra, base` (43_radix.md R182). -/
def execIfmt (ra : Reg) (base : Byte) (s : State) : Result := formatFrom Op.ifmt.code itext ra base s

/-- `UDBG ra, base` (43_radix.md R185). -/
def execUdbg (ra : Reg) (base : Byte) (s : State) : Result := formatFrom Op.udebug.code udebug ra base s

/-- `IDBG ra, base` (43_radix.md R186). -/
def execIdbg (ra : Reg) (base : Byte) (s : State) : Result := formatFrom Op.idebug.code idebug ra base s

end Sys2Proof.Machine
end

