-- ==== Sys2Proof/Machine/UInt128.lean ====
section
/-! DEFINITION. The commands of the unsigned engine (41_uint128.md). -/
namespace Sys2Proof.Machine

/-- `UADD rd, ra, rb` (41_uint128.md R111). -/
def execUadd (rd ra rb : Reg) (s : State) : Result := binary rd ra rb uadd s

/-- `USUB rd, ra, rb`: minuend `ra` (41_uint128.md R113). -/
def execUsub (rd ra rb : Reg) (s : State) : Result := binary rd ra rb usub s

/-- `UMUL rd, ra, rb` (41_uint128.md R115). -/
def execUmul (rd ra rb : Reg) (s : State) : Result := binary rd ra rb umul s

/-- Quotient and remainder, or `DivisionByZero` (41_uint128.md R117 to R119). -/
def checkedDivRem (a b : Word) : Except ErrorCause (Word × Word) :=
  if b.toNat = 0 then .error .divisionByZero else .ok (udivrem a b)

/-- `UDIV rd, ra, rb` (41_uint128.md R117). -/
def execUdiv (rd ra rb : Reg) (s : State) : Result :=
  setRegOrError Op.udiv.code rd ((checkedDivRem (s.readReg ra) (s.readReg rb)).map Prod.fst) s

/-- `UREM rd, ra, rb` (41_uint128.md R118). -/
def execUrem (rd ra rb : Reg) (s : State) : Result :=
  setRegOrError Op.urem.code rd ((checkedDivRem (s.readReg ra) (s.readReg rb)).map Prod.snd) s

/-- `UDIVREM rd, re, ra, rb`: quotient to `rd`, remainder to `re` (41_uint128.md R119). -/
def execUdivrem (rd re ra rb : Reg) (s : State) : Result :=
  setRegsOrError Op.udivrem.code rd re (checkedDivRem (s.readReg ra) (s.readReg rb)) s

/-- `USHL rd, ra, rb`: the amount is all of `x[rb]`, unsigned (41_uint128.md R121, R125). -/
def execUshl (rd ra rb : Reg) (s : State) : Result := binary rd ra rb (fun a n => shl a n.toNat) s

/-- `USHR rd, ra, rb` (41_uint128.md R122, R125). -/
def execUshr (rd ra rb : Reg) (s : State) : Result := binary rd ra rb (fun a n => shr a n.toNat) s

/-- `USHLI rd, ra, imm` (41_uint128.md R123). -/
def execUshli (rd ra : Reg) (imm : Byte) (s : State) : Result := unary rd ra (fun a => shl a imm.toNat) s

/-- `USHRI rd, ra, imm` (41_uint128.md R124). -/
def execUshri (rd ra : Reg) (imm : Byte) (s : State) : Result := unary rd ra (fun a => shr a imm.toNat) s

/-- `AND rd, ra, rb` (41_uint128.md R130). -/
def execAnd (rd ra rb : Reg) (s : State) : Result := binary rd ra rb (fun a b => a &&& b) s

/-- `OR rd, ra, rb` (41_uint128.md R131). -/
def execOr (rd ra rb : Reg) (s : State) : Result := binary rd ra rb (fun a b => a ||| b) s

/-- `XOR rd, ra, rb` (41_uint128.md R132). -/
def execXor (rd ra rb : Reg) (s : State) : Result := binary rd ra rb (fun a b => a ^^^ b) s

/-- `NOT rd, ra` (41_uint128.md R133). -/
def execNot (rd ra : Reg) (s : State) : Result := unary rd ra (fun a => ~~~a) s

/-- `UCMP rd, ra, rb` (41_uint128.md R127). -/
def execUcmp (rd ra rb : Reg) (s : State) : Result := binary rd ra rb (fun a b => (ucmp a b).word) s

/-- `UMSB rd, ra` (41_uint128.md R129). -/
def execUmsb (rd ra : Reg) (s : State) : Result := unary rd ra (fun a => BitVec.ofNat 128 (msb a.toNat)) s

end Sys2Proof.Machine
end

