-- ==== Sys2Proof/Machine/Dispatch.lean ====
section
/-! DEFINITION. One arm per command, each one call of its meaning (30_encoding.md R65). -/
namespace Sys2Proof.Machine

/-- Executing a decoded command. -/
def exec (i : Instr) (s : State) : Host.Outcome State Fault Refusal :=
  match i with
  | .nop => Sys2Proof.Machine.execNop s
  | .ldp rd dhi dlo => Sys2Proof.Machine.execLdp rd dhi dlo s
  | .ldz rd w dlo => Sys2Proof.Machine.execLdz rd w dlo s
  | .lds rd w dlo => Sys2Proof.Machine.execLds rd w dlo s
  | .rd ra => Sys2Proof.Machine.execRd ra s
  | .mov rd ra => Sys2Proof.Machine.execMov rd ra s
  | .sbw imm dlo => Sys2Proof.Machine.execSbw imm dlo s
  | .sbr imm => Sys2Proof.Machine.execSbr imm s
  | .slenw imm => Sys2Proof.Machine.execSlenw imm s
  | .slenr => Sys2Proof.Machine.execSlenr s
  | .esrr => Sys2Proof.Machine.execEsrr s
  | .esrc => Sys2Proof.Machine.execEsrc s
  | .unarrow rd ra w => Sys2Proof.Machine.execUnarrow rd ra w s
  | .inarrow rd ra w => Sys2Proof.Machine.execInarrow rd ra w s
  | .uadd rd ra rb => Sys2Proof.Machine.execUadd rd ra rb s
  | .usub rd ra rb => Sys2Proof.Machine.execUsub rd ra rb s
  | .umul rd ra rb => Sys2Proof.Machine.execUmul rd ra rb s
  | .udiv rd ra rb => Sys2Proof.Machine.execUdiv rd ra rb s
  | .urem rd ra rb => Sys2Proof.Machine.execUrem rd ra rb s
  | .udivrem rd re ra rb => Sys2Proof.Machine.execUdivrem rd re ra rb s
  | .ushl rd ra rb => Sys2Proof.Machine.execUshl rd ra rb s
  | .ushr rd ra rb => Sys2Proof.Machine.execUshr rd ra rb s
  | .ushli rd ra imm => Sys2Proof.Machine.execUshli rd ra imm s
  | .ushri rd ra imm => Sys2Proof.Machine.execUshri rd ra imm s
  | .and rd ra rb => Sys2Proof.Machine.execAnd rd ra rb s
  | .or rd ra rb => Sys2Proof.Machine.execOr rd ra rb s
  | .xor rd ra rb => Sys2Proof.Machine.execXor rd ra rb s
  | .not rd ra => Sys2Proof.Machine.execNot rd ra s
  | .ucmp rd ra rb => Sys2Proof.Machine.execUcmp rd ra rb s
  | .umsb rd ra => Sys2Proof.Machine.execUmsb rd ra s
  | .ineg rd ra => Sys2Proof.Machine.execIneg rd ra s
  | .iabs rd ra => Sys2Proof.Machine.execIabs rd ra s
  | .imul rd ra rb => Sys2Proof.Machine.execImul rd ra rb s
  | .idiv rd ra rb => Sys2Proof.Machine.execIdiv rd ra rb s
  | .irem rd ra rb => Sys2Proof.Machine.execIrem rd ra rb s
  | .ishr rd ra rb => Sys2Proof.Machine.execIshr rd ra rb s
  | .ishri rd ra imm => Sys2Proof.Machine.execIshri rd ra imm s
  | .icmp rd ra rb => Sys2Proof.Machine.execIcmp rd ra rb s
  | .uparse rd base => Sys2Proof.Machine.execUparse rd base s
  | .iparse rd base => Sys2Proof.Machine.execIparse rd base s
  | .ufmt ra base => Sys2Proof.Machine.execUfmt ra base s
  | .ifmt ra base => Sys2Proof.Machine.execIfmt ra base s
  | .udebug ra base => Sys2Proof.Machine.execUdbg ra base s
  | .idebug ra base => Sys2Proof.Machine.execIdbg ra base s
  | .fclass rd ra => Sys2Proof.Machine.execFclass rd ra s
  | .ffromd rd ra => Sys2Proof.Machine.execFfromd rd ra s
  | .ftod rd ra => Sys2Proof.Machine.execFtod rd ra s
  | .ffrexp rd re ra => Sys2Proof.Machine.execFfrexp rd re ra s
  | .fldexp rd ra rb => Sys2Proof.Machine.execFldexp rd ra rb s
  | .fcmp rd ra rb => Sys2Proof.Machine.execFcmp rd ra rb s
  | .fmul rd ra rb => Sys2Proof.Machine.execFmul rd ra rb s
  | .fadd rd ra rb => Sys2Proof.Machine.execFadd rd ra rb s
  | .fdiv rd ra rb => Sys2Proof.Machine.execFdiv rd ra rb s
  | .fmod rd ra rb => Sys2Proof.Machine.execFmod rd ra rb s

end Sys2Proof.Machine
end

