-- ==== Sys2Proof/Machine/Packets.lean ====
section
/-! DEFINITION. Executing an accepted packet. -/
namespace Sys2Proof.Machine

/-- The packet decoded and its command executed; a word that does not decode raises `IllegalCommand`,
recording its top byte (30_encoding.md R68, 60_exceptions.md R285). -/
def executePacket (p : Packet) (s : State) : Result :=
  match decode p with
  | .ok i => exec i s
  | .error _ => .next (s.takeError (p.cw.extractLsb' 24 8) .illegalCommand)

end Sys2Proof.Machine
end

