-- ==== Sys2Proof/Machine/Step.lean ====
section
/-! DEFINITION. One step: the unit takes the host's next event and executes it (00_scope.md R5, 20_memory.md R48). -/
namespace Sys2Proof.Machine

/-- One step. With no event presented the unit holds its state unchanged (60_exceptions.md R302, log entry 4).
Reset gives the state after reset, with the events still to come and the responses already produced
kept (70_reset_and_hazards.md R310, log entry 7). A packet is taken and executed. -/
def step (s : State) : Host.Outcome State Fault Refusal :=
  match s.hostInput with
  | [] => .next s
  | .reset :: rest => .next (s.resetUnit rest)
  | .packet p :: rest => executePacket p { s with hostInput := rest }

/-- `s` with the packet of the low `nbits` bits of `w`, every further bit 0, presented as the host's next
event (log entry 5). -/
def State.withFetchWord (s : State) (nbits w : Nat) : State :=
  { s with hostInput := .packet (Packet.ofBits (w % 2 ^ nbits)) :: s.hostInput }

end Sys2Proof.Machine
end

