-- ==== Sys2Proof/Machine/Assembler.lean ====
section
/-! DEFINITION. The host's side: mnemonics, the assembler's defaults, the pseudo-instructions and a program as
a list of packets (30_encoding.md R71, R72, 00_scope.md R6). The text syntax of R71 is not modelled (log entry 11). -/
namespace Sys2Proof.Machine

/-- The name of a row of the opcode map (30_encoding.md R65). -/
def mnemonic : Op → String
  | .nop => "NOP" | .ldp => "LDP" | .ldz => "LDZ.w" | .lds => "LDS.w" | .rd => "RD" | .mov => "MOV"
  | .sbw => "SBW" | .sbr => "SBR" | .slenw => "SLENW" | .slenr => "SLENR" | .esrr => "ESRR"
  | .esrc => "ESRC" | .unarrow => "UNARROW.w" | .inarrow => "INARROW.w" | .uadd => "UADD"
  | .usub => "USUB" | .umul => "UMUL" | .udiv => "UDIV" | .urem => "UREM" | .udivrem => "UDIVREM"
  | .ushl => "USHL" | .ushr => "USHR" | .ushli => "USHLI" | .ushri => "USHRI" | .and => "AND"
  | .or => "OR" | .xor => "XOR" | .not => "NOT" | .ucmp => "UCMP" | .umsb => "UMSB" | .ineg => "INEG"
  | .iabs => "IABS" | .imul => "IMUL" | .idiv => "IDIV" | .irem => "IREM" | .ishr => "ISHR"
  | .ishri => "ISHRI" | .icmp => "ICMP" | .uparse => "UPARSE" | .iparse => "IPARSE" | .ufmt => "UFMT"
  | .ifmt => "IFMT" | .udebug => "UDBG" | .idebug => "IDBG" | .fclass => "FCLASS" | .ffromd => "FFROMD"
  | .ftod => "FTOD" | .ffrexp => "FFREXP" | .fldexp => "FLDEXP" | .fcmp => "FCMP" | .fmul => "FMUL"
  | .fadd => "FADD" | .fdiv => "FDIV" | .fmod => "FMOD"

/-- The base the assembler supplies where the operand is omitted: 10 for parse and format, 16 for the
debug forms (30_encoding.md R71); other commands have no base. -/
def defaultBase : Op → Option Byte
  | .uparse | .iparse | .ufmt | .ifmt => some 10
  | .udebug | .idebug => some 16
  | _ => none

/-- The `dlo` of `LDS.w` for a number: a negative one in two's complement of the stated width, another as it is
(30_encoding.md R71). One that does not fit is cut, DESIGN CHOICE, safe (log entry 15). -/
def signedData (w : Width) (n : Int) : DWord :=
  if n < 0 then (BitVec.ofInt w.bits n).setWidth 64 else BitVec.ofInt 64 n

/-- The pseudo-instructions (30_encoding.md R72). -/
inductive Pseudo where
  | iadd (rd ra rb : Reg)
  | isub (rd ra rb : Reg)
  | ishl (rd ra rb : Reg)
  | ishli (rd ra : Reg) (imm : Byte)
  | icast (rd ra : Reg)
  | ucast (rd ra : Reg)
  /-- load a signed constant, `-2^63 ≤ n < 2^63` in R72 (log entry 15 outside) -/
  | ldi (rd : Reg) (n : Int)
  /-- place a text in the string buffer, at most 255 characters in R72 (log entry 15 beyond) -/
  | sstr (text : List Byte)
  deriving DecidableEq, Repr

/-- `SBW k, c` for each character from address `k` on. -/
def storeText (k : Nat) : List Byte → List Instr
  | [] => []
  | c :: t => .sbw (BitVec.ofNat 8 k) (c.setWidth 64) :: storeText (k + 1) t

/-- The commands a pseudo-instruction expands to (30_encoding.md R72). R72 gives `LDI` for `-2^63 ≤ n < 2^63` and
`SSTR` for at most 255 characters. That outside these ranges the constant is cut to its low 64 bits, and the
addresses and the length are taken modulo 256, is the model's choice, DESIGN CHOICE, safe (log entry 15). -/
def expand : Pseudo → List Instr
  | .iadd rd ra rb => [.uadd rd ra rb]
  | .isub rd ra rb => [.usub rd ra rb]
  | .ishl rd ra rb => [.ushl rd ra rb]
  | .ishli rd ra imm => [.ushli rd ra imm]
  | .icast rd ra => [.mov rd ra]
  | .ucast rd ra => [.mov rd ra]
  | .ldi rd n => [.lds rd .w64 (signedData .w64 n)]
  | .sstr t => storeText 0 t ++ [.slenw (BitVec.ofNat 8 t.length)]

/-- The host presenting a program: its packets after the events already presented (00_scope.md R6). -/
def present (program : List Instr) (s : State) : State :=
  { s with hostInput := s.hostInput ++ program.map fun i => .packet (encode i) }

/-- Executing commands one after another, each from the state the one before left (20_memory.md R48); an
error ends its command only (00_scope.md R6). -/
def execAll : List Instr → State → Result
  | [], s => .next s
  | i :: is, s =>
    match exec i s with
    | .next t => execAll is t
    | .fault f => .fault f
    | .refused r => .refused r

end Sys2Proof.Machine
end

