-- ==== Sys2Proof/Safety.lean ====
section
/-! DEFINITION. The terms in which claims about GM128 are stated: what a command leaves, seen through the
machine's reads; the legal states; the value of a Float128 pattern. -/
namespace Sys2Proof.Machine

/-! ## Words and the commands they select -/

/-- The command word with given fields, by the places of 30_encoding.md R61. -/
def commandWord (op : Nat) (rd ra rb re : Reg) (imm : Byte) : BitVec 32 :=
  BitVec.ofNat 32 (op * 2 ^ 24 + rd * 2 ^ 20 + ra * 2 ^ 16 + rb * 2 ^ 12 + re * 2 ^ 8 + imm.toNat)

/-- The word selects the command, whatever the data words (30_encoding.md R60, R68). -/
def Selects (cw : BitVec 32) (i : Instr) : Prop :=
  ∀ dhi dlo, decode ⟨cw, dhi, dlo⟩ = .ok i

/-! ## What a completed command leaves -/

/-- `t` is `s` but for one more response `r`. -/
def OnlyResponds (s t : State) (r : Response) : Prop :=
  (∀ k, t.readReg k = s.readReg k) ∧ (∀ a, t.readByte a = s.readByte a) ∧ t.slen = s.slen ∧
    t.esr = s.esr ∧ t.hostInput = s.hostInput ∧ t.responses = s.responses ++ [r]

/-- Status `OK` with zero data (30_encoding.md R62). -/
def okResponse : Response := ⟨.ok, 0, 0⟩

/-- `t` is `s` but for `x[rd] = v` and a response `OK`: every other register, every byte, `SLEN`, `ESR` and
the packets to come are unchanged. -/
def WritesReg (s t : State) (rd : Reg) (v : Word) : Prop :=
  (∀ k, t.readReg k = if k = rd then v else s.readReg k) ∧ (∀ a, t.readByte a = s.readByte a) ∧
    t.slen = s.slen ∧ t.esr = s.esr ∧ t.hostInput = s.hostInput ∧
    t.responses = s.responses ++ [okResponse]

/-- `t` is `s` but for `x[rd] = q`, `x[re] = r` and a response `OK`. -/
def WritesTwoRegs (s t : State) (rd re : Reg) (q r : Word) : Prop :=
  (∀ k, t.readReg k = if k = rd then q else if k = re then r else s.readReg k) ∧
    (∀ a, t.readByte a = s.readByte a) ∧ t.slen = s.slen ∧ t.esr = s.esr ∧
    t.hostInput = s.hostInput ∧ t.responses = s.responses ++ [okResponse]

/-- `t` is `s` but for `SB[0 … n-1]` and `SLEN` holding the text, and a response `OK`: no register and no
byte at or above `n` changes (43_radix.md R177). -/
def WritesText (s t : State) (text : List Byte) : Prop :=
  (∀ k, t.readReg k = s.readReg k) ∧
    (∀ a, t.readByte a = if a < text.length then text[a]? else s.readByte a) ∧
    t.slen.toNat = text.length ∧ t.esr = s.esr ∧ t.hostInput = s.hostInput ∧
    t.responses = s.responses ++ [okResponse]

/-- `t` is `s` but for byte `a` of the string buffer holding `b` and a response `OK`. -/
def WritesByte (s t : State) (a : Nat) (b : Byte) : Prop :=
  (∀ k, t.readReg k = s.readReg k) ∧ (∀ k, t.readByte k = if k = a then some b else s.readByte k) ∧
    t.slen = s.slen ∧ t.esr = s.esr ∧ t.hostInput = s.hostInput ∧
    t.responses = s.responses ++ [okResponse]

/-- `t` is `s` after error `c` of a command with opcode byte `op` (60_exceptions.md R286). -/
def TakesError (s t : State) (op : BitVec 8) (c : ErrorCause) : Prop :=
  (∀ k, t.readReg k = s.readReg k) ∧ (∀ a, t.readByte a = s.readByte a) ∧ t.slen = s.slen ∧
    t.esr.extractLsb' 8 8 = op ∧ t.esr.extractLsb' 4 4 = 0 ∧ t.esr.extractLsb' 0 4 = c.code ∧
    t.hostInput = s.hostInput ∧ t.responses = s.responses ++ [⟨.error c, 0, 0⟩]

/-- Command `i` completes in `s` with one register written. -/
def Writes (i : Instr) (s : State) (rd : Reg) (v : Word) : Prop :=
  ∃ t, exec i s = .next t ∧ WritesReg s t rd v

/-- Command `i` completes in `s` with two registers written. -/
def WritesTwo (i : Instr) (s : State) (rd re : Reg) (q r : Word) : Prop :=
  ∃ t, exec i s = .next t ∧ WritesTwoRegs s t rd re q r

/-- Command `i` ends in error `c` in `s`, recording the opcode byte `op`. -/
def Errs (i : Instr) (s : State) (op : BitVec 8) (c : ErrorCause) : Prop :=
  ∃ t, exec i s = .next t ∧ TakesError s t op c

/-- Command `i` completes in `s` with a text written. -/
def Emits (i : Instr) (s : State) (text : List Byte) : Prop :=
  ∃ t, exec i s = .next t ∧ WritesText s t text

/-- Command `i` completes in `s` with nothing but a response. -/
def Answers (i : Instr) (s : State) (hi lo : DWord) : Prop :=
  ∃ t, exec i s = .next t ∧ OnlyResponds s t ⟨.ok, hi, lo⟩

/-! ## Legal states -/

/-- `ESR` as 10_state.md R26 says it can be: bits 7:4 are 0, `CAUSE` is 0 to 5, and all is 0 when no
error is recorded. -/
abbrev LegalErrorStatus (esr : BitVec 16) : Prop :=
  esr.extractLsb' 4 4 = 0 ∧ (esr.extractLsb' 0 4).toNat ≤ 5 ∧ (esr.extractLsb' 0 4 = 0 → esr = 0)

/-- The invariant of the machine: the string buffer in canonical form within its 256 addresses, `ESR`
legal, and zero data in every error response (20_memory.md R40, 10_state.md R26, 30_encoding.md R62). -/
def Inv (s : State) : Prop :=
  Memory.wf s.sb ∧ LegalErrorStatus s.esr ∧
    ∀ r ∈ s.responses, r.status ≠ .ok → r.rhi = 0 ∧ r.rlo = 0

/-! ## Texts -/

/-- The current string is the text `t`, every byte of it written. -/
abbrev HoldsText (s : State) (t : List Byte) : Prop := s.text = t.map some

/-- `t` is a number text of the grammar of 43_radix.md R170 in base `b`, with digit values `ds` and a
leading `-` iff `neg`; a `-` is in the grammar only when `signed`. -/
def IsNumber (signed : Bool) (b : Nat) (t : List Byte) (neg : Bool) (ds : List Nat) : Prop :=
  ∃ body, ((neg = false ∧ (t = body ∨ t = 0x2B :: body)) ∨ (signed = true ∧ neg = true ∧ t = 0x2D :: body)) ∧
    ds ≠ [] ∧ body.map digitValue = ds.map some ∧ ∀ d ∈ ds, d < b

/-- Is the base in `[2, 36]` (43_radix.md R172)? -/
abbrev LegalBase (base : Byte) : Prop := 2 ≤ base.toNat ∧ base.toNat ≤ 36

/-- The value of digits, most significant first: the sum of `digit_k * b^(m-1-k)` (43_radix.md R173). -/
def positional (b : Nat) : List Nat → Nat
  | [] => 0
  | d :: ds => d * b ^ ds.length + positional b ds

/-- `ds` are the digits of `n` in base `b`, without leading zeros; `0` has the one digit 0 (43_radix.md R178). -/
def IsDigitsOf (b n : Nat) (ds : List Nat) : Prop :=
  ds ≠ [] ∧ (∀ d ∈ ds, d < b) ∧ (ds.head? = some 0 → ds = [0]) ∧
    positional b ds = n

/-! ## Values -/

/-- `(-1)^s` -/
def signFactor (s : Bool) : ℚ := if s then -1 else 1

/-- `val(v)` of a Normal pattern (44_float128_format.md R204). -/
def fval (v : Word) : ℚ := signFactor (fsign v) * signif v * (2 : ℚ) ^ ((fexp v : ℤ) - 16383 - 112)

/-- The value of a finite double: exponent field 0 is zero or subnormal (10_state.md R29). -/
def dval (d : DWord) : ℚ :=
  if dexp d = 0 then signFactor (dsign d) * (dfrac d).toNat * (2 : ℚ) ^ (-1074 : ℤ)
  else signFactor (dsign d) * (2 ^ 52 + (dfrac d).toNat) * (2 : ℚ) ^ ((dexp d : ℤ) - 1023 - 52)

/-- `v` is what packing the sign `neg`, the biased exponent `e` and the significand `m`, `2^112 ≤ m < 2^113`,
gives: infinity above the exponent range, zero below it (44_float128_format.md R205). -/
def IsPacked (neg : Bool) (e : Int) (m : Nat) (v : Word) : Prop :=
  fsign v = neg ∧ (32767 ≤ e → fexp v = 32767 ∧ ffrac v = 0) ∧ (e ≤ 0 → fexp v = 0 ∧ ffrac v = 0) ∧
    (0 < e → e < 32767 → (fexp v : Int) = e ∧ 2 ^ 112 + (ffrac v).toNat = m)

/-- The sign and magnitude of a pattern as one integer: the order of non-NaN patterns. -/
def orderKey (v : Word) : Int := if fsign v then -(fmag v : Int) else fmag v

/-- Is the pattern Normal (44_float128_format.md R203)? -/
def isNormal (v : Word) : Bool := ftag v = .normal

end Sys2Proof.Machine
end

