-- ==== Sys2Proof/Certificates/Slice0/Obligations.lean ====
section
/-! DEFINITION. The statements for the provers, family by family. `Selects` says which command word a
statement is about; `Writes`, `Errs`, `Emits` and `Answers` say that the command completes and what the
whole state is afterwards, so each carries its frame. -/
open Sys2Proof Sys2Proof.Machine

/-! ## Host and data movement -/

/-- 40_host_data.md R90. -/
def Obligations.NopOnlyResponds : Prop :=
  ∀ s : State, Selects 0x00000000 .nop ∧ Answers .nop s 0 0

/-- 40_host_data.md R91. -/
def Obligations.LoadPairWritesBothHalves : Prop :=
  ∀ (d : Reg) (dhi dlo : DWord) (s : State),
    decode ⟨commandWord 0x01 d 0 0 0 0, dhi, dlo⟩ = .ok (.ldp d dhi dlo) ∧
    ∃ v : Word, v.extractLsb' 64 64 = dhi ∧ v.extractLsb' 0 64 = dlo ∧ Writes (.ldp d dhi dlo) s d v

/-- 40_host_data.md R92, R93: `LDZ.w` fills with 0, `LDS.w` with bit `w-1`. -/
def Obligations.NarrowLoadsExtend : Prop :=
  ∀ (d : Reg) (w : Width) (dhi dlo : DWord) (s : State),
    w.bits = 8 * 2 ^ w.code.toNat ∧
    decode ⟨commandWord 0x02 d 0 0 0 (w.code.setWidth 8), dhi, dlo⟩ = .ok (.ldz d w dlo) ∧
    decode ⟨commandWord 0x03 d 0 0 0 (w.code.setWidth 8), dhi, dlo⟩ = .ok (.lds d w dlo) ∧
    Writes (.ldz d w dlo) s d (BitVec.ofNat 128 (dlo.toNat % 2 ^ w.bits)) ∧
    ∃ v : Word, (∀ k < 128, v.getLsbD k = dlo.getLsbD (if k < w.bits then k else w.bits - 1)) ∧
      Writes (.lds d w dlo) s d v

/-- 40_host_data.md R94, R95. -/
def Obligations.ReadBackAndCopyRegister : Prop :=
  ∀ (d a : Reg) (s : State),
    Selects (commandWord 0x04 0 a 0 0 0) (.rd a) ∧ Selects (commandWord 0x05 d a 0 0 0) (.mov d a) ∧
    (∃ hi lo : DWord, hi ++ lo = s.readReg a ∧ Answers (.rd a) s hi lo) ∧
    Writes (.mov d a) s d (s.readReg a)

/-- 40_host_data.md R96, R97. `SBR` is stated for a byte that something has written since reset: on any other
the model stops (its choice, log entry 2). -/
def Obligations.StringBufferBytes : Prop :=
  ∀ (imm : Byte) (dhi dlo : DWord) (s : State),
    decode ⟨commandWord 0x06 0 0 0 0 imm, dhi, dlo⟩ = .ok (.sbw imm dlo) ∧
    Selects (commandWord 0x07 0 0 0 0 imm) (.sbr imm) ∧
    (∃ t, exec (.sbw imm dlo) s = .next t ∧ WritesByte s t imm.toNat (dlo.setWidth 8)) ∧
    ∀ b, s.readByte imm.toNat = some b → Answers (.sbr imm) s 0 (b.setWidth 64)

/-- 40_host_data.md R98, R99, R101, R102. -/
def Obligations.LengthAndErrorStatusCommands : Prop :=
  ∀ (imm : Byte) (s : State),
    Selects (commandWord 0x08 0 0 0 0 imm) (.slenw imm) ∧ Selects 0x09000000 .slenr ∧
    Selects 0x0A000000 .esrr ∧ Selects 0x0B000000 .esrc ∧
    (∃ t, exec (.slenw imm) s = .next t ∧ t.slen = imm ∧ (∀ k, t.readReg k = s.readReg k) ∧
      (∀ a, t.readByte a = s.readByte a) ∧ t.esr = s.esr ∧ t.hostInput = s.hostInput ∧
      t.responses = s.responses ++ [okResponse]) ∧
    Answers .slenr s 0 (s.slen.setWidth 64) ∧
    Answers .esrr s 0 (s.esr.setWidth 64) ∧
    ∃ t, exec .esrc s = .next t ∧ t.esr = 0 ∧ (∀ k, t.readReg k = s.readReg k) ∧
      (∀ a, t.readByte a = s.readByte a) ∧ t.slen = s.slen ∧ t.hostInput = s.hostInput ∧
      t.responses = s.responses ++ [okResponse]

/-- 40_host_data.md R103, R104: each copies a value that fits and raises `Overflow` for one that does not;
for the signed form fitting is that bits 127 down to `w-1` are all equal. -/
def Obligations.NarrowingChecks : Prop :=
  ∀ (d a : Reg) (w : Width) (s : State),
    Selects (commandWord 0x0C d a 0 0 (w.code.setWidth 8)) (.unarrow d a w) ∧
    Selects (commandWord 0x0D d a 0 0 (w.code.setWidth 8)) (.inarrow d a w) ∧
    (if 2 ^ w.bits ≤ (s.readReg a).toNat then Errs (.unarrow d a w) s 0x0C .overflow
      else Writes (.unarrow d a w) s d (s.readReg a)) ∧
    (if (s.readReg a).toInt < -2 ^ (w.bits - 1) ∨ 2 ^ (w.bits - 1) - 1 < (s.readReg a).toInt
      then Errs (.inarrow d a w) s 0x0D .overflow else Writes (.inarrow d a w) s d (s.readReg a)) ∧
    ((∀ k, w.bits - 1 ≤ k → k < 128 → (s.readReg a).getLsbD k = (s.readReg a).getLsbD 127) ↔
      Writes (.inarrow d a w) s d (s.readReg a))

/-! ## UInt128 -/

/-- 41_uint128.md R110 to R113. -/
def Obligations.UnsignedAddSubtractAreModular : Prop :=
  ∀ (d a b : Reg) (s : State),
    Selects (commandWord 0x10 d a b 0 0) (.uadd d a b) ∧ Selects (commandWord 0x11 d a b 0 0) (.usub d a b) ∧
    Writes (.uadd d a b) s d (BitVec.ofNat 128 ((s.readReg a).toNat + (s.readReg b).toNat)) ∧
    Writes (.usub d a b) s d (BitVec.ofInt 128 ((s.readReg a).toNat - (s.readReg b).toNat))

/-- 41_uint128.md R114, R115. -/
def Obligations.UnsignedMultiplyIsModular : Prop :=
  ∀ (d a b : Reg) (s : State), Selects (commandWord 0x12 d a b 0 0) (.umul d a b) ∧
    Writes (.umul d a b) s d (BitVec.ofNat 128 ((s.readReg a).toNat * (s.readReg b).toNat))

/-- 41_uint128.md R116 to R118. -/
def Obligations.UnsignedDivideAndRemainder : Prop :=
  ∀ (d a b : Reg) (s : State),
    Selects (commandWord 0x13 d a b 0 0) (.udiv d a b) ∧ Selects (commandWord 0x14 d a b 0 0) (.urem d a b) ∧
    (if (s.readReg b).toNat = 0 then
      Errs (.udiv d a b) s 0x13 .divisionByZero ∧ Errs (.urem d a b) s 0x14 .divisionByZero
    else
      Writes (.udiv d a b) s d (BitVec.ofNat 128 ((s.readReg a).toNat / (s.readReg b).toNat)) ∧
      Writes (.urem d a b) s d (BitVec.ofNat 128 ((s.readReg a).toNat % (s.readReg b).toNat)))

/-- 41_uint128.md R119, with two different destinations; one destination named twice is no command. -/
def Obligations.UnsignedDivideBothResults : Prop :=
  ∀ (d e a b : Reg) (s : State),
    (∀ dhi dlo, decode ⟨commandWord 0x15 d a b d 0, dhi, dlo⟩ = .error .equalDestinations) ∧
    (d ≠ e → Selects (commandWord 0x15 d a b e 0) (.udivrem d e a b) ∧
      if (s.readReg b).toNat = 0 then Errs (.udivrem d e a b) s 0x15 .divisionByZero
      else WritesTwo (.udivrem d e a b) s d e
        (BitVec.ofNat 128 ((s.readReg a).toNat / (s.readReg b).toNat))
        (BitVec.ofNat 128 ((s.readReg a).toNat % (s.readReg b).toNat)))

/-- 41_uint128.md R120 to R125: the amount is the whole register, or the immediate. -/
def Obligations.LogicalShifts : Prop :=
  ∀ (d a b : Reg) (imm : Byte) (s : State),
    Selects (commandWord 0x16 d a b 0 0) (.ushl d a b) ∧ Selects (commandWord 0x17 d a b 0 0) (.ushr d a b) ∧
    Selects (commandWord 0x18 d a 0 0 imm) (.ushli d a imm) ∧
    Selects (commandWord 0x19 d a 0 0 imm) (.ushri d a imm) ∧
    (let n := (s.readReg b).toNat
     (n ≤ 127 → Writes (.ushl d a b) s d (BitVec.ofNat 128 ((s.readReg a).toNat * 2 ^ n)) ∧
        Writes (.ushr d a b) s d (BitVec.ofNat 128 ((s.readReg a).toNat / 2 ^ n))) ∧
      (128 ≤ n → Writes (.ushl d a b) s d 0 ∧ Writes (.ushr d a b) s d 0)) ∧
    (imm.toNat ≤ 127 →
      Writes (.ushli d a imm) s d (BitVec.ofNat 128 ((s.readReg a).toNat * 2 ^ imm.toNat)) ∧
      Writes (.ushri d a imm) s d (BitVec.ofNat 128 ((s.readReg a).toNat / 2 ^ imm.toNat))) ∧
    (128 ≤ imm.toNat → Writes (.ushli d a imm) s d 0 ∧ Writes (.ushri d a imm) s d 0)

/-- 41_uint128.md R130 to R133. -/
def Obligations.BitwiseCommands : Prop :=
  ∀ (d a b : Reg) (s : State),
    Selects (commandWord 0x1A d a b 0 0) (.and d a b) ∧ Selects (commandWord 0x1B d a b 0 0) (.or d a b) ∧
    Selects (commandWord 0x1C d a b 0 0) (.xor d a b) ∧ Selects (commandWord 0x1D d a 0 0 0) (.not d a) ∧
    ∃ vand vor vxor vnot : Word,
      (∀ k < 128, vand.getLsbD k = ((s.readReg a).getLsbD k && (s.readReg b).getLsbD k) ∧
        vor.getLsbD k = ((s.readReg a).getLsbD k || (s.readReg b).getLsbD k) ∧
        vxor.getLsbD k = ((s.readReg a).getLsbD k ^^ (s.readReg b).getLsbD k) ∧
        vnot.getLsbD k = !(s.readReg a).getLsbD k) ∧
      Writes (.and d a b) s d vand ∧ Writes (.or d a b) s d vor ∧ Writes (.xor d a b) s d vxor ∧
      Writes (.not d a) s d vnot

/-- 41_uint128.md R128, R129. -/
def Obligations.HighestSetBitIndex : Prop :=
  ∀ (d a : Reg) (s : State), Selects (commandWord 0x1F d a 0 0 0) (.umsb d a) ∧
    ∃ n ≤ 128, (s.readReg a = 0 → n = 0) ∧
      (s.readReg a ≠ 0 → 2 ^ (n - 1) ≤ (s.readReg a).toNat ∧ (s.readReg a).toNat < 2 ^ n) ∧
      Writes (.umsb d a) s d (BitVec.ofNat 128 n)

/-! ## Int128 -/

/-- 42_int128.md R141 to R144: negation modulo `2^128`, and the true magnitude as an unsigned value. -/
def Obligations.NegateAndMagnitude : Prop :=
  ∀ (d a : Reg) (s : State),
    Selects (commandWord 0x20 d a 0 0 0) (.ineg d a) ∧ Selects (commandWord 0x21 d a 0 0 0) (.iabs d a) ∧
    Writes (.ineg d a) s d (BitVec.ofInt 128 (-(s.readReg a).toInt)) ∧
    ∃ v : Word, v.toNat = (s.readReg a).toInt.natAbs ∧ Writes (.iabs d a) s d v

/-- 42_int128.md R145, R146: the low 128 bits of the exact signed product, which the spec infers from its
algorithm over signs and magnitudes. -/
def Obligations.SignedMultiplyIsModular : Prop :=
  ∀ (d a b : Reg) (s : State), Selects (commandWord 0x22 d a b 0 0) (.imul d a b) ∧
    Writes (.imul d a b) s d (BitVec.ofInt 128 ((s.readReg a).toInt * (s.readReg b).toInt))

/-- 42_int128.md R147, R148. -/
def Obligations.SignedDivideTruncates : Prop :=
  ∀ (d a b : Reg) (s : State), Selects (commandWord 0x23 d a b 0 0) (.idiv d a b) ∧
    if (s.readReg b).toInt = 0 then Errs (.idiv d a b) s 0x23 .divisionByZero
    else if (s.readReg a).toInt = -2 ^ 127 ∧ (s.readReg b).toInt = -1 then Errs (.idiv d a b) s 0x23 .overflow
    else ∃ v : Word, v.toInt = (s.readReg a).toInt.tdiv (s.readReg b).toInt ∧ Writes (.idiv d a b) s d v

/-- 42_int128.md R147, R149, 90_conflicts.md C5. -/
def Obligations.SignedRemainderTakesDividendSign : Prop :=
  ∀ (d a b : Reg) (s : State), Selects (commandWord 0x24 d a b 0 0) (.irem d a b) ∧
    if (s.readReg b).toInt = 0 then Errs (.irem d a b) s 0x24 .divisionByZero
    else if (s.readReg a).toInt = -2 ^ 127 ∧ (s.readReg b).toInt = -1 then Errs (.irem d a b) s 0x24 .overflow
    else ∃ v : Word, v.toInt.natAbs = (s.readReg a).toInt.natAbs % (s.readReg b).toInt.natAbs ∧
      (v.toInt = 0 ∨ (v.toInt < 0 ↔ (s.readReg a).toInt < 0)) ∧ Writes (.irem d a b) s d v

/-- 42_int128.md R150 to R152. -/
def Obligations.ArithmeticShiftFloors : Prop :=
  ∀ (d a b : Reg) (imm : Byte) (s : State),
    Selects (commandWord 0x25 d a b 0 0) (.ishr d a b) ∧
    Selects (commandWord 0x26 d a 0 0 imm) (.ishri d a imm) ∧
    (let n := (s.readReg b).toNat
     (n ≤ 127 → Writes (.ishr d a b) s d (BitVec.ofInt 128 (⌊((s.readReg a).toInt : ℚ) / 2 ^ n⌋))) ∧
      (128 ≤ n → Writes (.ishr d a b) s d (if (s.readReg a).toInt < 0 then BitVec.ofInt 128 (-1) else 0))) ∧
    (imm.toNat ≤ 127 →
      Writes (.ishri d a imm) s d (BitVec.ofInt 128 (⌊((s.readReg a).toInt : ℚ) / 2 ^ imm.toNat⌋))) ∧
    (128 ≤ imm.toNat →
      Writes (.ishri d a imm) s d (if (s.readReg a).toInt < 0 then BitVec.ofInt 128 (-1) else 0))

/-- 41_uint128.md R126, R127, 42_int128.md R153, R154. -/
def Obligations.IntegerComparesOrderValues : Prop :=
  ∀ (d a b : Reg) (s : State),
    Selects (commandWord 0x1E d a b 0 0) (.ucmp d a b) ∧ Selects (commandWord 0x27 d a b 0 0) (.icmp d a b) ∧
    Writes (.ucmp d a b) s d
      (if (s.readReg a).toNat < (s.readReg b).toNat then 1 else if s.readReg a = s.readReg b then 0 else 2) ∧
    Writes (.icmp d a b) s d
      (if (s.readReg a).toInt < (s.readReg b).toInt then 1 else if s.readReg a = s.readReg b then 0 else 2)

/-- 42_int128.md R155 to R158: what the shared commands do to signed values. -/
def Obligations.SharedCommandsOnSignedValues : Prop :=
  ∀ (d a b : Reg) (imm : Byte) (s : State),
    (∃ t, execAll (expand (.iadd d a b)) s = .next t ∧
      WritesReg s t d (BitVec.ofInt 128 ((s.readReg a).toInt + (s.readReg b).toInt))) ∧
    (∃ t, execAll (expand (.isub d a b)) s = .next t ∧
      WritesReg s t d (BitVec.ofInt 128 ((s.readReg a).toInt - (s.readReg b).toInt))) ∧
    (∃ t, execAll (expand (.ishl d a b)) s = .next t ∧
      WritesReg s t d (if 128 ≤ (s.readReg b).toNat then 0
        else BitVec.ofInt 128 ((s.readReg a).toInt * 2 ^ (s.readReg b).toNat))) ∧
    (∃ t, execAll (expand (.ishli d a imm)) s = .next t ∧
      WritesReg s t d (if 128 ≤ imm.toNat then 0
        else BitVec.ofInt 128 ((s.readReg a).toInt * 2 ^ imm.toNat))) ∧
    (∃ t, execAll (expand (.icast d a)) s = .next t ∧ WritesReg s t d (s.readReg a)) ∧
    (∃ t, execAll (expand (.ucast d a)) s = .next t ∧ WritesReg s t d (s.readReg a))

/-- 30_encoding.md R72: `LDI` loads its constant; `SSTR` makes its text the current string, and changes
no register and no byte beyond the text. -/
def Obligations.LoadConstantAndPlaceText : Prop :=
  (∀ (d : Reg) (n : Int) (s : State), -2 ^ 63 ≤ n → n < 2 ^ 63 →
    ∃ t, execAll (expand (.ldi d n)) s = .next t ∧ WritesReg s t d (BitVec.ofInt 128 n)) ∧
  ∀ (text : List Byte) (s : State), text.length ≤ 255 →
    ∃ t, execAll (expand (.sstr text)) s = .next t ∧ HoldsText t text ∧
      (∀ k, t.readReg k = s.readReg k) ∧ t.esr = s.esr ∧ t.hostInput = s.hostInput ∧
      (∀ a, text.length ≤ a → t.readByte a = s.readByte a) ∧
      t.responses = s.responses ++ List.replicate (text.length + 1) okResponse

/-! ## Radix string codec -/

/-- 43_radix.md R173 to R175: a number text parses to its value modulo `2^128`. -/
def Obligations.ParseGivesNumberValue : Prop :=
  ∀ (d : Reg) (base : Byte) (s : State) (t : List Byte) (neg : Bool) (ds : List Nat),
    Selects (commandWord 0x30 d 0 0 0 base) (.uparse d base) ∧
    Selects (commandWord 0x31 d 0 0 0 base) (.iparse d base) ∧
    (LegalBase base → HoldsText s t →
      (IsNumber false base.toNat t neg ds →
        Writes (.uparse d base) s d (BitVec.ofNat 128 (positional base.toNat ds))) ∧
      (IsNumber true base.toNat t neg ds →
        Writes (.iparse d base) s d
          (BitVec.ofInt 128 (if neg then -(positional base.toNat ds : Int) else positional base.toNat ds))))

/-- 60_exceptions.md R281: any text outside the grammar. -/
def Obligations.ParseRejectsOtherTexts : Prop :=
  ∀ (d : Reg) (base : Byte) (s : State) (t : List Byte), LegalBase base → HoldsText s t →
    ((¬ ∃ neg ds, IsNumber false base.toNat t neg ds) → Errs (.uparse d base) s 0x30 .invalidDigit) ∧
    ((¬ ∃ neg ds, IsNumber true base.toNat t neg ds) → Errs (.iparse d base) s 0x31 .invalidDigit)

/-- 43_radix.md R172, 60_exceptions.md R282: whatever the string and the register hold. -/
def Obligations.IllegalBaseRejected : Prop :=
  ∀ (r : Reg) (base : Byte) (s : State), base.toNat < 2 ∨ 36 < base.toNat →
    Errs (.uparse r base) s 0x30 .invalidBase ∧ Errs (.iparse r base) s 0x31 .invalidBase ∧
    Errs (.ufmt r base) s 0x32 .invalidBase ∧ Errs (.ifmt r base) s 0x33 .invalidBase ∧
    Errs (.udebug r base) s 0x34 .invalidBase ∧ Errs (.idebug r base) s 0x35 .invalidBase

/-- 43_radix.md R177, R178, R180. -/
def Obligations.FormatWritesDigits : Prop :=
  ∀ (a : Reg) (base : Byte) (s : State), Selects (commandWord 0x32 0 a 0 0 base) (.ufmt a base) ∧
    (¬ LegalBase base → Errs (.ufmt a base) s 0x32 .invalidBase) ∧
    (LegalBase base → ∃ ds, IsDigitsOf base.toNat (s.readReg a).toNat ds ∧
      Emits (.ufmt a base) s (ds.map digitChar))

/-- 43_radix.md R177, R182, and R179, whose form of a negative value the spec marks as its own inference. -/
def Obligations.FormatWritesSignedDigits : Prop :=
  ∀ (a : Reg) (base : Byte) (s : State), Selects (commandWord 0x33 0 a 0 0 base) (.ifmt a base) ∧
    (LegalBase base → ∃ ds, IsDigitsOf base.toNat (s.readReg a).toInt.natAbs ds ∧
      Emits (.ifmt a base) s
        (if (s.readReg a).toInt < 0 then 0x2D :: ds.map digitChar else ds.map digitChar))

/-- 43_radix.md R183, R185, R186: the annotated text, `UInt128("…",base:…)` or `Int128("…",base:…)`. The form of
a negative value in `IDBG` rests on R179, which the spec marks as its own inference: "The source does not spell
out how a negative value is formatted; this follows from its grammar and its `Int128.min` property
`[derived: from rule R170 and 42_int128.md rule R143]`". -/
def Obligations.DebugTextsAnnotateBase : Prop :=
  ∀ (a : Reg) (base : Byte) (s : State),
    Selects (commandWord 0x34 0 a 0 0 base) (.udebug a base) ∧
    Selects (commandWord 0x35 0 a 0 0 base) (.idebug a base) ∧
    (LegalBase base → ∃ ds es bs, IsDigitsOf base.toNat (s.readReg a).toNat ds ∧
      IsDigitsOf base.toNat (s.readReg a).toInt.natAbs es ∧ IsDigitsOf 10 base.toNat bs ∧
      Emits (.udebug a base) s
        ("UInt128(\"".toList.map (fun c => BitVec.ofNat 8 c.toNat) ++ ds.map digitChar ++
          "\",base:".toList.map (fun c => BitVec.ofNat 8 c.toNat) ++ bs.map digitChar ++ [0x29]) ∧
      Emits (.idebug a base) s
        ("Int128(\"".toList.map (fun c => BitVec.ofNat 8 c.toNat) ++
          (if (s.readReg a).toInt < 0 then 0x2D :: es.map digitChar else es.map digitChar) ++
          "\",base:".toList.map (fun c => BitVec.ofNat 8 c.toNat) ++ bs.map digitChar ++ [0x29]))

/-- 43_radix.md R176: formatting a register and parsing the string gives the register back. -/
def Obligations.FormatThenParseRoundTrips : Prop :=
  ∀ (d a : Reg) (base : Byte) (s : State), LegalBase base →
    (∃ t u, exec (.ufmt a base) s = .next t ∧ exec (.uparse d base) t = .next u ∧
      u.readReg d = s.readReg a ∧ u.responses = s.responses ++ [okResponse, okResponse]) ∧
    ∃ t u, exec (.ifmt a base) s = .next t ∧ exec (.iparse d base) t = .next u ∧
      u.readReg d = s.readReg a ∧ u.responses = s.responses ++ [okResponse, okResponse]

/-- 20_memory.md R55: the longest texts, and that they are reached. -/
def Obligations.LongestTexts : Prop :=
  (∀ (a : Reg) (base : Byte) (s : State), LegalBase base →
    (∃ t, exec (.ufmt a base) s = .next t ∧ t.slen.toNat ≤ 128) ∧
    (∃ t, exec (.ifmt a base) s = .next t ∧ t.slen.toNat ≤ 129) ∧
    (∃ t, exec (.udebug a base) s = .next t ∧ t.slen.toNat ≤ 146) ∧
    ∃ t, exec (.idebug a base) s = .next t ∧ t.slen.toNat ≤ 146) ∧
  ∀ (a : Reg) (s : State), (s.readReg a).toInt = -2 ^ 127 →
    (∃ t, exec (.ufmt a 2) s = .next t ∧ t.slen.toNat = 128) ∧
    (∃ t, exec (.ifmt a 2) s = .next t ∧ t.slen.toNat = 129) ∧
    (∃ t, exec (.udebug a 2) s = .next t ∧ t.slen.toNat = 146) ∧
    ∃ t, exec (.idebug a 2) s = .next t ∧ t.slen.toNat = 146

/-! ## Float128 format -/

/-- 44_float128_format.md R200 to R203, R208, R209, over the pattern's fields. -/
def Obligations.ClassMaskBits : Prop :=
  ∀ (d a : Reg) (s : State), Selects (commandWord 0x40 d a 0 0 0) (.fclass d a) ∧
    let v := s.readReg a
    let zero := fexp v = 0 ∧ ffrac v = 0
    let infinite := fexp v = 32767 ∧ ffrac v = 0
    let nan := fexp v = 32767 ∧ ffrac v ≠ 0
    ∃ m : Word, m.toNat < 2 ^ 7 ∧
      (m.getLsbD 0 = true ↔ zero) ∧ (m.getLsbD 1 = true ↔ infinite) ∧ (m.getLsbD 2 = true ↔ nan) ∧
      (m.getLsbD 3 = true ↔ v.getLsbD 127 = true ∧ ¬ nan) ∧
      (m.getLsbD 4 = true ↔ ffrac v = 0 ∧ ¬ zero ∧ ¬ infinite ∧ ¬ nan) ∧
      (zero → m.toNat / 32 = 0) ∧ (infinite → m.toNat / 32 = 1) ∧ (nan → m.toNat / 32 = 2) ∧
      (¬ zero → ¬ infinite → ¬ nan → m.toNat / 32 = 3) ∧
      Writes (.fclass d a) s d m

/-- 44_float128_format.md R206, R210, R211: the specials, and an exact conversion of every other double. -/
def Obligations.FromDoubleIsExact : Prop :=
  ∀ (d a : Reg) (s : State), Selects (commandWord 0x41 d a 0 0 0) (.ffromd d a) ∧
    let x := (s.readReg a).extractLsb' 0 64
    if dexp x = 2047 then
      Writes (.ffromd d a) s d (if dfrac x = 0 then finf (dsign x) else Config.qnan128)
    else if dexp x = 0 ∧ dfrac x = 0 then Writes (.ffromd d a) s d (fzero (dsign x))
    else ∃ v, ftag v = .normal ∧ fsign v = dsign x ∧ fval v = dval x ∧ v.extractLsb' 0 60 = 0 ∧
      Writes (.ffromd d a) s d v

/-- 44_float128_format.md R212, R213. -/
def Obligations.ToDoubleTruncates : Prop :=
  ∀ (d a : Reg) (s : State), Selects (commandWord 0x42 d a 0 0 0) (.ftod d a) ∧
    let v := s.readReg a
    if fexp v = 32767 ∧ ffrac v ≠ 0 then Writes (.ftod d a) s d 0x7FF8000000000000
    else if fexp v = 32767 then
      Writes (.ftod d a) s d (BitVec.ofNat 128 ((if fsign v then 2 ^ 63 else 0) + 0x7FF * 2 ^ 52))
    else if 17407 ≤ fexp v then Errs (.ftod d a) s 0x42 .overflow
    else if fexp v ≤ 15360 then Writes (.ftod d a) s d (BitVec.ofNat 128 (if fsign v then 2 ^ 63 else 0))
    else Writes (.ftod d a) s d
      (BitVec.ofNat 128 ((if fsign v then 2 ^ 63 else 0) + (fexp v - 15360) * 2 ^ 52 +
        (ffrac v).toNat / 2 ^ 60))

/-- 44_float128_format.md R213: `FTOD` after `FFROMD`, for every double. -/
def Obligations.DoubleRoundTrip : Prop :=
  ∀ (d e a : Reg) (s : State),
    let x := (s.readReg a).extractLsb' 0 64
    ∃ t u, exec (.ffromd d a) s = .next t ∧ exec (.ftod e d) t = .next u ∧
      u.readReg e =
        (if dexp x = 2047 ∧ dfrac x ≠ 0 then Config.qnan64
          else if dexp x = 0 then BitVec.ofBool (dsign x) ++ (0 : BitVec 63)
          else x).setWidth 128

/-- 44_float128_format.md R216, R217. -/
def Obligations.FrexpSplits : Prop :=
  ∀ (d e a : Reg) (s : State),
    (∀ dhi dlo, decode ⟨commandWord 0x43 d a 0 d 0, dhi, dlo⟩ = .error .equalDestinations) ∧
    (d ≠ e → Selects (commandWord 0x43 d a 0 e 0) (.ffrexp d e a) ∧
      let v := s.readReg a
      if ftag v = .normal then
        ∃ m, fsign m = fsign v ∧ fexp m = 16382 ∧ ffrac m = ffrac v ∧
          fval v = fval m * (2 : ℚ) ^ ((fexp v : ℤ) - 16382) ∧
          WritesTwo (.ffrexp d e a) s d e m (BitVec.ofInt 128 ((fexp v : Int) - 16382))
      else WritesTwo (.ffrexp d e a) s d e v 0)

/-- 44_float128_format.md R218, R219. -/
def Obligations.LdexpSetsExponent : Prop :=
  ∀ (d a b : Reg) (s : State), Selects (commandWord 0x44 d a b 0 0) (.fldexp d a b) ∧
    let m := s.readReg a
    let e := (s.readReg b).toInt
    if ftag m ≠ .normal then Writes (.fldexp d a b) s d m
    else if e < -16382 ∨ 16384 < e then Errs (.fldexp d a b) s 0x44 .overflow
    else ∃ v, fsign v = fsign m ∧ (fexp v : Int) = e + 16382 ∧ ffrac v = ffrac m ∧
      Writes (.fldexp d a b) s d v

/-- 44_float128_format.md R220: for every pattern, special or not. -/
def Obligations.LdexpInvertsFrexp : Prop :=
  ∀ (d e a f : Reg) (s : State), d ≠ e →
    ∃ t u, exec (.ffrexp d e a) s = .next t ∧ exec (.fldexp f d e) t = .next u ∧
      u.readReg f = s.readReg a ∧ u.responses = s.responses ++ [okResponse, okResponse]

/-- 44_float128_format.md R221, R222: NaN is unordered, other patterns compare by sign and magnitude, and
Normal patterns by their values. -/
def Obligations.FloatCompareOrders : Prop :=
  ∀ (d a b : Reg) (s : State), Selects (commandWord 0x45 d a b 0 0) (.fcmp d a b) ∧
    let l := s.readReg a
    let r := s.readReg b
    Writes (.fcmp d a b) s d
      (if isNaN l ∨ isNaN r then 3 else if orderKey l < orderKey r then 1
        else if orderKey l = orderKey r then 0 else 2) ∧
    (ftag l = .normal → ftag r = .normal →
      Writes (.fcmp d a b) s d (if fval l < fval r then 1 else if fval l = fval r then 0 else 2))

/-! ## Float128 arithmetic -/

/-- 45_float128_arith.md R241. -/
def Obligations.FloatMultiplySpecials : Prop :=
  ∀ (d a b : Reg) (s : State), Selects (commandWord 0x46 d a b 0 0) (.fmul d a b) ∧
    let l := s.readReg a
    let r := s.readReg b
    let neg := fsign l ^^ fsign r
    if ftag l = .nan ∨ ftag r = .nan then Writes (.fmul d a b) s d Config.qnan128
    else if ftag l = .infinity ∧ ftag r = .zero ∨ ftag l = .zero ∧ ftag r = .infinity then
      Writes (.fmul d a b) s d Config.qnan128
    else if ftag l = .infinity ∨ ftag r = .infinity then Writes (.fmul d a b) s d (finf neg)
    else ftag l = .zero ∨ ftag r = .zero → Writes (.fmul d a b) s d (fzero neg)

/-- 45_float128_arith.md R242: the product by a power of two is exact where its exponent is in range;
above the range it is infinite, below it zero. -/
def Obligations.FloatMultiplyByPowerOfTwo : Prop :=
  ∀ (d a b : Reg) (s : State),
    let l := s.readReg a
    let r := s.readReg b
    let neg := fsign l ^^ fsign r
    let e : Int := (fexp l : Int) + fexp r - 16383
    ftag l = .normal → ftag r = .normal → isPowerOf2 l = true ∨ isPowerOf2 r = true →
    (32767 ≤ e → Writes (.fmul d a b) s d (finf neg)) ∧ (e ≤ 0 → Writes (.fmul d a b) s d (fzero neg)) ∧
    (0 < e → e < 32767 → ∃ v, ftag v = .normal ∧ fval v = fval l * fval r ∧ Writes (.fmul d a b) s d v)

/-- 45_float128_arith.md R243. -/
def Obligations.FloatMultiplyGeneral : Prop :=
  ∀ (d a b : Reg) (s : State),
    let l := s.readReg a
    let r := s.readReg b
    let p := (2 ^ 56 + (ffrac l).toNat / 2 ^ 56) * (2 ^ 56 + (ffrac r).toNat / 2 ^ 56)
    let e : Int := (fexp l : Int) + fexp r - 16383
    ftag l = .normal → ftag r = .normal → isPowerOf2 l = false → isPowerOf2 r = false →
    ∃ v, IsPacked (fsign l ^^ fsign r) (if 2 ^ 113 ≤ p then e + 1 else e) (if 2 ^ 113 ≤ p then p / 2 else p) v ∧
      Writes (.fmul d a b) s d v

/-- 45_float128_arith.md R256: how far a product in range is from the exact one. -/
def Obligations.FloatMultiplyAccuracy : Prop :=
  ∀ (d a b : Reg) (s t : State),
    let l := s.readReg a
    let r := s.readReg b
    let v := t.readReg d
    ftag l = .normal → ftag r = .normal → exec (.fmul d a b) s = .next t → ftag v = .normal →
    |fval v| ≤ |fval l * fval r| ∧ |fval l * fval r| - |fval v| < |fval l * fval r| * (2 : ℚ) ^ (-54 : ℤ) ∧
    fsign v = (fsign l ^^ fsign r)

/-- 45_float128_arith.md R245. -/
def Obligations.FloatAddSpecials : Prop :=
  ∀ (d a b : Reg) (s : State), Selects (commandWord 0x47 d a b 0 0) (.fadd d a b) ∧
    let l := s.readReg a
    let r := s.readReg b
    if ftag l = .nan ∨ ftag r = .nan then Writes (.fadd d a b) s d Config.qnan128
    else if ftag l = .infinity ∧ ftag r = .infinity then
      Writes (.fadd d a b) s d (if fsign l = fsign r then l else Config.qnan128)
    else if ftag l = .infinity then Writes (.fadd d a b) s d l
    else if ftag r = .infinity then Writes (.fadd d a b) s d r
    else if ftag l = .zero ∧ ftag r = .zero then
      Writes (.fadd d a b) s d (if fsign l = fsign r then l else 0)
    else if ftag l = .zero then Writes (.fadd d a b) s d r
    else ftag r = .zero → Writes (.fadd d a b) s d l

/-- 45_float128_arith.md R246 to R248, with the operand of larger magnitude named by the hypotheses. -/
def Obligations.FloatAddAligns : Prop :=
  ∀ (d a b : Reg) (s : State) (big small : Word),
    ftag big = .normal → ftag small = .normal →
    (s.readReg a = big ∧ s.readReg b = small ∧ fmag small ≤ fmag big ∨
      s.readReg a = small ∧ s.readReg b = big ∧ fmag small < fmag big) →
    let k := fexp big - fexp small
    let aligned := signif small / 2 ^ k
    if 112 < k then Writes (.fadd d a b) s d big
    else if fsign big = fsign small then
      let m := signif big + aligned
      ∃ v, IsPacked (fsign big) (if 2 ^ 113 ≤ m then fexp big + 1 else fexp big)
        (if 2 ^ 113 ≤ m then m / 2 else m) v ∧ Writes (.fadd d a b) s d v
    else
      let m := signif big - aligned
      if m = 0 then Writes (.fadd d a b) s d 0
      else ∃ (v : Word) (n : Nat), 2 ^ 112 ≤ m * 2 ^ n ∧ m * 2 ^ n < 2 ^ 113 ∧
        IsPacked (fsign big) (fexp big - n) (m * 2 ^ n) v ∧ Writes (.fadd d a b) s d v

/-- 45_float128_arith.md R249: exchanging the sources exchanges nothing in what `FADD` leaves. -/
def Obligations.FloatAddCommutes : Prop :=
  ∀ (d a b : Reg) (s : State), exec (.fadd d a b) s = exec (.fadd d b a) s

/-- 45_float128_arith.md R250. -/
def Obligations.FloatDivideSpecials : Prop :=
  ∀ (d a b : Reg) (s : State), Selects (commandWord 0x48 d a b 0 0) (.fdiv d a b) ∧
    let l := s.readReg a
    let r := s.readReg b
    let neg := fsign l ^^ fsign r
    if ftag r = .zero then Errs (.fdiv d a b) s 0x48 .divisionByZero
    else if ftag l = .nan ∨ ftag r = .nan then Writes (.fdiv d a b) s d Config.qnan128
    else if ftag l = .infinity ∧ ftag r = .infinity then Writes (.fdiv d a b) s d Config.qnan128
    else if ftag l = .infinity then Writes (.fdiv d a b) s d (finf neg)
    else if ftag r = .infinity then Writes (.fdiv d a b) s d (fzero neg)
    else ftag l = .zero → Writes (.fdiv d a b) s d (fzero neg)

/-- 45_float128_arith.md R251: the quotient of the significands cut to 113 bits. -/
def Obligations.FloatDivideTruncatesQuotient : Prop :=
  ∀ (d a b : Reg) (s : State),
    let l := s.readReg a
    let r := s.readReg b
    let e : Int := (fexp l : Int) - fexp r + 16383
    ftag l = .normal → ftag r = .normal →
    ∃ v, (if signif l < signif r
        then IsPacked (fsign l ^^ fsign r) (e - 1) (2 * signif l * 2 ^ 112 / signif r) v
        else IsPacked (fsign l ^^ fsign r) e (signif l * 2 ^ 112 / signif r) v) ∧
      Writes (.fdiv d a b) s d v

/-- 45_float128_arith.md R253. -/
def Obligations.FloatModuloSpecials : Prop :=
  ∀ (d a b : Reg) (s : State), Selects (commandWord 0x49 d a b 0 0) (.fmod d a b) ∧
    let l := s.readReg a
    let r := s.readReg b
    if ftag r = .zero then Errs (.fmod d a b) s 0x49 .divisionByZero
    else if ftag l = .nan ∨ ftag r = .nan then Writes (.fmod d a b) s d Config.qnan128
    else if ftag l = .infinity then Writes (.fmod d a b) s d Config.qnan128
    else ftag r = .infinity ∨ ftag l = .zero → Writes (.fmod d a b) s d l

/-- 45_float128_arith.md R254: the exact remainder of truncating division, flushed to zero below the
least exponent. -/
def Obligations.FloatModuloIsExactRemainder : Prop :=
  ∀ (d a b : Reg) (s : State),
    let l := s.readReg a
    let r := s.readReg b
    let rest := |fval l| - |fval r| * ⌊|fval l| / |fval r|⌋
    ftag l = .normal → ftag r = .normal →
    if fmag l < fmag r then Writes (.fmod d a b) s d l
    else if rest < (2 : ℚ) ^ (1 - 16383 : ℤ) then Writes (.fmod d a b) s d (fzero (fsign l))
    else ∃ v, ftag v = .normal ∧ fsign v = fsign l ∧ |fval v| = rest ∧ Writes (.fmod d a b) s d v

/-! ## Encoding -/

/-- 30_encoding.md R61, R63, R65: no bit of an encoding is dropped. -/
def Obligations.DecodeEncodeRoundTrip : Prop :=
  ∀ i : Instr, i.wellFormed = true → decode (encode i) = .ok i

/-- 30_encoding.md R64, R68: a packet that decodes has the command word of its command, so no two words
mean one command, and its two destinations differ. -/
def Obligations.AcceptedWordsAreEncodings : Prop :=
  ∀ (p : Packet) (i : Instr), decode p = .ok i → (encode i).cw = p.cw ∧ i.wellFormed = true

/-- 30_encoding.md R64, R66, 60_exceptions.md R285: a reserved opcode, a nonzero unused field, or one
destination named twice. -/
def Obligations.IllegalWordsRaiseError : Prop :=
  ∀ (p : Packet) (s : State),
    let op := p.cw.extractLsb' 24 8
    (op.toNat = 0x0E ∨ op.toNat = 0x0F ∨ (0x28 ≤ op.toNat ∧ op.toNat ≤ 0x2F) ∨
        (0x36 ≤ op.toNat ∧ op.toNat ≤ 0x3F) ∨ 0x4A ≤ op.toNat ∨
      ∃ o : Op, o.code = op ∧ (p.cw &&& o.format.mask ≠ op.setWidth 32 <<< 24 ∨
        (o = .udivrem ∨ o = .ffrexp) ∧ p.cw.extractLsb' 20 4 = p.cw.extractLsb' 8 4)) →
    ∃ t, executePacket p s = .next t ∧ TakesError s t op .illegalCommand

/-- Words written out from 30_encoding.md R61 and R65 decode to the commands they stand for. -/
def Obligations.SampleWordsDecode : Prop :=
  ∀ dhi dlo : DWord,
    decode ⟨0x01100000, dhi, dlo⟩ = .ok (.ldp 1 dhi dlo) ∧
    decode ⟨0x0C100000, dhi, dlo⟩ = .ok (.unarrow 1 0 .w8) ∧
    decode ⟨0x15201300, dhi, dlo⟩ = .ok (.udivrem 2 3 0 1) ∧
    decode ⟨0x26100004, dhi, dlo⟩ = .ok (.ishri 1 0 4) ∧
    decode ⟨0x3300000A, dhi, dlo⟩ = .ok (.ifmt 0 10) ∧
    decode ⟨0x43100200, dhi, dlo⟩ = .ok (.ffrexp 1 2 0)

/-! ## The machine -/

/-- 00_scope.md R5, 30_encoding.md R60: the unit takes the host's next packet and executes its command. That
the packets to come stand in the state is the model's choice (log entry 5). -/
def Obligations.StepRunsDecodedCommand : Prop :=
  ∀ (s : State) (p : Packet) (rest : List HostEvent) (i : Instr),
    s.hostInput = .packet p :: rest → decode p = .ok i → step s = exec i { s with hostInput := rest }

/-- 10_state.md R33: `SLEN` and `ESR` after reset, initially and after the host asserts it. That `x` is then
0, that no byte has a value, and that the responses and the packets to come are kept is the model's choice
(log entries 1, 2, 7). -/
def Obligations.ResetLeavesResetState : Prop :=
  State.reset.slen = 0 ∧ State.reset.esr = 0 ∧
  ∀ (s : State) (rest : List HostEvent), s.hostInput = .reset :: rest →
    ∃ t, step s = .next t ∧ t.slen = 0 ∧ t.esr = 0 ∧ (∀ k, t.readReg k = 0) ∧
      (∀ a, t.readByte a = none) ∧ t.hostInput = rest ∧ t.responses = s.responses

/-- `Inv` holds at reset: `ESR` is 0 (10_state.md R33); that no byte is listed and no response kept is the
model's choice (log entries 2, 6). -/
def Obligations.InvariantAtReset : Prop := Inv State.reset

/-- Every step keeps the string buffer in its 256 addresses, `ESR` legal and error responses without data
(20_memory.md R41, 10_state.md R26, 30_encoding.md R62). The canonical form of the buffer and the list of
responses are the model's (log entries 2, 6). -/
def Obligations.InvariantKeptByStep : Prop :=
  ∀ s t : State, Inv s → step s = .next t → Inv t

/-- 60_exceptions.md R280, R286, R289, 30_encoding.md R62: a command that gives a next state gives one
response; an error response comes with nothing changed but `ESR`, from a command that can raise it; data
words come only from the four reading commands. -/
def Obligations.ErrorsArePrecise : Prop :=
  ∀ (i : Instr) (s t : State), i.wellFormed = true → exec i s = .next t →
    ∃ r, t.responses = s.responses ++ [r] ∧
      (∀ c, r.status = .error c → TakesError s t i.op.code c ∧
        match c with
        | .invalidDigit => i.op ∈ [Op.uparse, .iparse]
        | .invalidBase => i.op ∈ [Op.uparse, .iparse, .ufmt, .ifmt, .udebug, .idebug]
        | .divisionByZero => i.op ∈ [Op.udiv, .urem, .udivrem, .idiv, .irem, .fdiv, .fmod]
        | .overflow => i.op ∈ [Op.idiv, .irem, .unarrow, .inarrow, .ftod, .fldexp]
        | .illegalCommand => False) ∧
      (r.status = .ok → i.op ≠ .esrc → t.esr = s.esr) ∧
      (i.op ∉ [Op.rd, .sbr, .slenr, .esrr] → r.rhi = 0 ∧ r.rlo = 0)

/-- 10_state.md R26: from two states that differ in `ESR` only, a packet's execution gives the same registers,
string and length, and, but for `ESRR`, the same response; what it leaves in `ESR` is the same or untouched. -/
def Obligations.ErrorStatusInfluencesNothing : Prop :=
  ∀ (p : Packet) (s t : State) (e : BitVec 16), executePacket p s = .next t →
    ∃ u, executePacket p { s with esr := e } = .next u ∧ u.x = t.x ∧ u.sb = t.sb ∧ u.slen = t.slen ∧
      u.hostInput = t.hostInput ∧ (u.esr = t.esr ∨ t.esr = s.esr ∧ u.esr = e) ∧
      (p.cw ≠ 0x0A000000 → u.responses = t.responses)

/-- 70_reset_and_hazards.md R317: every step gives a next state, unless the command reads a byte that
nothing has written since reset, where the model stops (its choice, log entry 2). -/
def Obligations.StepStopsOnlyOnUnwrittenByte : Prop :=
  ∀ s : State, (∃ t, step s = .next t) ∨
    step s = .fault .unwrittenByte ∧ ∃ p rest i a, s.hostInput = .packet p :: rest ∧ decode p = .ok i ∧
      s.readByte a = none ∧ (i = .sbr (BitVec.ofNat 8 a) ∧ a < 256 ∨
        (∃ d base, (i = .uparse d base ∨ i = .iparse d base) ∧ LegalBase base) ∧ a < s.slen.toNat)
end

