-- ==== Sys2Proof/Laws/Decode.lean ====
section
/-! SUPPORT. The fields of a command word, and which words the decoder accepts. -/
namespace Sys2Proof

theorem Fields.toWord_eq (f : Fields) : f.toWord = Machine.commandWord f.op.toNat f.rd f.ra f.rb f.re f.imm := by
  apply BitVec.eq_of_toNat_eq
  have h0 := f.op.isLt; have h1 := f.rd.isLt; have h2 := f.ra.isLt
  have h3 := f.rb.isLt; have h4 := f.re.isLt; have h5 := f.imm.isLt
  simp only [Fields.toWord, Machine.commandWord, BitVec.toNat_append, BitVec.toNat_ofNat, BitVec.toNat_ofFin]
  rw [← Nat.shiftLeft_add_eq_or_of_lt (by omega), ← Nat.shiftLeft_add_eq_or_of_lt (by omega),
    ← Nat.shiftLeft_add_eq_or_of_lt (by omega), ← Nat.shiftLeft_add_eq_or_of_lt (by omega),
    ← Nat.shiftLeft_add_eq_or_of_lt (by omega)]
  simp only [Nat.shiftLeft_eq]
  omega

theorem extractLsb'_append_low {n m : Nat} (a : BitVec n) (b : BitVec m) :
    (a ++ b).extractLsb' 0 m = b := by
  ext i hi; simp [BitVec.getElem_extractLsb', BitVec.getLsbD_append, hi]

theorem extractLsb'_append_high {n m : Nat} (a : BitVec n) (b : BitVec m) (k l : Nat)  :
    (a ++ b).extractLsb' (m + k) l = a.extractLsb' k l := by
  ext i hi; simp [BitVec.getElem_extractLsb', BitVec.getLsbD_append, show ¬ m + k + i < m by omega, show m + k + i - m = k + i by omega]

theorem Fields.ofWord_toWord (f : Fields) : Fields.ofWord f.toWord = f := by
  obtain ⟨op, rd, ra, rb, re, imm⟩ := f
  simp only [Fields.ofWord, Fields.toWord, Fields.mk.injEq]
  refine ⟨?_, ?_, ?_, ?_, ?_, ?_⟩
  · rw [show 24 = 8 + (4 + (4 + (4 + (4 + 0)))) from rfl]
    iterate 5 rw [extractLsb'_append_high]
    simp
  · rw [show 20 = 8 + (4 + (4 + (4 + 0))) from rfl]
    iterate 4 rw [extractLsb'_append_high]
    rw [extractLsb'_append_low]
  · rw [show 16 = 8 + (4 + (4 + 0)) from rfl]
    iterate 3 rw [extractLsb'_append_high]
    rw [extractLsb'_append_low]
  · rw [show 12 = 8 + (4 + 0) from rfl]
    iterate 2 rw [extractLsb'_append_high]
    rw [extractLsb'_append_low]
  · rw [extractLsb'_append_high _ imm 0 4, extractLsb'_append_low]
  · rw [extractLsb'_append_low]
theorem Fields.toWord_ofWord (cw : BitVec 32) : (Fields.ofWord cw).toWord = cw := by
  simp only [Fields.ofWord, Fields.toWord]
  ext i hi
  simp only [BitVec.getElem_append, BitVec.ofFin_toFin, BitVec.getElem_extractLsb']
  split_ifs
  all_goals (rw [← BitVec.getLsbD_eq_getElem]; congr 1; omega)

@[simp] theorem Op.ofCode_code (o : Op) : Op.ofCode o.code = some o := by cases o <;> decide

theorem Op.code_of_ofCode {c : BitVec 8} {o : Op} (h : Op.ofCode c = some o) : o.code = c := by
  simpa [Op.ofCode] using List.find?_some h

@[simp] theorem Width.ofCode_code (w : Width) : Width.ofCode w.code = w := by cases w <;> decide

theorem Width.code_ofCode (c : BitVec 2) : (Width.ofCode c).code = c := by
  revert c; decide

theorem Width.bits_values (w : Width) : w.bits = match w with | .w8 => 8 | .w16 => 16 | .w32 => 32 | .w64 => 64 := by
  cases w <;> rfl

/-- A word passes a format's mask iff the fields the format does not use are 0 (30_encoding.md R63). -/
def Format.unusedZero : Format → Fields → Prop
  | .z, f => f.rd = 0 ∧ f.ra = 0 ∧ f.rb = 0 ∧ f.re = 0 ∧ f.imm = 0
  | .d, f => f.ra = 0 ∧ f.rb = 0 ∧ f.re = 0 ∧ f.imm = 0
  | .dw, f => f.ra = 0 ∧ f.rb = 0 ∧ f.re = 0 ∧ f.imm.toNat < 4
  | .a, f => f.rd = 0 ∧ f.rb = 0 ∧ f.re = 0 ∧ f.imm = 0
  | .da, f => f.rb = 0 ∧ f.re = 0 ∧ f.imm = 0
  | .i, f => f.rd = 0 ∧ f.ra = 0 ∧ f.rb = 0 ∧ f.re = 0
  | .daw, f => f.rb = 0 ∧ f.re = 0 ∧ f.imm.toNat < 4
  | .dab, f => f.re = 0 ∧ f.imm = 0
  | .deab, f => f.imm = 0
  | .dai, f => f.rb = 0 ∧ f.re = 0
  | .di, f => f.ra = 0 ∧ f.rb = 0 ∧ f.re = 0
  | .ai, f => f.rd = 0 ∧ f.rb = 0 ∧ f.re = 0
  | .dea, f => f.rb = 0 ∧ f.imm = 0

/-- The bits a format requires, field by field. -/
def Format.fieldMasks : Format → BitVec 4 × BitVec 4 × BitVec 4 × BitVec 4 × BitVec 8
  | .z => (15, 15, 15, 15, 255)
  | .d => (0, 15, 15, 15, 255)
  | .dw => (0, 15, 15, 15, 252)
  | .a => (15, 0, 15, 15, 255)
  | .da => (0, 0, 15, 15, 255)
  | .i => (15, 15, 15, 15, 0)
  | .daw => (0, 0, 15, 15, 252)
  | .dab => (0, 0, 0, 15, 255)
  | .deab => (0, 0, 0, 0, 255)
  | .dai => (0, 0, 15, 15, 0)
  | .di => (0, 15, 15, 15, 0)
  | .ai => (15, 0, 15, 15, 0)
  | .dea => (0, 0, 15, 0, 255)

theorem Format.mask_eq (m : Format) : m.mask =
    255#8 ++ m.fieldMasks.1 ++ m.fieldMasks.2.1 ++ m.fieldMasks.2.2.1 ++ m.fieldMasks.2.2.2.1 ++
      m.fieldMasks.2.2.2.2 := by
  cases m <;> rfl

theorem opcodePlace_eq (op : BitVec 8) :
    op.setWidth 32 <<< 24 = op ++ 0#4 ++ 0#4 ++ 0#4 ++ 0#4 ++ 0#8 := by
  revert op; decide

theorem append_inj_iff {n m : Nat} {a c : BitVec n} {b d : BitVec m} :
    a ++ b = c ++ d ↔ a = c ∧ b = d := by
  constructor
  · intro h
    have hl := congrArg (fun v => v.extractLsb' 0 m) h
    have hh := congrArg (fun v => v.extractLsb' (m + 0) n) h
    simp only [extractLsb'_append_low] at hl
    simp only [extractLsb'_append_high] at hh
    exact ⟨by simpa using hh, hl⟩
  · rintro ⟨rfl, rfl⟩; rfl

theorem and_append {n m : Nat} (a c : BitVec n) (b d : BitVec m) :
    (a ++ b) &&& (c ++ d) = (a &&& c) ++ (b &&& d) := by
  ext i hi
  simp only [BitVec.getElem_and, BitVec.getElem_append]
  split <;> simp

theorem low_code (imm : Byte) : imm &&& 252 = 0 ↔ imm.toNat < 4 := by
  revert imm; decide

theorem fields_and_eq (o m0 : BitVec 8) (a b c d m1 m2 m3 m4 : BitVec 4) (e m5 : BitVec 8) :
    ((o ++ a ++ b ++ c ++ d ++ e : BitVec (8 + 4 + 4 + 4 + 4 + 8)) &&& (m0 ++ m1 ++ m2 ++ m3 ++ m4 ++ m5)
      = o ++ 0#4 ++ 0#4 ++ 0#4 ++ 0#4 ++ 0#8) ↔
    (o &&& m0 = o ∧ a &&& m1 = 0 ∧ b &&& m2 = 0 ∧ c &&& m3 = 0 ∧ d &&& m4 = 0 ∧ e &&& m5 = 0) := by
  simp only [and_append, append_inj_iff, and_assoc]; rfl

/-- A word passes the mask of a format iff the fields that the format does not use are 0. -/
theorem Format.accepts_iff (m : Format) (f : Fields) :
    f.toWord &&& m.mask = f.op.setWidth 32 <<< 24 ↔ m.unusedZero f := by
  rw [m.mask_eq, opcodePlace_eq, Fields.toWord]
  refine (fields_and_eq _ _ _ _ _ _ _ _ _ _ _ _).trans ?_
  have k (r : Reg) : (BitVec.ofFin r : BitVec 4) &&& 15 = 0 ↔ r = 0 := by revert r; decide
  have k' (b : Byte) : b &&& 255 = 0 ↔ b = 0 := by revert b; decide
  have k'' (b : Byte) : b &&& 255#8 = b := by revert b; decide
  have z4 (b : BitVec 4) : b &&& 0 = 0 := by revert b; decide
  have z8 (b : Byte) : b &&& 0 = 0 := by revert b; decide
  cases m <;> simp only [Format.fieldMasks, Format.unusedZero, k, k', k'', z4, z8, low_code, true_and, and_true]

/-- What the decoder answers, over the fields of the word (30_encoding.md R68). -/
theorem decode_toWord (f : Fields) (dhi dlo : DWord) :
    (Op.ofCode f.op = none ∧ decode ⟨f.toWord, dhi, dlo⟩ = .error .reservedOpcode) ∨
    (∃ o : Op, f.op = o.code ∧
      ((¬ o.format.unusedZero f ∧ decode ⟨f.toWord, dhi, dlo⟩ = .error .unusedFieldNonzero) ∨
       (o.format.unusedZero f ∧ o.format.twoDestinations = true ∧ f.rd = f.re ∧
          decode ⟨f.toWord, dhi, dlo⟩ = .error .equalDestinations) ∨
       (o.format.unusedZero f ∧ ¬ (o.format.twoDestinations = true ∧ f.rd = f.re) ∧
          decode ⟨f.toWord, dhi, dlo⟩ = .ok (o.build f dhi dlo)))) := by
  simp only [decode, Fields.ofWord_toWord]
  cases h : Op.ofCode f.op with
  | none => exact .inl ⟨rfl, rfl⟩
  | some o =>
    refine .inr ⟨o, (Op.code_of_ofCode h).symm, ?_⟩
    by_cases hu : o.format.unusedZero f
    · by_cases ht : o.format.twoDestinations = true ∧ f.rd = f.re
      · exact .inr (.inl ⟨hu, ht.1, ht.2, by simp [(Format.accepts_iff _ _).mpr hu, ht]⟩)
      · exact .inr (.inr ⟨hu, ht, by simp [(Format.accepts_iff _ _).mpr hu, ht]⟩)
    · exact .inl ⟨hu, by simp [(Format.accepts_iff _ _).not.mpr hu]⟩

/-- A word of an assigned opcode whose unused fields are 0 and whose two destinations, if it has two,
differ is decoded as its row's command. -/
theorem decode_fields {f : Fields} {o : Op} (hc : f.op = o.code) (hu : o.format.unusedZero f)
    (ht : ¬ (o.format.twoDestinations = true ∧ f.rd = f.re)) (dhi dlo : DWord) :
    decode ⟨f.toWord, dhi, dlo⟩ = .ok (o.build f dhi dlo) := by
  simp only [decode, Fields.ofWord_toWord, hc, Op.ofCode_code]
  rw [if_neg (by rw [← hc, not_not]; exact (Format.accepts_iff _ _).mpr hu), if_neg ht]

/-- A given word is decoded as its row's command, whatever the data words. -/
theorem decode_word {cw : BitVec 32} {o : Op} (hc : Op.ofCode (Fields.ofWord cw).op = some o)
    (hm : cw &&& o.format.mask = (Fields.ofWord cw).op.setWidth 32 <<< 24)
    (ht : ¬ (o.format.twoDestinations = true ∧ (Fields.ofWord cw).rd = (Fields.ofWord cw).re)) (dhi dlo : DWord) :
    decode ⟨cw, dhi, dlo⟩ = .ok (o.build (Fields.ofWord cw) dhi dlo) := by
  simp only [decode, hc, hm, ne_eq, not_true_eq_false, if_false, if_neg ht]

/-- What the decoder answers, over the bits of the word (30_encoding.md R68). -/
theorem decode_cases (p : Packet) :
    (Op.ofCode (p.cw.extractLsb' 24 8) = none ∧ decode p = .error .reservedOpcode) ∨
    (∃ o : Op, Op.ofCode (p.cw.extractLsb' 24 8) = some o ∧ o.code = p.cw.extractLsb' 24 8 ∧
      ((p.cw &&& o.format.mask ≠ (p.cw.extractLsb' 24 8).setWidth 32 <<< 24 ∧
          decode p = .error .unusedFieldNonzero) ∨
       (o.format.twoDestinations = true ∧ p.cw.extractLsb' 20 4 = p.cw.extractLsb' 8 4 ∧
          decode p = .error .equalDestinations) ∨
       (p.cw &&& o.format.mask = (p.cw.extractLsb' 24 8).setWidth 32 <<< 24 ∧
          ¬ (o.format.twoDestinations = true ∧ p.cw.extractLsb' 20 4 = p.cw.extractLsb' 8 4) ∧
          decode p = .ok (o.build (Fields.ofWord p.cw) p.dhi p.dlo)))) := by
  have hr : (Fields.ofWord p.cw).rd = (Fields.ofWord p.cw).re ↔ p.cw.extractLsb' 20 4 = p.cw.extractLsb' 8 4 :=
    BitVec.toFin_inj (x := p.cw.extractLsb' 20 4) (y := p.cw.extractLsb' 8 4)
  have hd : decode p = match Op.ofCode (p.cw.extractLsb' 24 8) with
    | none => .error .reservedOpcode
    | some o =>
      if p.cw &&& o.format.mask ≠ (p.cw.extractLsb' 24 8).setWidth 32 <<< 24 then .error .unusedFieldNonzero
      else if o.format.twoDestinations = true ∧ (Fields.ofWord p.cw).rd = (Fields.ofWord p.cw).re then
        .error .equalDestinations
      else .ok (o.build (Fields.ofWord p.cw) p.dhi p.dlo) := rfl
  cases h : Op.ofCode (p.cw.extractLsb' 24 8) with
  | none => rw [h] at hd; exact .inl ⟨rfl, hd⟩
  | some o =>
    rw [h] at hd
    refine .inr ⟨o, rfl, Op.code_of_ofCode h, ?_⟩
    simp only at hd
    rw [← hr]
    split_ifs at hd with h1 h2
    · exact .inl ⟨h1, hd⟩
    · exact .inr (.inl ⟨h2.1, h2.2, hd⟩)
    · exact .inr (.inr ⟨not_not.mp h1, h2, hd⟩)

/-- No row of the opcode map has a reserved opcode (30_encoding.md R66). -/
theorem Op.code_assigned (o : Op) : ¬ (o.code.toNat = 0x0E ∨ o.code.toNat = 0x0F ∨
    (0x28 ≤ o.code.toNat ∧ o.code.toNat ≤ 0x2F) ∨ (0x36 ≤ o.code.toNat ∧ o.code.toNat ≤ 0x3F) ∨
    0x4A ≤ o.code.toNat) := by
  cases o <;> decide

/-- What makes a command word select a command. -/
theorem Machine.selects_of {op : Nat} {rd ra rb re : Reg} {imm : Byte} {o : Op} {i : Instr}
    (hc : BitVec.ofNat 8 op = o.code) (hop : op < 256)
    (hu : o.format.unusedZero ⟨o.code, rd, ra, rb, re, imm⟩)
    (ht : ¬ (o.format.twoDestinations = true ∧ rd = re))
    (hb : ∀ dhi dlo, o.build ⟨o.code, rd, ra, rb, re, imm⟩ dhi dlo = i) :
    Machine.Selects (Machine.commandWord op rd ra rb re imm) i := by
  intro dhi dlo
  have h := Fields.toWord_eq ⟨o.code, rd, ra, rb, re, imm⟩
  rw [← hc] at h hu hb
  simp only [BitVec.toNat_ofNat, Nat.mod_eq_of_lt (show op < 2 ^ 8 from hop)] at h
  rw [← h, decode_fields hc hu ht, hb]

end Sys2Proof
end

