-- ==== Sys2Proof/Laws/State.lean ====
section
/-! SUPPORT. The fields of the state under each update, one lemma per field and update. -/
namespace Sys2Proof.Machine

@[simp] theorem State.writeReg_x (s : State) (r : Reg) (v : Word) : (s.writeReg r v).x = s.x.set r v := rfl
@[simp] theorem State.writeReg_sb (s : State) (r : Reg) (v : Word) : (s.writeReg r v).sb = s.sb := rfl
@[simp] theorem State.writeReg_slen (s : State) (r : Reg) (v : Word) : (s.writeReg r v).slen = s.slen := rfl
@[simp] theorem State.writeReg_esr (s : State) (r : Reg) (v : Word) : (s.writeReg r v).esr = s.esr := rfl
@[simp] theorem State.writeReg_hostInput (s : State) (r : Reg) (v : Word) : (s.writeReg r v).hostInput = s.hostInput := rfl
@[simp] theorem State.writeReg_responses (s : State) (r : Reg) (v : Word) : (s.writeReg r v).responses = s.responses := rfl

@[simp] theorem State.writeByte_x (s : State) (a b : Byte) : (s.writeByte a b).x = s.x := rfl
@[simp] theorem State.writeByte_sb (s : State) (a b : Byte) : (s.writeByte a b).sb = s.sb.write a.toNat b := rfl
@[simp] theorem State.writeByte_slen (s : State) (a b : Byte) : (s.writeByte a b).slen = s.slen := rfl
@[simp] theorem State.writeByte_esr (s : State) (a b : Byte) : (s.writeByte a b).esr = s.esr := rfl
@[simp] theorem State.writeByte_hostInput (s : State) (a b : Byte) : (s.writeByte a b).hostInput = s.hostInput := rfl
@[simp] theorem State.writeByte_responses (s : State) (a b : Byte) : (s.writeByte a b).responses = s.responses := rfl

@[simp] theorem State.respond_x (s : State) (r : Response) : (s.respond r).x = s.x := rfl
@[simp] theorem State.respond_sb (s : State) (r : Response) : (s.respond r).sb = s.sb := rfl
@[simp] theorem State.respond_slen (s : State) (r : Response) : (s.respond r).slen = s.slen := rfl
@[simp] theorem State.respond_esr (s : State) (r : Response) : (s.respond r).esr = s.esr := rfl
@[simp] theorem State.respond_hostInput (s : State) (r : Response) : (s.respond r).hostInput = s.hostInput := rfl
@[simp] theorem State.respond_responses (s : State) (r : Response) : (s.respond r).responses = s.responses ++ [r] := rfl

@[simp] theorem State.done_x (s : State) : (s.done).x = s.x := rfl
@[simp] theorem State.done_sb (s : State) : (s.done).sb = s.sb := rfl
@[simp] theorem State.done_slen (s : State) : (s.done).slen = s.slen := rfl
@[simp] theorem State.done_esr (s : State) : (s.done).esr = s.esr := rfl
@[simp] theorem State.done_hostInput (s : State) : (s.done).hostInput = s.hostInput := rfl
@[simp] theorem State.done_responses (s : State) : (s.done).responses = s.responses ++ [⟨.ok, 0, 0⟩] := rfl

@[simp] theorem State.reply_x (s : State) (hi lo : DWord) : (s.reply hi lo).x = s.x := rfl
@[simp] theorem State.reply_sb (s : State) (hi lo : DWord) : (s.reply hi lo).sb = s.sb := rfl
@[simp] theorem State.reply_slen (s : State) (hi lo : DWord) : (s.reply hi lo).slen = s.slen := rfl
@[simp] theorem State.reply_esr (s : State) (hi lo : DWord) : (s.reply hi lo).esr = s.esr := rfl
@[simp] theorem State.reply_hostInput (s : State) (hi lo : DWord) : (s.reply hi lo).hostInput = s.hostInput := rfl
@[simp] theorem State.reply_responses (s : State) (hi lo : DWord) : (s.reply hi lo).responses = s.responses ++ [⟨.ok, hi, lo⟩] := rfl

@[simp] theorem State.emit_x (s : State) (t : List Byte) : (s.emit t).x = s.x := rfl
@[simp] theorem State.emit_sb (s : State) (t : List Byte) : (s.emit t).sb = s.sb.writeText 0 t := rfl
@[simp] theorem State.emit_slen (s : State) (t : List Byte) : (s.emit t).slen = BitVec.ofNat 8 t.length := rfl
@[simp] theorem State.emit_esr (s : State) (t : List Byte) : (s.emit t).esr = s.esr := rfl
@[simp] theorem State.emit_hostInput (s : State) (t : List Byte) : (s.emit t).hostInput = s.hostInput := rfl
@[simp] theorem State.emit_responses (s : State) (t : List Byte) : (s.emit t).responses = s.responses := rfl

@[simp] theorem State.takeError_x (s : State) (op : BitVec 8) (c : ErrorCause) : (s.takeError op c).x = s.x := rfl
@[simp] theorem State.takeError_sb (s : State) (op : BitVec 8) (c : ErrorCause) : (s.takeError op c).sb = s.sb := rfl
@[simp] theorem State.takeError_slen (s : State) (op : BitVec 8) (c : ErrorCause) : (s.takeError op c).slen = s.slen := rfl
@[simp] theorem State.takeError_esr (s : State) (op : BitVec 8) (c : ErrorCause) : (s.takeError op c).esr = errorStatus op c := rfl
@[simp] theorem State.takeError_hostInput (s : State) (op : BitVec 8) (c : ErrorCause) : (s.takeError op c).hostInput = s.hostInput := rfl
@[simp] theorem State.takeError_responses (s : State) (op : BitVec 8) (c : ErrorCause) : (s.takeError op c).responses = s.responses ++ [⟨.error c, 0, 0⟩] := rfl

@[simp] theorem State.resetUnit_x (s : State) (rest : List HostEvent) : (s.resetUnit rest).x = State.reset.x := rfl
@[simp] theorem State.resetUnit_sb (s : State) (rest : List HostEvent) : (s.resetUnit rest).sb = State.reset.sb := rfl
@[simp] theorem State.resetUnit_slen (s : State) (rest : List HostEvent) : (s.resetUnit rest).slen = State.reset.slen := rfl
@[simp] theorem State.resetUnit_esr (s : State) (rest : List HostEvent) : (s.resetUnit rest).esr = State.reset.esr := rfl
@[simp] theorem State.resetUnit_hostInput (s : State) (rest : List HostEvent) : (s.resetUnit rest).hostInput = rest := rfl
@[simp] theorem State.resetUnit_responses (s : State) (rest : List HostEvent) : (s.resetUnit rest).responses = s.responses := rfl

theorem State.ext_fields {s t : State} (hx : s.x = t.x) (hsb : s.sb = t.sb) (hl : s.slen = t.slen)
    (he : s.esr = t.esr) (hi : s.hostInput = t.hostInput) (hr : s.responses = t.responses) : s = t := by
  cases s; cases t; simp_all

end Sys2Proof.Machine
end

