-- ==== Sys2Proof/Laws/Registers.lean ====
section
/-! SUPPORT. What reading a register gives after each update. -/
namespace Sys2Proof.Machine

@[simp] theorem State.readReg_writeReg (s : State) (d r : Reg) (v : Word) :
    (s.writeReg d v).readReg r = if r = d then v else s.readReg r := by
  simp only [State.readReg, State.writeReg, Fin.getElem_fin, Vector.getElem_set, Fin.ext_iff, eq_comm]

theorem State.readReg_congr {s t : State} (h : t.x = s.x) (r : Reg) : t.readReg r = s.readReg r := by
  simp only [State.readReg, h]

@[simp] theorem State.readReg_writeByte (s : State) (a b : Byte) (r : Reg) :
    (s.writeByte a b).readReg r = s.readReg r := rfl

@[simp] theorem State.readReg_respond (s : State) (p : Response) (r : Reg) :
    (s.respond p).readReg r = s.readReg r := rfl

@[simp] theorem State.readReg_done (s : State) (r : Reg) : s.done.readReg r = s.readReg r := rfl

@[simp] theorem State.readReg_reply (s : State) (hi lo : DWord) (r : Reg) :
    (s.reply hi lo).readReg r = s.readReg r := rfl

@[simp] theorem State.readReg_emit (s : State) (t : List Byte) (r : Reg) :
    (s.emit t).readReg r = s.readReg r := rfl

@[simp] theorem State.readReg_takeError (s : State) (op : BitVec 8) (c : ErrorCause) (r : Reg) :
    (s.takeError op c).readReg r = s.readReg r := rfl

/-- The value registers are determined by what reading them gives. -/
theorem State.x_ext {s t : State} (h : ∀ r, t.readReg r = s.readReg r) : t.x = s.x := by
  exact Vector.ext fun i hi => h ⟨i, hi⟩

end Sys2Proof.Machine
end

