-- ==== Sys2Proof/Laws/Memory.lean ====
section
/-! SUPPORT. The string buffer: what reading a byte gives after each update, and that every memory
operation keeps the canonical form. -/
namespace Sys2Proof.Machine

theorem Memory.read_write (m : Memory) (a : Nat) (b : Byte) (k : Nat) :
    (m.write a b).read k = if k = a then some b else m.read k := by
  induction m with
  | nil => simp [Memory.write, Memory.read, eq_comm]
  | cons c m ih =>
    obtain ⟨j, v⟩ := c
    simp only [Memory.write]
    split
    · by_cases hk : k = a <;> simp_all [Memory.read, eq_comm]
    · split
      · subst a; by_cases hk : k = j <;> simp_all [Memory.read, eq_comm]
      · by_cases hk : k = a <;> simp_all [Memory.read, eq_comm]

theorem Memory.mem_write {m : Memory} {a : Nat} {b : Byte} {c : Host.Cell} (h : c ∈ m.write a b) :
    c = (a, b) ∨ c ∈ m := by
  induction m with
  | nil => simpa [Memory.write] using h
  | cons d m ih =>
    obtain ⟨j, v⟩ := d
    simp only [Memory.write] at h
    split at h
    · simpa using h
    · split at h
      · simp only [List.mem_cons] at h ⊢; tauto
      · simp only [List.mem_cons] at h ⊢; tauto

/-- Writing a byte at an address of the string buffer keeps the canonical form. -/
theorem Memory.wf_write {m : Memory} {a : Nat} {b : Byte} (h : Memory.wf m) (ha : a < 256) :
    Memory.wf (m.write a b) := by
  constructor
  · obtain ⟨hp, -⟩ := h
    induction m with
    | nil => simp [Memory.write]
    | cons c m ih =>
      obtain ⟨j, v⟩ := c
      obtain ⟨hj, hm⟩ := List.pairwise_cons.mp hp
      simp only [Memory.write]
      split
      · rename_i hlt
        refine List.pairwise_cons.mpr ⟨fun d hd => ?_, hp⟩
        rcases List.mem_cons.mp hd with rfl | hd
        · exact hlt
        · exact hlt.trans (hj d hd)
      · split
        · subst a; exact List.pairwise_cons.mpr ⟨hj, hm⟩
        · refine List.pairwise_cons.mpr ⟨fun d hd => ?_, ih hm⟩
          rcases Memory.mem_write hd with rfl | hd
          · simp only; omega
          · exact hj d hd
  · intro c hc
    rcases Memory.mem_write hc with rfl | hc
    · exact ha
    · exact h.2 c hc

/-- Writing a text that ends within the string buffer keeps the canonical form. -/
theorem Memory.wf_writeText {m : Memory} {a : Nat} {t : List Byte} (h : Memory.wf m)
    (ha : a + t.length ≤ 256) : Memory.wf (m.writeText a t) := by
  induction t generalizing m a with
  | nil => exact h
  | cons b t ih =>
    simp only [List.length_cons] at ha
    exact ih (Memory.wf_write h (by omega)) (by omega)

/-- Reading after writing a text at `a`: the text where it lies, the byte before elsewhere. -/
theorem Memory.read_writeText (m : Memory) (a : Nat) (t : List Byte) (k : Nat) :
    (m.writeText a t).read k = if a ≤ k ∧ k < a + t.length then t[k - a]? else m.read k := by
  induction t generalizing m a with
  | nil =>
    simp only [Memory.writeText, List.length_nil, Nat.add_zero]
    rw [if_neg (by omega)]
  | cons b t ih =>
    simp only [List.length_cons, Memory.writeText]
    rw [ih, Memory.read_write]
    by_cases h1 : a + 1 ≤ k ∧ k < a + 1 + t.length
    · rw [if_pos h1, if_pos (by omega)]
      obtain ⟨n, rfl⟩ : ∃ n, k = a + 1 + n := ⟨k - (a + 1), by omega⟩
      rw [show a + 1 + n - (a + 1) = n by omega, show a + 1 + n - a = n + 1 by omega]; rfl
    · rw [if_neg h1]
      by_cases h2 : k = a
      · subst k; simp
      · rw [if_neg h2, if_neg (by omega)]

@[simp] theorem State.readByte_writeReg (s : State) (d : Reg) (v : Word) (a : Nat) :
    (s.writeReg d v).readByte a = s.readByte a := rfl

@[simp] theorem State.readByte_respond (s : State) (p : Response) (a : Nat) :
    (s.respond p).readByte a = s.readByte a := rfl

@[simp] theorem State.readByte_done (s : State) (a : Nat) : s.done.readByte a = s.readByte a := rfl

@[simp] theorem State.readByte_reply (s : State) (hi lo : DWord) (a : Nat) :
    (s.reply hi lo).readByte a = s.readByte a := rfl

@[simp] theorem State.readByte_takeError (s : State) (op : BitVec 8) (c : ErrorCause) (a : Nat) :
    (s.takeError op c).readByte a = s.readByte a := rfl

@[simp] theorem State.readByte_writeByte (s : State) (a b : Byte) (k : Nat) :
    (s.writeByte a b).readByte k = if k = a.toNat then some b else s.readByte k :=
  Memory.read_write _ _ _ _

@[simp] theorem State.readByte_emit (s : State) (t : List Byte) (k : Nat) :
    (s.emit t).readByte k = if k < t.length then t[k]? else s.readByte k := by
  have := Memory.read_writeText s.sb 0 t k
  simpa [State.readByte] using this

end Sys2Proof.Machine
end

