-- ==== Sys2Proof/Laws/Operands.lean ====
section
/-! SUPPORT. What each shape of execution can do, said once for each: the lemmas that statements about a
command cite instead of unfolding it. -/
namespace Sys2Proof.Machine

theorem errorStatus_fields (op : BitVec 8) (c : ErrorCause) :
    (errorStatus op c).extractLsb' 8 8 = op ∧ (errorStatus op c).extractLsb' 4 4 = 0 ∧
      (errorStatus op c).extractLsb' 0 4 = c.code := by
  revert op; cases c <;> decide

/-- Taking an error changes `ESR` and the responses only. -/
theorem takeError_takesError (s : State) (op : BitVec 8) (c : ErrorCause) :
    TakesError s (s.takeError op c) op c := by
  obtain ⟨h1, h2, h3⟩ := errorStatus_fields op c
  exact ⟨fun _ => rfl, fun _ => rfl, rfl, h1, h2, h3, rfl, rfl⟩

theorem done_onlyResponds (s : State) : OnlyResponds s s.done okResponse :=
  ⟨fun _ => rfl, fun _ => rfl, rfl, rfl, rfl, rfl⟩

theorem reply_onlyResponds (s : State) (hi lo : DWord) : OnlyResponds s (s.reply hi lo) ⟨.ok, hi, lo⟩ :=
  ⟨fun _ => rfl, fun _ => rfl, rfl, rfl, rfl, rfl⟩

theorem writeReg_writesReg (s : State) (d : Reg) (v : Word) : WritesReg s (s.writeReg d v).done d v :=
  ⟨fun k => by simp, fun _ => rfl, rfl, rfl, rfl, rfl⟩

theorem writeByte_writesByte (s : State) (a b : Byte) : WritesByte s (s.writeByte a b).done a.toNat b :=
  ⟨fun _ => rfl, fun k => by simp, rfl, rfl, rfl, rfl⟩

theorem writeTwo_writesTwoRegs (s : State) {d e : Reg} (h : d ≠ e) (q r : Word) :
    WritesTwoRegs s ((s.writeReg d q).writeReg e r).done d e q r := by
  refine ⟨fun k => ?_, fun _ => rfl, rfl, rfl, rfl, rfl⟩
  simp only [State.readReg_done, State.readReg_writeReg]
  by_cases hd : k = d
  · subst hd; simp [h]
  · simp [hd]

/-- A text that fits the length register is written as `emit` says. -/
theorem emit_writesText (s : State) {t : List Byte} (h : t.length < 256) : WritesText s (s.emit t).done t := by
  refine ⟨fun _ => rfl, fun a => by simp, ?_, rfl, rfl, rfl⟩
  simp only [State.done_slen, State.emit_slen, BitVec.toNat_ofNat]
  omega

theorem setReg_completes (d : Reg) (v : Word) (s : State) : ∃ t, setReg d v s = .next t ∧ WritesReg s t d v :=
  ⟨_, rfl, writeReg_writesReg s d v⟩

theorem unary_completes (d a : Reg) (f : Word → Word) (s : State) :
    ∃ t, unary d a f s = .next t ∧ WritesReg s t d (f (s.readReg a)) :=
  setReg_completes _ _ _

theorem binary_completes (d a b : Reg) (f : Word → Word → Word) (s : State) :
    ∃ t, binary d a b f s = .next t ∧ WritesReg s t d (f (s.readReg a) (s.readReg b)) :=
  setReg_completes _ _ _

/-- A checked computation: the value written, or the error taken. -/
theorem setRegOrError_completes (op : BitVec 8) (d : Reg) (v : Except ErrorCause Word) (s : State) :
    ∃ t, setRegOrError op d v s = .next t ∧
      ((∃ w, v = .ok w ∧ WritesReg s t d w) ∨ ∃ c, v = .error c ∧ TakesError s t op c) := by
  cases v with
  | ok w => exact ⟨_, rfl, .inl ⟨w, rfl, writeReg_writesReg s d w⟩⟩
  | error c => exact ⟨_, rfl, .inr ⟨c, rfl, takeError_takesError s op c⟩⟩

/-- A checked computation of two values, into two different registers. -/
theorem setRegsOrError_completes (op : BitVec 8) {d e : Reg} (h : d ≠ e) (v : Except ErrorCause (Word × Word))
    (s : State) :
    ∃ t, setRegsOrError op d e v s = .next t ∧
      ((∃ q r, v = .ok (q, r) ∧ WritesTwoRegs s t d e q r) ∨ ∃ c, v = .error c ∧ TakesError s t op c) := by
  simp only [setRegsOrError, if_neg h]
  match v with
  | .ok (q, r) => exact ⟨_, rfl, .inl ⟨q, r, rfl, writeTwo_writesTwoRegs s h q r⟩⟩
  | .error c => exact ⟨_, rfl, .inr ⟨c, rfl, takeError_takesError s op c⟩⟩

/-- Everything a parse command can do. -/
theorem parseTo_cases (op : BitVec 8) (signed : Bool) (d : Reg) (base : Byte) (s : State) :
    (badBase base = true ∧ parseTo op signed d base s = .next (s.takeError op .invalidBase)) ∨
    (badBase base = false ∧
      ((∃ v, parse signed base.toNat s.text = .value v ∧ parseTo op signed d base s = .next (s.writeReg d v).done) ∨
       (parse signed base.toNat s.text = .invalidDigit ∧
          parseTo op signed d base s = .next (s.takeError op .invalidDigit)) ∨
       (parse signed base.toNat s.text = .unwritten ∧ parseTo op signed d base s = .fault .unwrittenByte))) := by
  simp only [parseTo]
  cases hb : badBase base with
  | true => exact .inl ⟨rfl, rfl⟩
  | false =>
    refine .inr ⟨rfl, ?_⟩
    cases hp : parse signed base.toNat s.text with
    | value v => exact .inl ⟨v, rfl, by simp [setReg]⟩
    | invalidDigit => exact .inr (.inl ⟨rfl, by simp⟩)
    | unwritten => exact .inr (.inr ⟨rfl, by simp⟩)

/-- Everything a format command can do. -/
theorem formatFrom_cases (op : BitVec 8) (text : Word → Nat → List Byte) (a : Reg) (base : Byte) (s : State) :
    (badBase base = true ∧ formatFrom op text a base s = .next (s.takeError op .invalidBase)) ∨
    (badBase base = false ∧
      formatFrom op text a base s = .next (s.emit (text (s.readReg a) base.toNat)).done) := by
  simp only [formatFrom]
  cases badBase base with
  | true => exact .inl ⟨rfl, rfl⟩
  | false => exact .inr ⟨rfl, rfl⟩

theorem badBase_eq_false {base : Byte} : badBase base = false ↔ LegalBase base := by
  simp only [badBase, LegalBase, Bool.or_eq_false_iff, decide_eq_false_iff_not, not_lt]

theorem badBase_eq_true {base : Byte} : badBase base = true ↔ base.toNat < 2 ∨ 36 < base.toNat := by
  simp only [badBase, Bool.or_eq_true, decide_eq_true_eq]

end Sys2Proof.Machine
end

