-- ==== Sys2Proof/Laws/Limbs.lean ====
section
/-! SUPPORT. The unsigned engine computes the arithmetic of the integers modulo `2^128` (41_uint128.md). -/
namespace Sys2Proof.Machine

/-- A pattern as the number its four limbs are the digits of. -/
theorem toNat_limbs (v : Word) : v.toNat =
    (((limb v 0).toNat * 2 ^ 32 + (limb v 1).toNat) * 2 ^ 32 + (limb v 2).toNat) * 2 ^ 32 + (limb v 3).toNat := by
  have h := v.isLt
  simp only [limb, BitVec.extractLsb'_toNat, Nat.shiftRight_eq_div_pow]
  omega

theorem toNat_ofLimbs (r0 r1 r2 r3 : BitVec 32) : (ofLimbs r0 r1 r2 r3).toNat =
    ((r0.toNat * 2 ^ 32 + r1.toNat) * 2 ^ 32 + r2.toNat) * 2 ^ 32 + r3.toNat := by
  have h1 := r1.isLt; have h2 := r2.isLt; have h3 := r3.isLt
  simp only [ofLimbs, BitVec.toNat_append]
  rw [← Nat.shiftLeft_add_eq_or_of_lt h1, ← Nat.shiftLeft_add_eq_or_of_lt h2, ← Nat.shiftLeft_add_eq_or_of_lt h3]
  simp only [Nat.shiftLeft_eq]

/-- A limb of the adder splits the exact sum. -/
theorem addLimb_split (a b : BitVec 32) (c : Nat) :
    (addLimb a b c).2 * 2 ^ 32 + (addLimb a b c).1.toNat = a.toNat + b.toNat + c := by
  simp only [addLimb, BitVec.toNat_ofNat]
  omega

theorem uadd_eq (a b : Word) : uadd a b = a + b := by
  apply BitVec.eq_of_toNat_eq
  rw [BitVec.toNat_add, uadd, toNat_ofLimbs]
  have e3 := addLimb_split (limb a 3) (limb b 3) 0
  generalize addLimb (limb a 3) (limb b 3) 0 = l3 at *
  have e2 := addLimb_split (limb a 2) (limb b 2) l3.2
  generalize addLimb (limb a 2) (limb b 2) l3.2 = l2 at *
  have e1 := addLimb_split (limb a 1) (limb b 1) l2.2
  generalize addLimb (limb a 1) (limb b 1) l2.2 = l1 at *
  have e0 := addLimb_split (limb a 0) (limb b 0) l1.2
  generalize addLimb (limb a 0) (limb b 0) l1.2 = l0 at *
  have ha := toNat_limbs a
  have hb := toNat_limbs b
  have k0 := l0.1.isLt; have k1 := l1.1.isLt; have k2 := l2.1.isLt; have k3 := l3.1.isLt
  rw [show a.toNat + b.toNat = 2 ^ 128 * l0.2 +
    (((l0.1.toNat * 2 ^ 32 + l1.1.toNat) * 2 ^ 32 + l2.1.toNat) * 2 ^ 32 + l3.1.toNat) by rw [ha, hb]; linarith,
    Nat.mul_add_mod, Nat.mod_eq_of_lt (by omega)]

/-- A limb of the subtractor splits the exact difference. -/
theorem subLimb_split (a b : BitVec 32) (w : Nat) (hw : w ≤ 1) : (subLimb a b w).2 ≤ 1 ∧
    ((subLimb a b w).1.toNat : Int) = a.toNat - b.toNat - w + (subLimb a b w).2 * 2 ^ 32 := by
  have ha := a.isLt; have hb := b.isLt
  simp only [subLimb]
  constructor
  · split <;> omega
  · split
    · rename_i h; simp only [BitVec.toNat_ofInt]; omega
    · rename_i h; simp only [BitVec.toNat_ofInt]; omega

theorem usub_eq (a b : Word) : usub a b = a - b := by
  apply BitVec.eq_of_toNat_eq
  rw [BitVec.toNat_sub, usub, toNat_ofLimbs]
  obtain ⟨c3, e3⟩ := subLimb_split (limb a 3) (limb b 3) 0 (by omega)
  generalize subLimb (limb a 3) (limb b 3) 0 = l3 at *
  obtain ⟨c2, e2⟩ := subLimb_split (limb a 2) (limb b 2) l3.2 c3
  generalize subLimb (limb a 2) (limb b 2) l3.2 = l2 at *
  obtain ⟨c1, e1⟩ := subLimb_split (limb a 1) (limb b 1) l2.2 c2
  generalize subLimb (limb a 1) (limb b 1) l2.2 = l1 at *
  obtain ⟨c0, e0⟩ := subLimb_split (limb a 0) (limb b 0) l1.2 c1
  generalize subLimb (limb a 0) (limb b 0) l1.2 = l0 at *
  have ha := toNat_limbs a
  have hb := toNat_limbs b
  have k0 := l0.1.isLt; have k1 := l1.1.isLt; have k2 := l2.1.isLt; have k3 := l3.1.isLt
  have hA := a.isLt; have hB := b.isLt
  omega

theorem toNat_partialProduct (a b : Word) {i j : Nat} (hi : i < 4) (hj : j < 4) :
    (partialProduct a b i j).toNat = (limb a i).toNat * (limb b j).toNat * 2 ^ (32 * ((3 - i) + (3 - j))) := by
  have ha := (limb a i).isLt; have hb := (limb b j).isLt
  have hp : (limb a i).toNat * (limb b j).toNat < 2 ^ 64 := by
    calc _ < 2 ^ 32 * 2 ^ 32 := Nat.mul_lt_mul'' ha hb
      _ = 2 ^ 64 := by norm_num
  simp only [partialProduct, BitVec.toNat_shiftLeft, BitVec.toNat_setWidth, BitVec.toNat_mul, Nat.shiftLeft_eq]
  rw [Nat.mod_eq_of_lt (show (limb a i).toNat < 2 ^ 64 by omega), Nat.mod_eq_of_lt (show (limb b j).toNat < 2 ^ 64 by omega),
    Nat.mod_eq_of_lt hp, Nat.mod_eq_of_lt (show _ < 2 ^ 256 from hp.trans (by norm_num))]
  apply Nat.mod_eq_of_lt
  calc _ < 2 ^ 64 * 2 ^ (32 * ((3 - i) + (3 - j))) := Nat.mul_lt_mul_of_pos_right hp (by positivity)
    _ = 2 ^ (64 + 32 * ((3 - i) + (3 - j))) := by rw [pow_add]
    _ ≤ 2 ^ 256 := Nat.pow_le_pow_right (by norm_num) (by omega)

theorem umul_eq (a b : Word) : umul a b = a * b := by
  apply BitVec.eq_of_toNat_eq
  have ha := toNat_limbs a
  have hb := toNat_limbs b
  have hr : List.range 4 = [0, 1, 2, 3] := rfl
  simp only [umul, hr, List.foldl, BitVec.extractLsb'_toNat, Nat.shiftRight_zero, zero_add, Nat.zero_lt_succ, BitVec.toNat_add,
    BitVec.toNat_mul, toNat_partialProduct, show (1:ℕ) < 4 by norm_num,
    show (2:ℕ) < 4 by norm_num, show (3:ℕ) < 4 by norm_num, Nat.mod_mod_of_dvd _ (show 2 ^ 128 ∣ 2 ^ 256 from pow_dvd_pow 2 (by norm_num)), Nat.mod_add_mod, ha, hb]
  norm_num
  ring_nf

/-- The loop of the divider, from a partial remainder below the divisor. -/
theorem divideBits_spec (a : Word) (d : Nat) (n : Nat) (q : Word) (r : Nat) (hr : r < d) (hn : n ≤ 128)
    (hq : 2 ^ n ∣ q.toNat) :
    (divideBits a d n q r).1.toNat * d + (divideBits a d n q r).2 = q.toNat * d + r * 2 ^ n + a.toNat % 2 ^ n ∧
      (divideBits a d n q r).2 < d := by
  induction n generalizing q r with
  | zero => simp [divideBits, Nat.mod_one, hr]
  | succ i ih =>
    have hbit : a.toNat % 2 ^ (i + 1) = (a.getLsbD i).toNat * 2 ^ i + a.toNat % 2 ^ i := by
      rw [Nat.mod_pow_succ, BitVec.getLsbD, Nat.toNat_testBit]; ring
    have hd : (2 : ℕ) ^ i ∣ q.toNat := (pow_dvd_pow 2 (Nat.le_succ i)).trans hq
    have hb : (a.getLsbD i).toNat ≤ 1 := Bool.toNat_le _
    simp only [divideBits]
    split
    · rename_i h
      have hqi : (q ||| 1#128 <<< i).toNat = q.toNat + 2 ^ i := by
        obtain ⟨k, hk⟩ := hq
        have hs : (1#128 <<< i).toNat = 2 ^ i := by
          rw [BitVec.toNat_shiftLeft, BitVec.toNat_ofNat, Nat.shiftLeft_eq]
          rw [Nat.mod_eq_of_lt (show (1:ℕ) < 2 ^ 128 by norm_num), one_mul]
          exact Nat.mod_eq_of_lt (Nat.pow_lt_pow_right (by norm_num) (by omega))
        rw [BitVec.toNat_or, hs, hk]
        have := Nat.shiftLeft_add_eq_or_of_lt (show 2 ^ i < 2 ^ (i + 1) from Nat.pow_lt_pow_right (by norm_num) (by omega)) k
        rw [Nat.shiftLeft_eq] at this
        rw [mul_comm, ← this]
      have := ih (q ||| 1#128 <<< i) (2 * r + (a.getLsbD i).toNat - d) (by omega) (by omega)
        (by rw [hqi]; exact Nat.dvd_add hd dvd_rfl)
      refine ⟨?_, this.2⟩
      rw [this.1, hqi, hbit]
      obtain ⟨m, hm⟩ := Nat.exists_eq_add_of_le h
      rw [hm, show d + m - d = m by omega]
      have h2 : (d + m) * 2 ^ i = (2 * r + (a.getLsbD i).toNat) * 2 ^ i := by rw [hm]
      ring_nf at h2 ⊢
      omega
    · rename_i h
      have := ih q (2 * r + (a.getLsbD i).toNat) (by omega) (by omega) hd
      refine ⟨?_, this.2⟩
      rw [this.1, hbit]; ring

theorem udivrem_eq (a b : Word) (h : b.toNat ≠ 0) : udivrem a b = (a / b, a % b) := by
  obtain ⟨he, hlt⟩ := divideBits_spec a b.toNat 128 0 0 (by omega) le_rfl (by simp)
  rw [show (0 : Word).toNat = 0 from rfl, zero_mul, zero_mul, zero_add, zero_add, Nat.mod_eq_of_lt a.isLt] at he
  have hb := b.isLt
  simp only [udivrem]
  generalize divideBits a b.toNat 128 0 0 = qr at *
  have hu : a.toNat / b.toNat = qr.1.toNat ∧ a.toNat % b.toNat = qr.2 :=
    (Nat.div_mod_unique (Nat.pos_of_ne_zero h)).mpr ⟨by rw [← he]; ring, hlt⟩
  ext1
  · apply BitVec.eq_of_toNat_eq; rw [BitVec.toNat_udiv]; exact hu.1.symm
  · apply BitVec.eq_of_toNat_eq
    rw [BitVec.toNat_umod, BitVec.toNat_ofNat, hu.2]
    exact Nat.mod_eq_of_lt (hlt.trans hb)

theorem shl_of_le (a : Word) {n : Nat} (h : n ≤ 127) : shl a n = BitVec.ofNat 128 (a.toNat * 2 ^ n) := by
  apply BitVec.eq_of_toNat_eq
  simp [shl, h, BitVec.toNat_shiftLeft, Nat.shiftLeft_eq]

theorem shl_of_ge (a : Word) {n : Nat} (h : 128 ≤ n) : shl a n = 0 := if_neg (by omega)

theorem shr_of_le (a : Word) {n : Nat} (h : n ≤ 127) : shr a n = BitVec.ofNat 128 (a.toNat / 2 ^ n) := by
  apply BitVec.eq_of_toNat_eq
  simp only [shr, if_pos h, BitVec.toNat_ushiftRight, Nat.shiftRight_eq_div_pow, BitVec.toNat_ofNat]
  exact (Nat.mod_eq_of_lt ((Nat.div_le_self _ _).trans_lt a.isLt)).symm

theorem shr_of_ge (a : Word) {n : Nat} (h : 128 ≤ n) : shr a n = 0 := if_neg (by omega)

/-- The comparator orders the values. -/
theorem ucmp_eq (a b : Word) : ucmp a b = if a.toNat < b.toNat then .lt else if a = b then .eq else .gt := by
  have ha := toNat_limbs a
  have hb := toNat_limbs b
  have h0 := (limb a 0).isLt; have h1 := (limb a 1).isLt; have h2 := (limb a 2).isLt; have h3 := (limb a 3).isLt
  have g0 := (limb b 0).isLt; have g1 := (limb b 1).isLt; have g2 := (limb b 2).isLt; have g3 := (limb b 3).isLt
  simp only [← BitVec.toNat_inj]
  simp only [ucmp, limbList, compareLimbs]
  split_ifs <;> first | rfl | omega

theorem msb_zero : msb 0 = 0 := rfl

/-- The highest set bit brackets a positive number. -/
theorem msb_bounds {n : Nat} (h : n ≠ 0) : 1 ≤ msb n ∧ 2 ^ (msb n - 1) ≤ n ∧ n < 2 ^ msb n := by
  simp only [msb, if_neg h]
  exact ⟨by omega, Nat.log2_self_le h, Nat.lt_log2_self⟩

theorem msb_le_of_lt {n k : Nat} (h : n < 2 ^ k) : msb n ≤ k := by
  by_cases hn : n = 0
  · subst hn; exact Nat.zero_le _
  · obtain ⟨h1, h2, -⟩ := msb_bounds hn
    by_contra hk
    have := Nat.pow_le_pow_right (show 0 < 2 by norm_num) (show k ≤ msb n - 1 by omega)
    omega

end Sys2Proof.Machine
end

