-- ==== Sys2Proof/Laws/Signed.lean ====
section
/-! SUPPORT. The signed wrapper computes on the two's-complement values (42_int128.md). -/
namespace Sys2Proof.Machine

theorem isneg_iff (v : Word) : isneg v = true ↔ v.toInt < 0 := by
  rw [show isneg v = v.msb from (BitVec.msb_eq_getLsbD_last v).symm, BitVec.msb_eq_toInt, decide_eq_true_iff]

/-- A signed value from its unsigned one. -/
theorem toInt_cases (v : Word) :
    (isneg v = false ∧ v.toInt = v.toNat ∧ v.toNat < 2 ^ 127) ∨
    (isneg v = true ∧ v.toInt = (v.toNat : Int) - 2 ^ 128 ∧ 2 ^ 127 ≤ v.toNat) := by
  have h := isneg_iff v
  have hl := v.isLt
  rw [BitVec.toInt_eq_toNat_cond] at *
  cases hn : isneg v <;> simp only [hn, Bool.false_eq_true, false_iff, true_iff] at h
  · left; refine ⟨rfl, ?_⟩; split at h <;> rename_i hc <;> [skip; omega]
    rw [if_pos hc]; exact ⟨rfl, by omega⟩
  · right; refine ⟨rfl, ?_⟩; split at h <;> rename_i hc <;> [omega; skip]
    rw [if_neg hc]; exact ⟨by norm_num, by omega⟩

theorem ineg_eq (a : Word) : ineg a = -a := by
  rw [ineg, uadd_eq, BitVec.neg_eq_not_add]; rfl

theorem iabs_toNat (a : Word) : (iabs a).toNat = a.toInt.natAbs := by
  rcases toInt_cases a with ⟨hn, hi, hl⟩ | ⟨hn, hi, hl⟩
  · rw [iabs, if_neg (by simp [hn]), hi, Int.natAbs_natCast]
  · rw [iabs, if_pos hn, hi, ineg_eq, BitVec.toNat_neg]
    have := a.isLt
    rw [Nat.mod_eq_of_lt (by omega)]
    omega

theorem ofInt_toInt_natAbs (a : Word) : BitVec.ofInt 128 (a.toInt.natAbs : Int) = iabs a := by
  apply BitVec.eq_of_toNat_eq
  rw [iabs_toNat, BitVec.ofInt_natCast, BitVec.toNat_ofNat]
  have := (iabs a).isLt
  rw [iabs_toNat] at this
  exact Nat.mod_eq_of_lt this

theorem iabs_eq (a : Word) : iabs a = if isneg a then -a else a := by
  rw [iabs, ineg_eq]

theorem imul_eq (a b : Word) : imul a b = a * b := by
  simp only [imul, umul_eq, ineg_eq, iabs_eq]
  cases isneg a <;> cases isneg b <;> simp

/-- The signed value of a pattern given with a sign and a magnitude that fits. -/
theorem toInt_signed {m : Word} {neg : Bool} (h : m.toNat < 2 ^ 127 ∨ neg = true ∧ m.toNat ≤ 2 ^ 127) :
    (if neg then ineg m else m).toInt = if neg then -(m.toNat : Int) else m.toNat := by
  cases neg with
  | false =>
    simp only [Bool.false_eq_true, false_and, or_false] at h
    simp only [Bool.false_eq_true, if_false, BitVec.toInt_eq_toNat_cond]
    rw [if_pos (by omega)]
  | true =>
    simp only [if_true, ineg_eq, BitVec.toInt_eq_toNat_cond, BitVec.toNat_neg]
    by_cases h0 : m.toNat = 0
    · simp [h0]
    · have := m.isLt
      rw [Nat.mod_eq_of_lt (by omega)]
      split <;> omega

theorem signed_div (x y : Int) :
    (if (decide (x < 0) ^^ decide (y < 0)) = true then -((x.natAbs / y.natAbs : Nat) : Int)
      else ((x.natAbs / y.natAbs : Nat) : Int)) = x.tdiv y := by
  obtain hx | hx := lt_or_ge x 0 <;> obtain hy | hy := lt_or_ge y 0 <;>
    simp only [hx, hy, decide_true, Bool.xor_self, Bool.false_eq_true, if_false, if_true, decide_false, Bool.xor_false,
      Bool.false_xor, not_lt_of_ge]
  · rw [← Int.neg_tdiv_neg, Int.tdiv_eq_ediv_of_nonneg (by omega), Int.natCast_ediv]
    rw [show (x.natAbs : Int) = -x by omega, show (y.natAbs : Int) = -y by omega]
  · rw [show x = -(-x) by omega, Int.neg_tdiv, Int.tdiv_eq_ediv_of_nonneg (by omega), Int.natCast_ediv]
    rw [show ((- -x).natAbs : Int) = -x by omega, show (y.natAbs : Int) = y by omega]
  · rw [show y = -(-y) by omega, Int.tdiv_neg, Int.tdiv_eq_ediv_of_nonneg (by omega), Int.natCast_ediv]
    rw [show (x.natAbs : Int) = x by omega, show ((- -y).natAbs : Int) = -y by omega]
  · rw [Int.tdiv_eq_ediv_of_nonneg (by omega), Int.natCast_ediv]
    rw [show (x.natAbs : Int) = x by omega, show (y.natAbs : Int) = y by omega]

theorem signed_mod (x y : Int) :
    (if decide (x < 0) = true then -((x.natAbs % y.natAbs : Nat) : Int)
      else ((x.natAbs % y.natAbs : Nat) : Int)) = x.tmod y := by
  obtain hx | hx := lt_or_ge x 0
  · simp only [hx, decide_true, if_true]
    rw [show x = -(-x) by omega, Int.neg_tmod, Int.tmod_eq_emod_of_nonneg (by omega), Int.natCast_emod,
      Int.natCast_natAbs y, Int.emod_abs]
    rw [show ((- -x).natAbs : Int) = -x by omega]
  · simp only [not_lt.mpr hx, decide_false, Bool.false_eq_true, if_false]
    rw [Int.tmod_eq_emod_of_nonneg (by omega), Int.natCast_emod, Int.natCast_natAbs y, Int.emod_abs]
    rw [show (x.natAbs : Int) = x by omega]

/-- Truncating division: the quotient's and the remainder's signed values. -/
theorem idivrem_spec (b e : Word) (he : e ≠ 0) (h : ¬ (b = int128Min ∧ e = BitVec.allOnes 128)) :
    (idivrem b e).1.toInt = b.toInt.tdiv e.toInt ∧ (idivrem b e).2.toInt = b.toInt.tmod e.toInt := by
  have hne : e.toInt ≠ 0 := fun h0 => he (by rw [← BitVec.toInt_inj, h0]; rfl)
  have hem : (iabs e).toNat ≠ 0 := by rw [iabs_toNat]; omega
  have hq : (udivrem (iabs b) (iabs e)).1.toNat = b.toInt.natAbs / e.toInt.natAbs := by
    rw [udivrem_eq _ _ hem, BitVec.toNat_udiv, iabs_toNat, iabs_toNat]
  have hr : (udivrem (iabs b) (iabs e)).2.toNat = b.toInt.natAbs % e.toInt.natAbs := by
    rw [udivrem_eq _ _ hem, BitVec.toNat_umod, iabs_toNat, iabs_toNat]
  have hbb : b.toInt.natAbs ≤ 2 ^ 127 := by
    rcases toInt_cases b with ⟨-, hi, hl⟩ | ⟨-, hi, hl⟩ <;> have := b.isLt <;> omega
  have heb : e.toInt.natAbs ≤ 2 ^ 127 := by
    rcases toInt_cases e with ⟨-, hi, hl⟩ | ⟨-, hi, hl⟩ <;> have := e.isLt <;> omega
  have hqle : b.toInt.natAbs / e.toInt.natAbs ≤ b.toInt.natAbs := Nat.div_le_self _ _
  have hrlt : b.toInt.natAbs % e.toInt.natAbs < e.toInt.natAbs := Nat.mod_lt _ (by omega)
  have hbn : isneg b = decide (b.toInt < 0) := Bool.eq_iff_iff.mpr (by rw [isneg_iff]; simp)
  have hen : isneg e = decide (e.toInt < 0) := Bool.eq_iff_iff.mpr (by rw [isneg_iff]; simp)
  simp only [idivrem]
  constructor
  · rw [toInt_signed, hq, hbn, hen, signed_div]
    · rw [hq]
      by_contra hc
      simp only [not_or, not_and, not_lt] at hc
      obtain ⟨hc1, hc2⟩ := hc
      have hb1 : b.toInt.natAbs = 2 ^ 127 := by omega
      have he1 : e.toInt.natAbs = 1 := by
        by_contra hne1
        have : b.toInt.natAbs / e.toInt.natAbs ≤ b.toInt.natAbs / 2 := Nat.div_le_div_left (by omega) (by norm_num)
        omega
      have hbneg : b.toInt = -2 ^ 127 := by
        rcases toInt_cases b with ⟨-, hi, hl⟩ | ⟨-, hi, hl⟩ <;> omega
      have hx : (isneg b ^^ isneg e) = true → False := fun hx => by
        have := hc2 hx; rw [hb1, he1] at this; norm_num at this
      have heneg : e.toInt = -1 := by
        by_contra hne1
        apply hx; rw [hbn, hen, hbneg]
        have : ¬ e.toInt < 0 := by omega
        simp [this]
      refine h ⟨?_, ?_⟩
      · rw [← BitVec.toInt_inj, hbneg]; rfl
      · rw [← BitVec.toInt_inj, heneg]; rfl
  · rw [toInt_signed, hr, hbn, signed_mod]
    · left; rw [hr]; omega

/-- The arithmetic shift within the width is floor division. -/
theorem sar_toInt (a : Word) {n : Nat} (h : n ≤ 127) : (sar a n).toInt = a.toInt / 2 ^ n := by
  rw [sar, if_pos h, BitVec.toInt_sshiftRight, Int.shiftRight_eq_div_pow]; norm_cast

theorem icmp_eq (a b : Word) : icmp a b = if a.toInt < b.toInt then .lt else if a = b then .eq else .gt := by
  rw [icmp, ucmp_eq]
  simp only [← BitVec.toNat_inj]
  rcases toInt_cases a with ⟨hn, hi, hl⟩ | ⟨hn, hi, hl⟩ <;> rcases toInt_cases b with ⟨gn, gi, gl⟩ | ⟨gn, gi, gl⟩ <;>
    have := a.isLt <;> have := b.isLt <;> rw [hn, gn, hi, gi] <;> simp only [ne_eq, Bool.false_eq_true, Bool.true_eq_false, not_true_eq_false, not_false_eq_true, if_true, if_false] <;>
    split_ifs <;> first | rfl | omega

end Sys2Proof.Machine
end

