-- ==== Sys2Proof/Laws/Radix.lean ====
section
/-! SUPPORT. The radix converter: digits and their characters, the value a scan accumulates, what a parse
answers, and the digits a text is made of (43_radix.md). -/
namespace Sys2Proof.Machine

/-! ## Digits -/

theorem digitValue_digitChar {d : Nat} (h : d < 36) : digitValue (digitChar d) = some d := by
  have : ∀ d : Fin 36, digitValue (digitChar d) = some d.val := by decide
  exact this ⟨d, h⟩

theorem digitValue_plus : digitValue 0x2B = none := by decide

theorem digitValue_minus : digitValue 0x2D = none := by decide

theorem digitValue_lt {c : Byte} {d : Nat} (h : digitValue c = some d) : d < 36 := by
  have : ∀ c : Byte, ∀ d ∈ digitValue c, d < 36 := by decide
  exact this c d h

theorem map_digitValue {ds : List Nat} (h : ∀ d ∈ ds, d < 36) :
    (ds.map digitChar).map digitValue = ds.map some := by
  rw [List.map_map]
  exact List.map_congr_left fun d hd => digitValue_digitChar (h d hd)

theorem positional_append (b : Nat) (ds : List Nat) (r : Nat) :
    positional b (ds ++ [r]) = positional b ds * b + r := by
  induction ds with
  | nil => simp [positional]
  | cons d ds ih => simp only [List.cons_append, positional, ih, List.length_append, List.length_singleton]; ring

theorem positional_lt {b : Nat} {ds : List Nat} (h : ∀ d ∈ ds, d < b) : positional b ds < b ^ ds.length := by
  induction ds with
  | nil => simp [positional]
  | cons d ds ih =>
    have hd := h d (List.mem_cons_self ..)
    have := ih fun x hx => h x (List.mem_cons_of_mem _ hx)
    simp only [positional, List.length_cons, pow_succ]
    nlinarith

/-! ## Parsing -/

/-- The value a scan of digits accumulates. -/
theorem scanDigits_value {b : Nat} {t : List Byte} {ds : List Nat} (ht : t.map digitValue = ds.map some)
    (hd : ∀ d ∈ ds, d < b) (v : Word) :
    scanDigits b v (t.map some) = .value (v * BitVec.ofNat 128 (b ^ ds.length) + BitVec.ofNat 128 (positional b ds)) := by
  induction t generalizing ds v with
  | nil => cases ds <;> simp_all [scanDigits, positional]
  | cons c t ih =>
    cases ds with
    | nil => simp at ht
    | cons d ds =>
      simp only [List.map_cons, List.cons.injEq] at ht
      have hdb : ¬ b ≤ d := by have := hd d (List.mem_cons_self ..); omega
      simp only [List.map_cons, scanDigits, ht.1, if_neg hdb]
      rw [ih ht.2 fun x hx => hd x (List.mem_cons_of_mem _ hx), uadd_eq, umul_eq]
      simp only [positional, List.length_cons, pow_succ, BitVec.ofNat_add, BitVec.ofNat_mul]
      congr 1; ring

/-- A scan of anything but digits of the base. -/
theorem scanDigits_invalid {b : Nat} {t : List Byte}
    (h : ¬ ∃ ds : List Nat, t.map digitValue = ds.map some ∧ ∀ d ∈ ds, d < b) (v : Word) :
    scanDigits b v (t.map some) = .invalidDigit := by
  induction t generalizing v with
  | nil => exact absurd ⟨[], rfl, by simp⟩ h
  | cons c t ih =>
    simp only [List.map_cons, scanDigits]
    cases hc : digitValue c with
    | none => rfl
    | some d =>
      simp only
      split
      · rfl
      · rename_i hdb
        refine ih (fun ⟨ds, h1, h2⟩ => h ⟨d :: ds, by simp [hc, h1], ?_⟩) _
        intro x hx
        rcases List.mem_cons.mp hx with rfl | hx
        · omega
        · exact h2 x hx

theorem scanDigits_unwritten {b : Nat} {v : Word} {t : List (Option Byte)} (h : scanDigits b v t = .unwritten) :
    none ∈ t := by
  induction t generalizing v with
  | nil => simp [scanDigits] at h
  | cons c t ih =>
    cases c with
    | none => exact List.mem_cons_self ..
    | some c =>
      simp only [scanDigits] at h
      split at h
      · cases h
      · split at h
        · cases h
        · exact List.mem_cons_of_mem _ (ih h)

theorem parseDigits_value {b : Nat} {t : List Byte} {ds : List Nat} (hne : ds ≠ [])
    (ht : t.map digitValue = ds.map some) (hd : ∀ d ∈ ds, d < b) :
    parseDigits b (t.map some) = .value (BitVec.ofNat 128 (positional b ds)) := by
  cases t with
  | nil => cases ds <;> simp_all
  | cons c t =>
    have := scanDigits_value ht hd 0
    simpa [parseDigits] using this

theorem parseDigits_invalid {b : Nat} {t : List Byte}
    (h : ¬ ∃ ds : List Nat, ds ≠ [] ∧ t.map digitValue = ds.map some ∧ ∀ d ∈ ds, d < b) :
    parseDigits b (t.map some) = .invalidDigit := by
  cases t with
  | nil => rfl
  | cons c t =>
    refine scanDigits_invalid (fun ⟨ds, h1, h2⟩ => h ⟨ds, ?_, h1, h2⟩) 0
    rintro rfl
    simp at h1

theorem parseDigits_unwritten {b : Nat} {t : List (Option Byte)} (h : parseDigits b t = .unwritten) : none ∈ t := by
  cases t with
  | nil => cases h
  | cons c t => exact scanDigits_unwritten h

theorem Parsed.negate_eq_unwritten {p : Parsed} (h : p.negate = .unwritten) : p = .unwritten := by
  cases p <;> simp_all [Parsed.negate]

/-- A parse comes to an unwritten byte only where the text has one. -/
theorem parse_unwritten {signed : Bool} {b : Nat} {t : List (Option Byte)} (h : parse signed b t = .unwritten) :
    none ∈ t := by
  unfold parse at h
  split at h
  · split at h
    · exact List.mem_cons_of_mem _ (parseDigits_unwritten h)
    · split at h
      · exact List.mem_cons_of_mem _ (parseDigits_unwritten (Parsed.negate_eq_unwritten h))
      · exact parseDigits_unwritten h
  · exact parseDigits_unwritten h

/-- A first character that is a digit is no sign. -/
theorem digit_ne_sign {c : Byte} {d : Nat} (h : digitValue c = some d) : c ≠ 0x2B ∧ c ≠ 0x2D := by
  constructor <;> rintro rfl
  · rw [digitValue_plus] at h; cases h
  · rw [digitValue_minus] at h; cases h

/-- What a parse answers for a number text. -/
theorem parse_number {signed : Bool} {b : Nat} {t : List Byte} {neg : Bool} {ds : List Nat}
    (h : IsNumber signed b t neg ds) :
    parse signed b (t.map some) =
      .value (BitVec.ofInt 128 (if neg then -(positional b ds : Int) else positional b ds)) := by
  obtain ⟨body, hs, hne, hm, hd⟩ := h
  have hv := parseDigits_value hne hm hd
  rcases hs with ⟨rfl, rfl | rfl⟩ | ⟨rfl, rfl, rfl⟩
  · cases t with
    | nil => cases ds <;> simp_all
    | cons c t =>
      cases ds with
      | nil => exact absurd rfl hne
      | cons d ds =>
        obtain ⟨h1, h2⟩ := digit_ne_sign (List.cons.inj hm).1
        simp only [List.map_cons, parse, if_neg h1, h2, false_and, if_false]
        rw [← List.map_cons, hv]
        simp
  · simp only [List.map_cons, parse, if_true, hv]
    simp
  · simp only [List.map_cons, parse]
    rw [if_neg (by decide), if_pos (by simp), hv]
    simp [Parsed.negate, ineg_eq, BitVec.ofInt_neg]

/-- What a parse answers for any other text. -/
theorem parse_other {signed : Bool} {b : Nat} {t : List Byte} (h : ¬ ∃ neg ds, IsNumber signed b t neg ds) :
    parse signed b (t.map some) = .invalidDigit := by
  have hbody : ∀ body, t = body → parseDigits b (body.map some) = .invalidDigit := fun body hb =>
    parseDigits_invalid fun ⟨ds, h1, h2, h3⟩ => h ⟨false, ds, body, .inl ⟨rfl, .inl hb⟩, h1, h2, h3⟩
  have hplus : ∀ body, t = 0x2B :: body → parseDigits b (body.map some) = .invalidDigit := fun body hb =>
    parseDigits_invalid fun ⟨ds, h1, h2, h3⟩ => h ⟨false, ds, body, .inl ⟨rfl, .inr hb⟩, h1, h2, h3⟩
  have hminus : signed = true → ∀ body, t = 0x2D :: body → parseDigits b (body.map some) = .invalidDigit :=
    fun hs body hb =>
      parseDigits_invalid fun ⟨ds, h1, h2, h3⟩ => h ⟨true, ds, body, .inr ⟨hs, rfl, hb⟩, h1, h2, h3⟩
  cases t with
  | nil => rfl
  | cons c t =>
    simp only [List.map_cons, parse]
    split
    · rename_i hc; exact hplus t (by rw [hc])
    · split
      · rename_i hc; rw [hminus hc.2 t (by rw [hc.1])]; rfl
      · exact hbody (c :: t) rfl

/-! ## Formatting -/

theorem toNat_base {b : Nat} (h : b ≤ 36) : (BitVec.ofNat 128 b : Word).toNat = b := by
  rw [BitVec.toNat_ofNat, Nat.mod_eq_of_lt (by omega)]

/-- The characters that repeated division collects are the digits, least significant first. -/
theorem digits_spec {b : Nat} (hb : 2 ≤ b) (hb' : b ≤ 36) (n : Nat) (v : Word) (hv : v.toNat < b ^ n) (h0 : v ≠ 0) :
    ∃ ds, digits (BitVec.ofNat 128 b) n v = (ds.map digitChar).reverse ∧ IsDigitsOf b v.toNat ds ∧
      ds.length ≤ n := by
  induction n generalizing v with
  | zero => exact absurd (BitVec.eq_of_toNat_eq (by simpa using hv)) h0
  | succ n ih =>
    have hB := toNat_base hb'
    have hq : (v / BitVec.ofNat 128 b).toNat = v.toNat / b := by rw [BitVec.toNat_udiv, hB]
    have hr : (v % BitVec.ofNat 128 b).toNat = v.toNat % b := by rw [BitVec.toNat_umod, hB]
    have hv0 : v.toNat ≠ 0 := fun h => h0 (BitVec.eq_of_toNat_eq h)
    simp only [digits, if_neg h0, udivrem_eq v _ (show (BitVec.ofNat 128 b : Word).toNat ≠ 0 by rw [hB]; omega)]
    have hrb := Nat.mod_lt v.toNat (show 0 < b by omega)
    have hdm := Nat.div_add_mod v.toNat b
    by_cases hz : v / BitVec.ofNat 128 b = 0
    · refine ⟨[v.toNat % b], ?_, ⟨by simp, by simpa using hrb, fun h => by simpa using h, ?_⟩, by simp⟩
      · rw [hz, hr]; cases n <;> simp [digits]
      · have : v.toNat / b = 0 := by rw [← hq, hz]; rfl
        simp only [positional, List.length_nil, pow_zero, mul_one, add_zero]
        rw [this] at hdm; omega
    · obtain ⟨ds, h1, ⟨h2, h3, h4, h5⟩, h6⟩ := ih (v / BitVec.ofNat 128 b)
        (by rw [hq]; rw [pow_succ] at hv; exact Nat.div_lt_of_lt_mul (by rw [mul_comm]; exact hv)) hz
      refine ⟨ds ++ [v.toNat % b], ?_, ⟨by simp, ?_, ?_, ?_⟩, by simpa using h6⟩
      · rw [h1, hr]; simp
      · intro d hd
        rcases List.mem_append.mp hd with hd | hd
        · exact h3 d hd
        · rw [List.mem_singleton.mp hd]; exact hrb
      · intro hh
        cases ds with
        | nil => exact absurd rfl h2
        | cons d ds =>
          have hd0 : d = 0 := by simpa using hh
          have := h4 (by simp [hd0])
          rw [this] at h5
          simp only [positional, List.length_nil, pow_zero, mul_one, add_zero] at h5
          exact absurd (BitVec.eq_of_toNat_eq h5.symm) hz
      · rw [positional_append, h5, hq]; rw [mul_comm]; exact hdm

/-- The text of a value: its digits. -/
theorem utext_spec {b : Nat} (hb : 2 ≤ b) (hb' : b ≤ 36) (v : Word) :
    ∃ ds, utext v b = ds.map digitChar ∧ IsDigitsOf b v.toNat ds ∧ ds.length ≤ 128 := by
  by_cases h0 : v = 0
  · subst h0
    exact ⟨[0], rfl, ⟨by simp, by simp; omega, fun _ => rfl, rfl⟩, by simp⟩
  · have hv : v.toNat < b ^ 128 := v.isLt.trans_le (Nat.pow_le_pow_left hb 128)
    obtain ⟨ds, h1, h2, h3⟩ := digits_spec hb hb' 128 v hv h0
    exact ⟨ds, by rw [utext, if_neg h0, h1, List.reverse_reverse], h2, h3⟩

/-- The text of a signed value: the digits of its magnitude, after `-` if it is negative. -/
theorem itext_spec {b : Nat} (hb : 2 ≤ b) (hb' : b ≤ 36) (v : Word) :
    ∃ ds, itext v b = (if v.toInt < 0 then 0x2D :: ds.map digitChar else ds.map digitChar) ∧
      IsDigitsOf b v.toInt.natAbs ds ∧ ds.length ≤ 128 := by
  obtain ⟨ds, h1, h2, h3⟩ := utext_spec hb hb' (iabs v)
  refine ⟨ds, ?_, by rwa [← iabs_toNat], h3⟩
  rw [itext]
  by_cases hn : isneg v = true
  · rw [if_pos hn, if_pos ((isneg_iff v).mp hn), h1]
  · rw [if_neg hn, if_neg (fun h => hn ((isneg_iff v).mpr h))]
    rw [iabs, if_neg hn] at h1; exact h1

theorem decimal_spec {b : Nat} (hb : b ≤ 36) :
    ∃ ds, decimal b = ds.map digitChar ∧ IsDigitsOf 10 b ds ∧ ds.length ≤ 2 := by
  unfold decimal
  by_cases h : b ≤ 9
  · exact ⟨[b], by simp [h], ⟨by simp, by simp; omega, fun hh => by simpa using hh, by simp [positional]⟩, by simp⟩
  · refine ⟨[b / 10, b % 10], by simp [h], ⟨by simp, ?_, ?_, ?_⟩, by simp⟩
    · intro d hd; simp only [List.mem_cons, List.not_mem_nil, or_false] at hd; omega
    · intro hh; simp only [List.head?_cons, Option.some.injEq] at hh; omega
    · simp only [positional, List.length_cons, List.length_nil]; omega

theorem udebug_length {b : Nat} (hb : 2 ≤ b) (hb' : b ≤ 36) (v : Word) : (udebug v b).length < 256 := by
  obtain ⟨ds, h1, -, h2⟩ := utext_spec hb hb' v
  obtain ⟨es, h3, -, h4⟩ := decimal_spec hb'
  simp only [udebug, h1, h3, List.length_append, List.length_map, udebugHead, debugMiddle, List.length_cons, List.length_nil]
  omega

theorem idebug_length {b : Nat} (hb : 2 ≤ b) (hb' : b ≤ 36) (v : Word) : (idebug v b).length < 256 := by
  obtain ⟨ds, h1, -, h2⟩ := itext_spec hb hb' v
  obtain ⟨es, h3, -, h4⟩ := decimal_spec hb'
  simp only [idebug, h1, h3, List.length_append, List.length_map, idebugHead, debugMiddle, List.length_cons, List.length_nil]
  split <;> simp only [List.length_cons, List.length_map] <;> omega

end Sys2Proof.Machine
end

