-- ==== Sys2Proof/Laws/Exec.lean ====
section
/-! SUPPORT. What executing a command can do, said once for all commands, and the data word of `LDI`. -/
namespace Sys2Proof.Machine

/-- The commands that can raise an error (60_exceptions.md R280). -/
def raisers : ErrorCause → List Op
  | .invalidDigit => [.uparse, .iparse]
  | .invalidBase => [.uparse, .iparse, .ufmt, .ifmt, .udebug, .idebug]
  | .divisionByZero => [.udiv, .urem, .udivrem, .idiv, .irem, .fdiv, .fmod]
  | .overflow => [.idiv, .irem, .unarrow, .inarrow, .ftod, .fldexp]
  | .illegalCommand => []

/-- What executing command `i` in state `s` can answer. -/
inductive Effect (i : Instr) (s : State) : Result → Prop where
  | responds (hi lo : DWord) (h : i.op ∉ [Op.rd, .sbr, .slenr, .esrr] → hi = 0 ∧ lo = 0) :
      Effect i s (.next (s.reply hi lo))
  | writesReg (d : Reg) (v : Word) : Effect i s (.next (s.writeReg d v).done)
  | writesTwo (d e : Reg) (q r : Word) : Effect i s (.next ((s.writeReg d q).writeReg e r).done)
  | writesByte (a b : Byte) : Effect i s (.next (s.writeByte a b).done)
  | setsLength (n : Byte) : Effect i s (.next ({ s with slen := n } : State).done)
  | clearsErrorStatus (h : i.op = .esrc) : Effect i s (.next ({ s with esr := 0 } : State).done)
  | emits (t : List Byte) (h : t.length < 256) : Effect i s (.next (s.emit t).done)
  | errs (c : ErrorCause) (h : i.op ∈ raisers c) : Effect i s (.next (s.takeError i.op.code c))
  | unwritten (a : Nat) (h : s.readByte a = none)
      (hi : i = .sbr (BitVec.ofNat 8 a) ∧ a < 256 ∨
        (∃ d base, (i = .uparse d base ∨ i = .iparse d base) ∧ LegalBase base) ∧ a < s.slen.toNat) :
      Effect i s (.fault .unwrittenByte)

theorem setRegOrError_effect {i : Instr} {op : BitVec 8} (s : State) (d : Reg) (v : Except ErrorCause Word)
    (hop : op = i.op.code) (h : ∀ c, v = .error c → i.op ∈ raisers c) : Effect i s (setRegOrError op d v s) := by
  subst hop
  cases v with
  | ok w => exact .writesReg d w
  | error c => exact .errs c (h c rfl)

theorem setRegsOrError_effect {i : Instr} {op : BitVec 8} (s : State) {d e : Reg} (hd : d ≠ e)
    (v : Except ErrorCause (Word × Word)) (hop : op = i.op.code) (h : ∀ c, v = .error c → i.op ∈ raisers c) :
    Effect i s (setRegsOrError op d e v s) := by
  subst hop
  simp only [setRegsOrError, if_neg hd]
  match v with
  | .ok (q, r) => exact .writesTwo d e q r
  | .error c => exact .errs c (h c rfl)

/-- A byte of the current string that nothing has written. -/
theorem unwritten_of_text {s : State} (h : none ∈ s.text) : ∃ a, s.readByte a = none ∧ a < s.slen.toNat := by
  simp only [State.text, List.mem_map, List.mem_range] at h
  obtain ⟨a, ha, hr⟩ := h
  exact ⟨a, hr, ha⟩

theorem parseTo_effect {i : Instr} {op : BitVec 8} (signed : Bool) (d : Reg) (base : Byte) (s : State)
    (hop : op = i.op.code) (hi : i = .uparse d base ∨ i = .iparse d base) :
    Effect i s (parseTo op signed d base s) := by
  subst hop
  have hb : i.op ∈ raisers .invalidBase ∧ i.op ∈ raisers .invalidDigit := by
    rcases hi with rfl | rfl <;> simp [Instr.op, raisers]
  rcases parseTo_cases i.op.code signed d base s with ⟨-, h⟩ | ⟨hl, ⟨v, -, h⟩ | ⟨-, h⟩ | ⟨hu, h⟩⟩ <;> rw [h]
  · exact .errs _ hb.1
  · exact .writesReg d v
  · exact .errs _ hb.2
  · obtain ⟨a, ha, hs⟩ := unwritten_of_text (parse_unwritten hu)
    exact .unwritten a ha (.inr ⟨⟨d, base, hi, badBase_eq_false.mp hl⟩, hs⟩)

theorem formatFrom_effect {i : Instr} {op : BitVec 8} (text : Word → Nat → List Byte) (a : Reg) (base : Byte)
    (s : State) (hop : op = i.op.code) (hi : i.op ∈ raisers .invalidBase)
    (ht : ∀ v, LegalBase base → (text v base.toNat).length < 256) : Effect i s (formatFrom op text a base s) := by
  subst hop
  rcases formatFrom_cases i.op.code text a base s with ⟨-, h⟩ | ⟨hl, h⟩ <;> rw [h]
  · exact .errs _ hi
  · exact .emits _ (ht _ (badBase_eq_false.mp hl))

theorem checkedDivRem_error {a b : Word} {c : ErrorCause} (h : checkedDivRem a b = .error c) : c = .divisionByZero := by
  unfold checkedDivRem at h; split at h <;> cases h; rfl

theorem checkedSignedDivRem_error {a b : Word} {c : ErrorCause} (h : checkedSignedDivRem a b = .error c) :
    c = .divisionByZero ∨ c = .overflow := by
  unfold checkedSignedDivRem at h; split_ifs at h <;> cases h <;> simp

theorem map_error {α β : Type} {f : α → β} {v : Except ErrorCause α} {c : ErrorCause} (h : v.map f = .error c) :
    v = .error c := by
  cases v with
  | ok a => cases h
  | error d => cases h; rfl

theorem utext_length {b : Nat} (h : 2 ≤ b) (h' : b ≤ 36) (v : Word) : (utext v b).length < 256 := by
  obtain ⟨ds, h1, -, h2⟩ := utext_spec h h' v
  rw [h1, List.length_map]; omega

theorem itext_length {b : Nat} (h : 2 ≤ b) (h' : b ≤ 36) (v : Word) : (itext v b).length < 256 := by
  obtain ⟨ds, h1, -, h2⟩ := itext_spec h h' v
  rw [h1]; split <;> simp only [List.length_cons, List.length_map] <;> omega

/-- What executing a command can do. -/
theorem exec_effect (i : Instr) (s : State) (hw : i.wellFormed = true) : Effect i s (exec i s) := by
  cases i <;> simp only [exec]
  case nop => exact .responds 0 0 fun _ => ⟨rfl, rfl⟩
  case rd a => exact .responds _ _ (by simp [Instr.op])
  case sbw imm dlo => exact .writesByte _ _
  case sbr imm =>
    simp only [execSbr]
    cases h : s.readByte imm.toNat with
    | some b => exact .responds _ _ (by simp [Instr.op])
    | none => exact .unwritten imm.toNat h (.inl ⟨by simp, imm.isLt⟩)
  case slenw imm => exact .setsLength imm
  case slenr => exact .responds _ _ (by simp [Instr.op])
  case esrr => exact .responds _ _ (by simp [Instr.op])
  case esrc => exact .clearsErrorStatus rfl
  case unarrow =>
    exact setRegOrError_effect s _ _ rfl fun c h => by
      unfold unarrow at h; split_ifs at h; cases h; simp [Instr.op, raisers]
  case inarrow =>
    exact setRegOrError_effect s _ _ rfl fun c h => by
      unfold inarrow at h; split_ifs at h; cases h; simp [Instr.op, raisers]
  case udiv => exact setRegOrError_effect s _ _ rfl fun c h => by rw [checkedDivRem_error (map_error h)]; simp [Instr.op, raisers]
  case urem => exact setRegOrError_effect s _ _ rfl fun c h => by rw [checkedDivRem_error (map_error h)]; simp [Instr.op, raisers]
  case udivrem d e a b =>
    exact setRegsOrError_effect s (by simpa [Instr.wellFormed] using hw) _ rfl fun c h => by
      rw [checkedDivRem_error h]; simp [Instr.op, raisers]
  case idiv =>
    exact setRegOrError_effect s _ _ rfl fun c h => by
      rcases checkedSignedDivRem_error (map_error h) with rfl | rfl <;> simp [Instr.op, raisers]
  case irem =>
    exact setRegOrError_effect s _ _ rfl fun c h => by
      rcases checkedSignedDivRem_error (map_error h) with rfl | rfl <;> simp [Instr.op, raisers]
  case uparse d base => exact parseTo_effect false d base s rfl (.inl rfl)
  case iparse d base => exact parseTo_effect true d base s rfl (.inr rfl)
  case ufmt a base => exact formatFrom_effect _ a base s rfl (by simp [Instr.op, raisers]) fun v h => utext_length h.1 h.2 v
  case ifmt a base => exact formatFrom_effect _ a base s rfl (by simp [Instr.op, raisers]) fun v h => itext_length h.1 h.2 v
  case udebug a base => exact formatFrom_effect _ a base s rfl (by simp [Instr.op, raisers]) fun v h => udebug_length h.1 h.2 v
  case idebug a base => exact formatFrom_effect _ a base s rfl (by simp [Instr.op, raisers]) fun v h => idebug_length h.1 h.2 v
  case ftod =>
    exact setRegOrError_effect s _ _ rfl fun c h => by
      have h := map_error h
      simp only [toDouble] at h; split_ifs at h; cases h; simp [Instr.op, raisers]
  case ffrexp d e a =>
    exact setRegsOrError_effect s (by simpa [Instr.wellFormed] using hw) _ rfl fun c h => by cases h
  case fldexp =>
    exact setRegOrError_effect s _ _ rfl fun c h => by
      simp only [ldexp] at h; split_ifs at h; cases h; simp [Instr.op, raisers]
  case fdiv =>
    exact setRegOrError_effect s _ _ rfl fun c h => by
      simp only [fdiv] at h; split_ifs at h; cases h; simp [Instr.op, raisers]
  case fmod =>
    exact setRegOrError_effect s _ _ rfl fun c h => by
      simp only [fmod] at h; split_ifs at h; cases h; simp [Instr.op, raisers]
  all_goals exact .writesReg _ _

/-! ## Assembled data words -/

/-- `LDI`'s data word: every constant in two's complement of 64 bits. -/
@[simp] theorem signedData_w64 (n : Int) : signedData .w64 n = BitVec.ofInt 64 n := by
  unfold signedData
  split
  · exact BitVec.setWidth_eq _
  · rfl

end Sys2Proof.Machine
end

