-- ==== Sys2Proof/Laws/Float.lean ====
section
/-! SUPPORT. The Float128 fields, classes, packing and values (44_float128_format.md), and the loops of the
divider (45_float128_arith.md). -/
namespace Sys2Proof.Machine

/-! ## Fields -/

theorem toNat_ofBool_append {n : Nat} (s : Bool) (v : BitVec n) :
    (BitVec.ofBool s ++ v).toNat = s.toNat * 2 ^ n + v.toNat := by
  rw [BitVec.toNat_append, ← Nat.shiftLeft_add_eq_or_of_lt v.isLt, Nat.shiftLeft_eq, BitVec.toNat_ofBool]

/-- A pattern as a number, from its three fields. -/
theorem toNat_fields (v : Word) :
    v.toNat = (fsign v).toNat * 2 ^ 127 + fexp v * 2 ^ 112 + (ffrac v).toNat := by
  have h := v.isLt
  have hs : (fsign v).toNat = v.toNat / 2 ^ 127 % 2 := by
    rw [fsign, BitVec.getLsbD, Nat.toNat_testBit]
  rw [hs]
  simp only [fexp, ffrac, BitVec.extractLsb'_toNat, Nat.shiftRight_eq_div_pow]
  omega

theorem fexp_lt (v : Word) : fexp v < 2 ^ 15 := (v.extractLsb' 112 15).isLt

theorem ffrac_lt (v : Word) : (ffrac v).toNat < 2 ^ 112 := (ffrac v).isLt

theorem fmag_eq (v : Word) : fmag v = fexp v * 2 ^ 112 + (ffrac v).toNat := by
  have h := toNat_fields v
  have := fexp_lt v; have := ffrac_lt v
  simp only [fmag, BitVec.extractLsb'_toNat, Nat.shiftRight_zero]
  have := Bool.toNat_le (fsign v)
  omega

/-- Patterns with the same fields are the same. -/
theorem eq_of_fields {v w : Word} (hs : fsign v = fsign w) (he : fexp v = fexp w) (hf : ffrac v = ffrac w) :
    v = w := by
  apply BitVec.eq_of_toNat_eq
  rw [toNat_fields v, toNat_fields w, hs, he, hf]

theorem toNat_fmake (s : Bool) (e : BitVec 15) (f : BitVec 112) :
    (fmake s e f).toNat = s.toNat * 2 ^ 127 + e.toNat * 2 ^ 112 + f.toNat := by
  have hf := f.isLt; have he := e.isLt
  simp only [fmake, BitVec.toNat_append, BitVec.toNat_ofBool]
  rw [← Nat.shiftLeft_add_eq_or_of_lt hf, ← Nat.shiftLeft_add_eq_or_of_lt he]
  simp only [Nat.shiftLeft_eq]
  ring

/-- The fields of an assembled pattern. -/
theorem fmake_fields (s : Bool) (e : BitVec 15) (f : BitVec 112) :
    fsign (fmake s e f) = s ∧ fexp (fmake s e f) = e.toNat ∧ ffrac (fmake s e f) = f := by
  have h := toNat_fmake s e f
  have h' := toNat_fields (fmake s e f)
  have hf := f.isLt; have he := e.isLt
  have he' := fexp_lt (fmake s e f); have hf' := ffrac_lt (fmake s e f)
  rw [h] at h'
  have hs : (fsign (fmake s e f)).toNat = s.toNat := by
    have := Bool.toNat_le s; have := Bool.toNat_le (fsign (fmake s e f)); omega
  rw [hs] at h'
  refine ⟨?_, by omega, ?_⟩
  · revert hs; cases fsign (fmake s e f) <;> cases s <;> simp
  · rw [← BitVec.toNat_inj]; omega

@[simp] theorem fsign_fmake (s : Bool) (e : BitVec 15) (f : BitVec 112) : fsign (fmake s e f) = s :=
  (fmake_fields s e f).1

@[simp] theorem fexp_fmake (s : Bool) (e : BitVec 15) (f : BitVec 112) : fexp (fmake s e f) = e.toNat :=
  (fmake_fields s e f).2.1

@[simp] theorem ffrac_fmake (s : Bool) (e : BitVec 15) (f : BitVec 112) : ffrac (fmake s e f) = f :=
  (fmake_fields s e f).2.2

/-! ## Classes -/

theorem isZero_iff (v : Word) : isZero v = true ↔ fexp v = 0 ∧ ffrac v = 0 := by
  simp [isZero]

theorem isInfinite_iff (v : Word) : isInfinite v = true ↔ fexp v = 32767 ∧ ffrac v = 0 := by
  simp [isInfinite]

theorem isNaN_iff (v : Word) : isNaN v = true ↔ fexp v = 32767 ∧ ffrac v ≠ 0 := by
  simp [isNaN]

theorem ftag_zero_iff (v : Word) : ftag v = .zero ↔ isZero v = true := by
  unfold ftag; split_ifs <;> simp_all

theorem ftag_infinity_iff (v : Word) : ftag v = .infinity ↔ isInfinite v = true := by
  unfold ftag; split_ifs with h1 h2 <;> simp_all
  simp only [isZero_iff, ← Bool.not_eq_true, isInfinite_iff] at *; omega

theorem ftag_nan_iff (v : Word) : ftag v = .nan ↔ isNaN v = true := by
  unfold ftag; split_ifs with h1 h2 h3 <;> simp_all
  · simp only [isZero_iff, ← Bool.not_eq_true, isNaN_iff] at *; tauto
  · simp only [isInfinite_iff, ← Bool.not_eq_true, isNaN_iff] at *; tauto

/-- A pattern is Normal iff it is no zero and its exponent is not all ones. -/
theorem ftag_normal_iff (v : Word) : ftag v = .normal ↔ ¬ (fexp v = 0 ∧ ffrac v = 0) ∧ fexp v ≠ 32767 := by
  unfold ftag; split_ifs with h1 h2 h3
  · simp_all [isZero_iff]
  · simp_all [isInfinite_iff]
  · simp_all [isNaN_iff]
  · simp only [isZero_iff, isInfinite_iff, isNaN_iff] at h1 h2 h3
    simp only [true_iff]; tauto

theorem isSpecial_iff (v : Word) : isSpecial v = true ↔ ftag v ≠ .normal := by
  simp [isSpecial]

/-- A Normal pattern is a power of two iff its mantissa field is 0. -/
theorem isPowerOf2_normal {v : Word} (h : ftag v = .normal) : isPowerOf2 v = true ↔ ffrac v = 0 := by
  obtain ⟨h1, h2⟩ := (ftag_normal_iff v).mp h
  have := fexp_lt v
  simp only [isPowerOf2, Bool.and_eq_true, decide_eq_true_eq]
  constructor
  · exact fun h => h.1.1
  · intro hf; refine ⟨⟨hf, ?_⟩, ?_⟩
    · by_contra; exact h1 ⟨by omega, hf⟩
    · omega

/-! ## Packing -/

theorem finf_fields (s : Bool) : fsign (finf s) = s ∧ fexp (finf s) = 32767 ∧ ffrac (finf s) = 0 := by
  simp [finf]

theorem fzero_fields (s : Bool) : fsign (fzero s) = s ∧ fexp (fzero s) = 0 ∧ ffrac (fzero s) = 0 := by
  simp [fzero]

theorem toNat_ofInt15 {e : Int} (h0 : 0 ≤ e) (h1 : e < 32768) : ((BitVec.ofInt 15 e).toNat : Int) = e := by
  rw [BitVec.toNat_ofInt]; omega

/-- Packing gives what the statements call packed. -/
theorem pack_isPacked (s : Bool) (e : Int) {m : Nat} (h1 : 2 ^ 112 ≤ m) (h2 : m < 2 ^ 113) :
    IsPacked s e m (pack s e m) := by
  unfold pack
  split
  · rename_i h
    obtain ⟨a, b, c⟩ := finf_fields s
    exact ⟨a, fun _ => ⟨b, c⟩, fun _ => by omega, fun _ _ => by omega⟩
  · split
    · obtain ⟨a, b, c⟩ := fzero_fields s
      exact ⟨a, fun _ => by omega, fun _ => ⟨b, c⟩, fun _ _ => by omega⟩
    · refine ⟨by simp, fun _ => by omega, fun _ => by omega, fun _ _ => ⟨?_, ?_⟩⟩
      · rw [fexp_fmake]; exact toNat_ofInt15 (by omega) (by omega)
      · rw [ffrac_fmake, BitVec.toNat_ofNat]; omega

/-- The fraction is taken modulo `2^112`: the implicit leading one may be given or not. -/
theorem pack_implicit (s : Bool) (e : Int) (f : Nat) : pack s e f = pack s e (2 ^ 112 + f) := by
  unfold pack
  congr 3
  apply BitVec.eq_of_toNat_eq
  simp

/-- What is packed is determined. -/
theorem IsPacked.unique {s : Bool} {e : Int} {m : Nat} {v w : Word} (hv : IsPacked s e m v)
    (hw : IsPacked s e m w) : v = w := by
  obtain ⟨v1, v2, v3, v4⟩ := hv
  obtain ⟨w1, w2, w3, w4⟩ := hw
  have hs : fsign v = fsign w := v1.trans w1.symm
  by_cases h1 : 32767 ≤ e
  · exact eq_of_fields hs ((v2 h1).1.trans (w2 h1).1.symm) ((v2 h1).2.trans (w2 h1).2.symm)
  · by_cases h0 : e ≤ 0
    · exact eq_of_fields hs ((v3 h0).1.trans (w3 h0).1.symm) ((v3 h0).2.trans (w3 h0).2.symm)
    · obtain ⟨a, b⟩ := v4 (by omega) (by omega)
      obtain ⟨c, d⟩ := w4 (by omega) (by omega)
      exact eq_of_fields hs (by omega) (BitVec.eq_of_toNat_eq (by omega))

/-- A packed pattern in range is Normal and has the value of its sign, exponent and significand. -/
theorem IsPacked.value {s : Bool} {e : Int} {m : Nat} {v : Word} (h : IsPacked s e m v) (h0 : 0 < e)
    (h1 : e < 32767) :
    ftag v = .normal ∧ fsign v = s ∧ fval v = signFactor s * m * (2 : ℚ) ^ (e - 16383 - 112) := by
  obtain ⟨a, -, -, hd⟩ := h
  obtain ⟨he, hm⟩ := hd h0 h1
  refine ⟨(ftag_normal_iff v).mpr ⟨fun h => by omega, by omega⟩, a, ?_⟩
  rw [fval, a, signif, hm, he]

/-! ## Values -/

theorem signif_bounds (v : Word) : 2 ^ 112 ≤ signif v ∧ signif v < 2 ^ 113 := by
  have := ffrac_lt v
  simp only [signif]; omega

theorem abs_signFactor (s : Bool) : |signFactor s| = 1 := by
  cases s <;> simp [signFactor]

theorem signFactor_xor (s t : Bool) : signFactor (s ^^ t) = signFactor s * signFactor t := by
  cases s <;> cases t <;> simp [signFactor]

/-- The magnitude of a value. -/
theorem abs_fval (v : Word) : |fval v| = signif v * (2 : ℚ) ^ ((fexp v : ℤ) - 16383 - 112) := by
  rw [fval, abs_mul, abs_mul, abs_signFactor, one_mul, Nat.abs_cast, abs_of_pos (by positivity)]

/-- The order of magnitudes is the order of the exponent and mantissa as one number (44_float128_format.md R204). -/
theorem fmag_lt_iff (v w : Word) : fmag v < fmag w ↔ |fval v| < |fval w| := by
  have key : ∀ v w : Word, fmag v < fmag w → |fval v| < |fval w| := by
    intro v w h
    rw [fmag_eq, fmag_eq] at h
    rw [abs_fval, abs_fval]
    have hv := ffrac_lt v; have hw := ffrac_lt w
    obtain ⟨a, b⟩ := signif_bounds v
    obtain ⟨c, d⟩ := signif_bounds w
    by_cases he : fexp v = fexp w
    · rw [he]
      have : signif v < signif w := by simp only [signif]; omega
      exact mul_lt_mul_of_pos_right (by exact_mod_cast this) (by positivity)
    · have hlt : fexp v + 1 ≤ fexp w := by omega
      calc (signif v : ℚ) * 2 ^ ((fexp v : ℤ) - 16383 - 112)
          < 2 ^ 113 * 2 ^ ((fexp v : ℤ) - 16383 - 112) :=
            mul_lt_mul_of_pos_right (by exact_mod_cast b) (by positivity)
        _ = 2 ^ 112 * (2 : ℚ) ^ (((fexp v + 1 : ℕ) : ℤ) - 16383 - 112) := by
            rw [show ((fexp v + 1 : ℕ) : ℤ) - 16383 - 112 = ((fexp v : ℤ) - 16383 - 112) + 1 by push_cast; ring,
              zpow_add₀ (by norm_num), zpow_one]; ring
        _ ≤ 2 ^ 112 * (2 : ℚ) ^ ((fexp w : ℤ) - 16383 - 112) := by
            apply mul_le_mul_of_nonneg_left _ (by positivity)
            exact zpow_le_zpow_right₀ (by norm_num) (by omega)
        _ ≤ signif w * 2 ^ ((fexp w : ℤ) - 16383 - 112) :=
            mul_le_mul_of_nonneg_right (by exact_mod_cast c) (by positivity)
  refine ⟨key v w, fun h => ?_⟩
  by_contra hc
  rcases (not_lt.mp hc).lt_or_eq with hlt | heq
  · exact absurd (key w v hlt) (not_lt.mpr h.le)
  · have he : fexp v = fexp w := by
      rw [fmag_eq, fmag_eq] at heq; have := ffrac_lt v; have := ffrac_lt w; omega
    have hf : (ffrac v).toNat = (ffrac w).toNat := by rw [fmag_eq, fmag_eq, he] at heq; omega
    rw [abs_fval, abs_fval, signif, signif, he, hf] at h
    exact lt_irrefl _ h

/-! ## Dividers -/

/-- The long division of significands: the quotient bits of `r / m`. -/
theorem fdivBits_spec {m : Nat} (hm : 0 < m) (n q r : Nat) (hr : r < 2 * m) :
    fdivBits m n q r = q + r * 2 ^ n / (2 * m) := by
  induction n generalizing q r with
  | zero => simp [fdivBits, Nat.div_eq_of_lt hr]
  | succ i ih =>
    simp only [fdivBits]
    split
    · rename_i h
      rw [ih _ _ (by rw [Nat.shiftLeft_eq]; omega), Nat.shiftLeft_eq, add_assoc]
      congr 1
      obtain ⟨k, rfl⟩ := Nat.exists_eq_add_of_le h
      rw [show m + k - m = k by omega, show (m + k) * 2 ^ (i + 1) = k * 2 ^ 1 * 2 ^ i + 2 ^ i * (2 * m) by ring,
        Nat.add_mul_div_right _ _ (by omega)]
      ring
    · rename_i h
      rw [ih _ _ (by rw [Nat.shiftLeft_eq]; omega), Nat.shiftLeft_eq]
      congr 2; ring

/-- Normalising by the leading-zero count of a 113-bit field. -/
theorem normalise {m : Nat} (h0 : m ≠ 0) (h1 : m < 2 ^ 113) :
    msb m ≤ 113 ∧ 2 ^ 112 ≤ m <<< (113 - msb m) ∧ m <<< (113 - msb m) < 2 ^ 113 := by
  obtain ⟨a, b, c⟩ := msb_bounds h0
  have hle := msb_le_of_lt h1
  refine ⟨hle, ?_, ?_⟩ <;> rw [Nat.shiftLeft_eq]
  · calc 2 ^ 112 = 2 ^ (msb m - 1) * 2 ^ (113 - msb m) := by rw [← pow_add]; congr 1; omega
      _ ≤ _ := Nat.mul_le_mul_right _ b
  · calc _ < 2 ^ msb m * 2 ^ (113 - msb m) := Nat.mul_lt_mul_of_pos_right c (by positivity)
      _ = 2 ^ 113 := by rw [← pow_add]; congr 1; omega

end Sys2Proof.Machine
end

