-- ==== Sys2Proof/Tests/Slice0.lean ====
section
/-! SUPPORT. Tests: ill-formed terms refused, every constructor's decoding from a word written out from the
spec, one step of every command with the expected result of the rule named, and for every statement
with hypotheses a state and operands that meet them. -/
namespace Sys2Proof.Tests
open Sys2Proof Sys2Proof.Machine

/-! ## Helpers -/

/-- The command a packet decodes to. -/
def decoded (cw : BitVec 32) (dhi dlo : DWord) : Option Instr :=
  match decode ⟨cw, dhi, dlo⟩ with
  | .ok i => some i
  | .error _ => none

/-- Two source registers set. -/
def st (v0 v1 : Word) : State := (State.reset.writeReg 0 v0).writeReg 1 v1

/-- A current string. -/
def holding (t : List Byte) : State := State.reset.emit t

/-- An error recorded. -/
def afterError (e : BitVec 16) : State := { State.reset with esr := e }

/-- A next packet presented. -/
def presenting (cw : BitVec 32) : State := { State.reset with hostInput := [.packet ⟨cw, 0, 0⟩] }

def reg (r : Result) (k : Reg) : Option Word :=
  match r with
  | .next t => some (t.readReg k)
  | _ => none

def response (r : Result) : Option Response :=
  match r with
  | .next t => t.responses.getLast?
  | _ => none

def esr (r : Result) : Option (BitVec 16) :=
  match r with
  | .next t => some t.esr
  | _ => none

def text (r : Result) : Option (List (Option Byte)) :=
  match r with
  | .next t => some t.text
  | _ => none

/-! ## Well-formedness -/

theorem test_udivrem_one_destination_ill_formed : Instr.wellFormed (.udivrem 2 2 0 1) = false := by decide
theorem test_ffrexp_one_destination_ill_formed : Instr.wellFormed (.ffrexp 1 1 0) = false := by decide
theorem test_udivrem_word_refused : decoded 0x15201200 0 0 = none := by decide
theorem test_ffrexp_word_refused : decoded 0x43100100 0 0 = none := by decide

/-! ## Decoding: the words of the rules' own examples, by the places of 30_encoding.md R61 -/

/-- R90 -/
theorem test_decode_nop : decoded 0x00000000 7 9 = some (.nop) := by decide
/-- R91 -/
theorem test_decode_ldp : decoded 0x01100000 0x8000000000000000 3 = some (.ldp 1 0x8000000000000000 3) := by decide
/-- R92 -/
theorem test_decode_ldz : decoded 0x02200000 0 0x1FF = some (.ldz 2 .w8 0x1FF) := by decide
/-- R93, R100 -/
theorem test_decode_lds : decoded 0x03300003 0 0xFF = some (.lds 3 .w64 0xFF) := by decide
/-- R94 -/
theorem test_decode_rd : decoded 0x04010000 0 0 = some (.rd 1) := by decide
/-- R95 -/
theorem test_decode_mov : decoded 0x05210000 0 0 = some (.mov 2 1) := by decide
/-- R96 -/
theorem test_decode_sbw : decoded 0x060000FF 0 0x37 = some (.sbw 255 0x37) := by decide
/-- R97 -/
theorem test_decode_sbr : decoded 0x07000000 0 0 = some (.sbr 0) := by decide
/-- R98 -/
theorem test_decode_slenw : decoded 0x08000003 0 0 = some (.slenw 3) := by decide
/-- R99 -/
theorem test_decode_slenr : decoded 0x09000000 0 0 = some (.slenr) := by decide
/-- R101 -/
theorem test_decode_esrr : decoded 0x0A000000 0 0 = some (.esrr) := by decide
/-- R102 -/
theorem test_decode_esrc : decoded 0x0B000000 0 0 = some (.esrc) := by decide
/-- R103, R100 -/
theorem test_decode_unarrow : decoded 0x0C100002 0 0 = some (.unarrow 1 0 .w32) := by decide
/-- R104, R100 -/
theorem test_decode_inarrow : decoded 0x0D100001 0 0 = some (.inarrow 1 0 .w16) := by decide
/-- R111 -/
theorem test_decode_uadd : decoded 0x10201000 0 0 = some (.uadd 2 0 1) := by decide
/-- R113 -/
theorem test_decode_usub : decoded 0x11201000 0 0 = some (.usub 2 0 1) := by decide
/-- R115 -/
theorem test_decode_umul : decoded 0x12201000 0 0 = some (.umul 2 0 1) := by decide
/-- R117 -/
theorem test_decode_udiv : decoded 0x13201000 0 0 = some (.udiv 2 0 1) := by decide
/-- R118 -/
theorem test_decode_urem : decoded 0x14201000 0 0 = some (.urem 2 0 1) := by decide
/-- R119 -/
theorem test_decode_udivrem : decoded 0x15201300 0 0 = some (.udivrem 2 3 0 1) := by decide
/-- R121 -/
theorem test_decode_ushl : decoded 0x16201000 0 0 = some (.ushl 2 0 1) := by decide
/-- R122 -/
theorem test_decode_ushr : decoded 0x17201000 0 0 = some (.ushr 2 0 1) := by decide
/-- R123 -/
theorem test_decode_ushli : decoded 0x18100001 0 0 = some (.ushli 1 0 1) := by decide
/-- R124 -/
theorem test_decode_ushri : decoded 0x19100040 0 0 = some (.ushri 1 0 64) := by decide
/-- R130 -/
theorem test_decode_and : decoded 0x1A201000 0 0 = some (.and 2 0 1) := by decide
/-- R131 -/
theorem test_decode_or : decoded 0x1B201000 0 0 = some (.or 2 0 1) := by decide
/-- R132 -/
theorem test_decode_xor : decoded 0x1C201000 0 0 = some (.xor 2 0 1) := by decide
/-- R133 -/
theorem test_decode_not : decoded 0x1D100000 0 0 = some (.not 1 0) := by decide
/-- R127 -/
theorem test_decode_ucmp : decoded 0x1E201000 0 0 = some (.ucmp 2 0 1) := by decide
/-- R129 -/
theorem test_decode_umsb : decoded 0x1F100000 0 0 = some (.umsb 1 0) := by decide
/-- R142 -/
theorem test_decode_ineg : decoded 0x20100000 0 0 = some (.ineg 1 0) := by decide
/-- R144 -/
theorem test_decode_iabs : decoded 0x21100000 0 0 = some (.iabs 1 0) := by decide
/-- R146 -/
theorem test_decode_imul : decoded 0x22201000 0 0 = some (.imul 2 0 1) := by decide
/-- R148 -/
theorem test_decode_idiv : decoded 0x23201000 0 0 = some (.idiv 2 0 1) := by decide
/-- R149 -/
theorem test_decode_irem : decoded 0x24201000 0 0 = some (.irem 2 0 1) := by decide
/-- R151 -/
theorem test_decode_ishr : decoded 0x25201000 0 0 = some (.ishr 2 0 1) := by decide
/-- R152 -/
theorem test_decode_ishri : decoded 0x26100004 0 0 = some (.ishri 1 0 4) := by decide
/-- R154 -/
theorem test_decode_icmp : decoded 0x27201000 0 0 = some (.icmp 2 0 1) := by decide
/-- R174 -/
theorem test_decode_uparse : decoded 0x30100010 0 0 = some (.uparse 1 16) := by decide
/-- R175 -/
theorem test_decode_iparse : decoded 0x31100002 0 0 = some (.iparse 1 2) := by decide
/-- R180 -/
theorem test_decode_ufmt : decoded 0x32000010 0 0 = some (.ufmt 0 16) := by decide
/-- R182 -/
theorem test_decode_ifmt : decoded 0x3300000A 0 0 = some (.ifmt 0 10) := by decide
/-- R185 -/
theorem test_decode_udebug : decoded 0x34000010 0 0 = some (.udebug 0 16) := by decide
/-- R186 -/
theorem test_decode_idebug : decoded 0x35000010 0 0 = some (.idebug 0 16) := by decide
/-- R209 -/
theorem test_decode_fclass : decoded 0x40100000 0 0 = some (.fclass 1 0) := by decide
/-- R210 -/
theorem test_decode_ffromd : decoded 0x41100000 0 0 = some (.ffromd 1 0) := by decide
/-- R213 -/
theorem test_decode_ftod : decoded 0x42100000 0 0 = some (.ftod 1 0) := by decide
/-- R217 -/
theorem test_decode_ffrexp : decoded 0x43100200 0 0 = some (.ffrexp 1 2 0) := by decide
/-- R219 -/
theorem test_decode_fldexp : decoded 0x44201000 0 0 = some (.fldexp 2 0 1) := by decide
/-- R222 -/
theorem test_decode_fcmp : decoded 0x45201000 0 0 = some (.fcmp 2 0 1) := by decide
/-- R244 -/
theorem test_decode_fmul : decoded 0x46201000 0 0 = some (.fmul 2 0 1) := by decide
/-- R249 -/
theorem test_decode_fadd : decoded 0x47201000 0 0 = some (.fadd 2 0 1) := by decide
/-- R252 -/
theorem test_decode_fdiv : decoded 0x48201000 0 0 = some (.fdiv 2 0 1) := by decide
/-- R255 -/
theorem test_decode_fmod : decoded 0x49201000 0 0 = some (.fmod 2 0 1) := by decide
/-- R64, R66 -/
theorem test_reserved_words_refused : decoded 0x0E000000 0 0 = none ∧ decoded 0x10201001 0 0 = none ∧
    decoded 0x4A000000 0 0 = none := by decide

/-! ## One step of each command -/

/-- R90 -/
theorem test_nop_answers : response (exec (.nop) (st 5 6)) = some ⟨.ok, 0, 0⟩ := by decide
/-- R91 -/
theorem test_ldp_high_half : reg (exec (.ldp 1 0x8000000000000000 0) (st 0 0)) 1 = some 0x80000000000000000000000000000000 := by decide
/-- R92 -/
theorem test_ldz_cuts : reg (exec (.ldz 2 .w8 0x1FF) (st 0 0)) 2 = some 0xFF := by decide
/-- R92 -/
theorem test_ldz_64_not_signed : reg (exec (.ldz 2 .w64 0xFFFFFFFFFFFFFFFF) (st 0 0)) 2 = some 0xFFFFFFFFFFFFFFFF := by decide
/-- R93 -/
theorem test_lds_extends : reg (exec (.lds 3 .w8 0xFF) (st 0 0)) 3 = some 0xFFFFFFFFFFFFFFFFFFFFFFFFFFFFFFFF := by decide
/-- R93 -/
theorem test_lds_64 : reg (exec (.lds 3 .w64 0x8000000000000000) (st 0 0)) 3 = some 0xFFFFFFFFFFFFFFFF8000000000000000 := by decide
/-- R94 -/
theorem test_rd_halves : response (exec (.rd 1) (st 0 0x00000000000000010000000000000002)) = some ⟨.ok, 1, 2⟩ := by decide
/-- R95 -/
theorem test_mov_copies : reg (exec (.mov 2 1) (st 0 0xFFFFFFFFFFFFFFFFFFFFFFFFFFFFFFFF)) 2 = some 0xFFFFFFFFFFFFFFFFFFFFFFFFFFFFFFFF := by decide
/-- R96 -/
theorem test_sbw_writes : (match exec (.sbw 0 0x1137) (st 0 0) with | .next t => t.readByte 0 | _ => none) = some 0x37 := by decide
/-- R97 -/
theorem test_sbr_reads : response (exec (.sbr 0) (holding [0x37])) = some ⟨.ok, 0, 0x37⟩ := by decide
/-- R98 -/
theorem test_slenw_sets : (match exec (.slenw 3) (st 0 0) with | .next t => some t.slen | _ => none) = some 3 := by decide
/-- R99 -/
theorem test_slenr_reads : response (exec (.slenr) (holding [0x30])) = some ⟨.ok, 0, 1⟩ := by decide
/-- R101 -/
theorem test_esrr_reads : response (exec (.esrr) (afterError 0x1303)) = some ⟨.ok, 0, 0x1303⟩ := by decide
/-- R102 -/
theorem test_esrc_clears : esr (exec .esrc (afterError 0x1303)) = some 0 := by decide
/-- R103 -/
theorem test_unarrow_fits : reg (exec (.unarrow 1 0 .w8) (st 255 0)) 1 = some 255 := by decide
/-- R103, R284 -/
theorem test_unarrow_overflows : response (exec (.unarrow 1 0 .w8) (st 256 0)) = some ⟨.error .overflow, 0, 0⟩ ∧ esr (exec (.unarrow 1 0 .w8) (st 256 0)) = some 0x0C04 := by decide
/-- R104 -/
theorem test_inarrow_fits : reg (exec (.inarrow 1 0 .w8) (st 0xFFFFFFFFFFFFFFFFFFFFFFFFFFFFFF80 0)) 1 = some 0xFFFFFFFFFFFFFFFFFFFFFFFFFFFFFF80 := by decide
/-- R104, R284 -/
theorem test_inarrow_overflows : response (exec (.inarrow 1 0 .w8) (st 128 0)) = some ⟨.error .overflow, 0, 0⟩ ∧ esr (exec (.inarrow 1 0 .w8) (st 128 0)) = some 0x0D04 := by decide
/-- R111 -/
theorem test_uadd_carries : reg (exec (.uadd 2 0 1) (st 0xFFFFFFFFFFFFFFFF 1)) 2 = some 0x10000000000000000 := by decide
/-- R111 -/
theorem test_uadd_wraps : reg (exec (.uadd 1 1 0) (st 1 0xFFFFFFFFFFFFFFFFFFFFFFFFFFFFFFFF)) 1 = some 0 := by decide
/-- R113 -/
theorem test_usub_borrows : reg (exec (.usub 2 0 1) (st 0x10000000000000000 1)) 2 = some 0xFFFFFFFFFFFFFFFF := by decide
/-- R115 -/
theorem test_umul_drops_high : reg (exec (.umul 2 0 1) (st 0x10000000000000003 0x10000000000000005)) 2 = some 0x0000000000000008000000000000000F := by decide
/-- R115 -/
theorem test_umul_max : reg (exec (.umul 2 0 1) (st 0xFFFFFFFFFFFFFFFFFFFFFFFFFFFFFFFF 0xFFFFFFFFFFFFFFFFFFFFFFFFFFFFFFFF)) 2 = some 1 := by decide
/-- R117 -/
theorem test_udiv_max_by_ten : reg (exec (.udiv 2 0 1) (st 0xFFFFFFFFFFFFFFFFFFFFFFFFFFFFFFFF 10)) 2 = some 0x19999999999999999999999999999999 := by decide
/-- R117, R283 -/
theorem test_udiv_by_zero : response (exec (.udiv 2 0 1) (st 0 0)) = some ⟨.error .divisionByZero, 0, 0⟩ ∧ esr (exec (.udiv 2 0 1) (st 0 0)) = some 0x1303 := by decide
/-- R118 -/
theorem test_urem_max_by_ten : reg (exec (.urem 2 0 1) (st 0xFFFFFFFFFFFFFFFFFFFFFFFFFFFFFFFF 10)) 2 = some 5 := by decide
/-- R119, R315 -/
theorem test_udivrem_over_sources : reg (exec (.udivrem 0 1 0 1) (st 1000 7)) 0 = some 142 ∧ reg (exec (.udivrem 0 1 0 1) (st 1000 7)) 1 = some 6 := by decide
/-- R121 -/
theorem test_ushl_crosses_limbs : reg (exec (.ushl 2 0 1) (st 0x80000001 33)) 2 = some 0x00000000000000010000000200000000 := by decide
/-- R121, R125 -/
theorem test_ushl_huge_amount : reg (exec (.ushl 2 0 1) (st 1 0xFFFFFFFFFFFFFFFFFFFFFFFFFFFFFFFF)) 2 = some 0 := by decide
/-- R122 -/
theorem test_ushr_logical : reg (exec (.ushr 2 0 1) (st 0x80000000000000000000000000000000 127)) 2 = some 1 := by decide
/-- R123 -/
theorem test_ushli_one : reg (exec (.ushli 1 0 1) (st 0xFFFFFFFFFFFFFFFFFFFFFFFFFFFFFFFF 0)) 1 = some 0xFFFFFFFFFFFFFFFFFFFFFFFFFFFFFFFE := by decide
/-- R124 -/
theorem test_ushri_64 : reg (exec (.ushri 1 0 64) (st 0x00000001000000020000000300000004 0)) 1 = some 0x0000000100000002 := by decide
/-- R130 -/
theorem test_and_bits : reg (exec (.and 2 0 1) (st 0xFFFF0000FFFF0000FFFF0000FFFF0000 0x0FF00FF00FF00FF00FF00FF00FF00FF0)) 2 = some 0x0FF000000FF000000FF000000FF00000 := by decide
/-- R131 -/
theorem test_or_bits : reg (exec (.or 2 0 1) (st 0xFFFF0000FFFF0000FFFF0000FFFF0000 0x0FF00FF00FF00FF00FF00FF00FF00FF0)) 2 = some 0xFFFF0FF0FFFF0FF0FFFF0FF0FFFF0FF0 := by decide
/-- R132 -/
theorem test_xor_bits : reg (exec (.xor 2 0 1) (st 0xFFFF0000FFFF0000FFFF0000FFFF0000 0x0FF00FF00FF00FF00FF00FF00FF00FF0)) 2 = some 0xF00F0FF0F00F0FF0F00F0FF0F00F0FF0 := by decide
/-- R133 -/
theorem test_not_bits : reg (exec (.not 1 0) (st 0 0)) 1 = some 0xFFFFFFFFFFFFFFFFFFFFFFFFFFFFFFFF := by decide
/-- R127 -/
theorem test_ucmp_limb_one : reg (exec (.ucmp 2 0 1) (st 0x10000000000000000 0xFFFFFFFFFFFFFFFF)) 2 = some 2 := by decide
/-- R129 -/
theorem test_umsb_65 : reg (exec (.umsb 1 0) (st 0x10000000000000000 0)) 1 = some 65 := by decide
/-- R142 -/
theorem test_ineg_one : reg (exec (.ineg 1 0) (st 1 0)) 1 = some 0xFFFFFFFFFFFFFFFFFFFFFFFFFFFFFFFF := by decide
/-- R142 -/
theorem test_ineg_min : reg (exec (.ineg 1 0) (st 0x80000000000000000000000000000000 0)) 1 = some 0x80000000000000000000000000000000 := by decide
/-- R144 -/
theorem test_iabs_minus_five : reg (exec (.iabs 1 0) (st 0xFFFFFFFFFFFFFFFFFFFFFFFFFFFFFFFB 0)) 1 = some 5 := by decide
/-- R146 -/
theorem test_imul_signs : reg (exec (.imul 2 0 1) (st 0xFFFFFFFFFFFFFFFFFFFFFFFFFFFFFFFD 7)) 2 = some 0xFFFFFFFFFFFFFFFFFFFFFFFFFFFFFFEB := by decide
/-- R148 -/
theorem test_idiv_truncates : reg (exec (.idiv 2 0 1) (st 0xFFFFFFFFFFFFFFFFFFFFFFFFFFFFFFF9 2)) 2 = some 0xFFFFFFFFFFFFFFFFFFFFFFFFFFFFFFFD := by decide
/-- R148, R284 -/
theorem test_idiv_min_by_minus_one : response (exec (.idiv 2 0 1) (st 0x80000000000000000000000000000000 0xFFFFFFFFFFFFFFFFFFFFFFFFFFFFFFFF)) = some ⟨.error .overflow, 0, 0⟩ ∧ esr (exec (.idiv 2 0 1) (st 0x80000000000000000000000000000000 0xFFFFFFFFFFFFFFFFFFFFFFFFFFFFFFFF)) = some 0x2304 := by decide
/-- R149 -/
theorem test_irem_dividend_sign : reg (exec (.irem 2 0 1) (st 0xFFFFFFFFFFFFFFFFFFFFFFFFFFFFFFF9 2)) 2 = some 0xFFFFFFFFFFFFFFFFFFFFFFFFFFFFFFFF := by decide
/-- R149, C5 -/
theorem test_irem_min_by_minus_one : response (exec (.irem 2 0 1) (st 0x80000000000000000000000000000000 0xFFFFFFFFFFFFFFFFFFFFFFFFFFFFFFFF)) = some ⟨.error .overflow, 0, 0⟩ ∧ esr (exec (.irem 2 0 1) (st 0x80000000000000000000000000000000 0xFFFFFFFFFFFFFFFFFFFFFFFFFFFFFFFF)) = some 0x2404 := by decide
/-- R151 -/
theorem test_ishr_minus_two : reg (exec (.ishr 2 0 1) (st 0xFFFFFFFFFFFFFFFFFFFFFFFFFFFFFFFE 1)) 2 = some 0xFFFFFFFFFFFFFFFFFFFFFFFFFFFFFFFF := by decide
/-- R152 -/
theorem test_ishri_min : reg (exec (.ishri 1 0 4) (st 0x80000000000000000000000000000000 0)) 1 = some 0xF8000000000000000000000000000000 := by decide
/-- R154 -/
theorem test_icmp_min_max : reg (exec (.icmp 2 0 1) (st 0x80000000000000000000000000000000 0x7FFFFFFFFFFFFFFFFFFFFFFFFFFFFFFF)) 2 = some 1 := by decide
/-- R174 -/
theorem test_uparse_ff : reg (exec (.uparse 1 16) (holding [0x66, 0x66])) 1 = some 255 := by decide
/-- R174, R281 -/
theorem test_uparse_minus : response (exec (.uparse 1 10) (holding [0x2d, 0x31])) = some ⟨.error .invalidDigit, 0, 0⟩ ∧ esr (exec (.uparse 1 10) (holding [0x2d, 0x31])) = some 0x3001 := by decide
/-- R175 -/
theorem test_iparse_minus_two : reg (exec (.iparse 1 2) (holding [0x2d, 0x31, 0x30])) 1 = some 0xFFFFFFFFFFFFFFFFFFFFFFFFFFFFFFFE := by decide
/-- R288 -/
theorem test_iparse_base_first : response (exec (.iparse 1 1) (holding [])) = some ⟨.error .invalidBase, 0, 0⟩ ∧ esr (exec (.iparse 1 1) (holding [])) = some 0x3102 := by decide
/-- R180 -/
theorem test_ufmt_ff : text (exec (.ufmt 0 16) (st 255 0)) = some ([0x66, 0x66].map some) := by decide
/-- R182 -/
theorem test_ifmt_minus_255 : text (exec (.ifmt 0 10) (st 0xFFFFFFFFFFFFFFFFFFFFFFFFFFFFFF01 0)) = some ([0x2d, 0x32, 0x35, 0x35].map some) := by decide
/-- R185 -/
theorem test_udbg_ff : text (exec (.udebug 0 16) (st 255 0)) = some ([0x55, 0x49, 0x6e, 0x74, 0x31, 0x32, 0x38, 0x28, 0x22, 0x66, 0x66, 0x22, 0x2c, 0x62, 0x61, 0x73, 0x65, 0x3a, 0x31, 0x36, 0x29].map some) := by decide
/-- R186 -/
theorem test_idbg_minus_ff : text (exec (.idebug 0 16) (st 0xFFFFFFFFFFFFFFFFFFFFFFFFFFFFFF01 0)) = some ([0x49, 0x6e, 0x74, 0x31, 0x32, 0x38, 0x28, 0x22, 0x2d, 0x66, 0x66, 0x22, 0x2c, 0x62, 0x61, 0x73, 0x65, 0x3a, 0x31, 0x36, 0x29].map some) := by decide
/-- R209 -/
theorem test_fclass_four : reg (exec (.fclass 1 0) (st 0x40010000000000000000000000000000 0)) 1 = some 0x70 := by decide
/-- R209 -/
theorem test_fclass_nan_sign : reg (exec (.fclass 1 0) (st 0xFFFF8000000000000000000000000000 0)) 1 = some 0x44 := by decide
/-- R210 -/
theorem test_ffromd_third : reg (exec (.ffromd 1 0) (st 0x3FD5555555555555 0)) 1 = some 0x3FFD5555555555555000000000000000 := by decide
/-- R210 -/
theorem test_ffromd_least : reg (exec (.ffromd 1 0) (st 1 0)) 1 = some 0x3BCD0000000000000000000000000000 := by decide
/-- R213 -/
theorem test_ftod_truncates : reg (exec (.ftod 1 0) (st 0x3FFD5555555555555FFFFFFFFFFFFFFF 0)) 1 = some 0x3FD5555555555555 := by decide
/-- R213, R284 -/
theorem test_ftod_overflows : response (exec (.ftod 1 0) (st 0x43FF0000000000000000000000000000 0)) = some ⟨.error .overflow, 0, 0⟩ ∧ esr (exec (.ftod 1 0) (st 0x43FF0000000000000000000000000000 0)) = some 0x4204 := by decide
/-- R217 -/
theorem test_ffrexp_minus_two_and_a_half : reg (exec (.ffrexp 1 2 0) (st 0xC0004000000000000000000000000000 0)) 1 = some 0xBFFE4000000000000000000000000000 ∧ reg (exec (.ffrexp 1 2 0) (st 0xC0004000000000000000000000000000 0)) 2 = some 2 := by decide
/-- R219 -/
theorem test_fldexp_768 : reg (exec (.fldexp 2 0 1) (st 0x3FFE8000000000000000000000000000 10)) 2 = some 0x40088000000000000000000000000000 := by decide
/-- R219, R284 -/
theorem test_fldexp_overflows : response (exec (.fldexp 2 0 1) (st 0x3FFE8000000000000000000000000000 16385)) = some ⟨.error .overflow, 0, 0⟩ ∧ esr (exec (.fldexp 2 0 1) (st 0x3FFE8000000000000000000000000000 16385)) = some 0x4404 := by decide
/-- R222 -/
theorem test_fcmp_negatives : reg (exec (.fcmp 2 0 1) (st 0xBFFF0000000000000000000000000000 0xC0000000000000000000000000000000)) 2 = some 2 := by decide
/-- R222 -/
theorem test_fcmp_zeros : reg (exec (.fcmp 2 0 1) (st 0 0x80000000000000000000000000000000)) 2 = some 0 := by decide
/-- R244 -/
theorem test_fmul_shifts : reg (exec (.fmul 2 0 1) (st 0x3FFF8000000000000000000000000000 0x3FFF8000000000000000000000000000)) 2 = some 0x40002000000000000000000000000000 := by decide
/-- R244 -/
theorem test_fmul_fast_path : reg (exec (.fmul 2 0 1) (st 0xC0010000000000000000000000000000 0x3FFF0000000000000000000000001001)) 2 = some 0xC0010000000000000000000000001001 := by decide
/-- R249 -/
theorem test_fadd_cancels : reg (exec (.fadd 2 0 1) (st 0x3FFF8000000000000000000000000000 0xBFFF4000000000000000000000000000)) 2 = some 0x3FFD0000000000000000000000000000 := by decide
/-- R249 -/
theorem test_fadd_loses_low_bit : reg (exec (.fadd 2 0 1) (st 0x40000000000000000000000000000000 0xBFFFFFFFFFFFFFFFFFFFFFFFFFFFFFFF)) 2 = some 0x3F900000000000000000000000000000 := by decide
/-- R252 -/
theorem test_fdiv_third : reg (exec (.fdiv 2 0 1) (st 0x3FFF0000000000000000000000000000 0x40008000000000000000000000000000)) 2 = some 0x3FFD5555555555555555555555555555 := by decide
/-- R252 -/
theorem test_fdiv_nan_by_zero : response (exec (.fdiv 2 0 1) (st 0x7FFF8000000000000000000000000000 0x80000000000000000000000000000000)) = some ⟨.error .divisionByZero, 0, 0⟩ ∧ esr (exec (.fdiv 2 0 1) (st 0x7FFF8000000000000000000000000000 0x80000000000000000000000000000000)) = some 0x4803 := by decide
/-- R255 -/
theorem test_fmod_exact : reg (exec (.fmod 2 0 1) (st 0x4001E000000000000000000000000000 0x40000000000000000000000000000000)) 2 = some 0x3FFF8000000000000000000000000000 := by decide
/-- R255 -/
theorem test_fmod_zero_sign : reg (exec (.fmod 2 0 1) (st 0xC0018000000000000000000000000000 0x40008000000000000000000000000000)) 2 = some 0x80000000000000000000000000000000 := by decide
/-- R60, R302: the next packet is taken, and with none presented nothing changes. -/
theorem test_step_takes_packet : esr (step (presenting 0x13201000)) = some 0x1303 ∧
    step State.reset = .next State.reset := ⟨by decide +kernel, rfl⟩

/-- R285: the top byte of an illegal word is recorded. -/
theorem test_illegal_word_recorded : esr (step (presenting 0xFF000000)) = some 0xFF05 := by decide

/-! ## Witnesses: a state and operands that meet the hypotheses of each statement that has any -/

/-- Both ends of the string buffer, written. -/
theorem witness_StringBufferBytes : (holding [0x37]).readByte 0 = some 0x37 ∧
    ((st 0 0).writeByte 255 0x41).readByte 255 = some 0x41 := by decide

/-- A value that just fits 8 bits and one that just does not, unsigned and signed. -/
theorem witness_NarrowingChecks : ¬ 2 ^ Width.w8.bits ≤ ((st 255 0).readReg 0).toNat ∧
    2 ^ Width.w8.bits ≤ ((st 256 0).readReg 0).toNat ∧ ((st 127 0).readReg 0).toInt = 127 ∧
    ((st 128 0).readReg 0).toInt = 128 ∧ ((st (-128) 0).readReg 0).toInt = -128 ∧
    ((st (-129) 0).readReg 0).toInt = -129 := by decide

theorem witness_UnsignedDivideAndRemainder : ((st 7 0).readReg 1).toNat = 0 ∧ ((st 7 1).readReg 1).toNat ≠ 0 := by
  decide

theorem witness_UnsignedDivideBothResults : (0 : Reg) ≠ 1 ∧ ((st 7 0).readReg 1).toNat = 0 ∧
    ((st 7 1).readReg 1).toNat ≠ 0 := by decide

/-- Amounts 127 and 128, in a register and as an immediate; 255 is the largest immediate. -/
theorem witness_LogicalShifts : ((st 1 127).readReg 1).toNat ≤ 127 ∧ 128 ≤ ((st 1 128).readReg 1).toNat ∧
    (127 : Byte).toNat ≤ 127 ∧ 128 ≤ (128 : Byte).toNat ∧ 128 ≤ (255 : Byte).toNat := by decide

theorem witness_HighestSetBitIndex : (st 0 0).readReg 0 = 0 ∧ (st 1 0).readReg 0 ≠ 0 := by decide

/-- A zero divisor, the least value by -1, and one step from it on either side. -/
theorem witness_SignedDivideTruncates : ((st 7 0).readReg 1).toInt = 0 ∧
    (((st int128Min (-1)).readReg 0).toInt = -2 ^ 127 ∧ ((st int128Min (-1)).readReg 1).toInt = -1) ∧
    ((st (int128Min + 1) (-1)).readReg 0).toInt ≠ -2 ^ 127 ∧ ((st int128Min (-2)).readReg 1).toInt = -2 := by
  decide

theorem witness_SignedRemainderTakesDividendSign : ((st 7 0).readReg 1).toInt = 0 ∧
    (((st int128Min (-1)).readReg 0).toInt = -2 ^ 127 ∧ ((st int128Min (-1)).readReg 1).toInt = -1) ∧
    ((st (-7) 2).readReg 0).toInt < 0 ∧ ((st (-7) 2).readReg 1).toInt = 2 := by decide

theorem witness_ArithmeticShiftFloors : ((st (-1) 127).readReg 1).toNat ≤ 127 ∧
    128 ≤ ((st (-1) 128).readReg 1).toNat ∧ ((st (-1) 128).readReg 0).toInt < 0 ∧
    ¬ ((st 1 128).readReg 0).toInt < 0 ∧ (127 : Byte).toNat ≤ 127 ∧ 128 ≤ (128 : Byte).toNat := by decide

theorem witness_SharedCommandsOnSignedValues : ¬ 128 ≤ ((st 1 127).readReg 1).toNat ∧
    128 ≤ ((st 1 128).readReg 1).toNat ∧ ¬ 128 ≤ (127 : Byte).toNat ∧ 128 ≤ (128 : Byte).toNat := by decide

/-- The ends of the constants' range, and the empty and the longest text. -/
theorem witness_LoadConstantAndPlaceText : ((-2 ^ 63 : Int) ≤ -2 ^ 63 ∧ (-2 ^ 63 : Int) < 2 ^ 63) ∧
    ((-2 ^ 63 : Int) ≤ 2 ^ 63 - 1 ∧ (2 ^ 63 - 1 : Int) < 2 ^ 63) ∧ ([] : List Byte).length ≤ 255 ∧
    (List.replicate 255 (0x41 : Byte)).length ≤ 255 :=
  ⟨by decide, by decide, by decide, (List.length_replicate ..).le⟩

/-- Number texts `+zZ` in base 36 and `1` in base 2; with a sign only `IPARSE` takes, `-1`. -/
theorem witness_ParseGivesNumberValue :
    (LegalBase 36 ∧ HoldsText (holding [0x2B, 0x7A, 0x5A]) [0x2B, 0x7A, 0x5A] ∧
      IsNumber false 36 [0x2B, 0x7A, 0x5A] false [35, 35]) ∧
    (LegalBase 2 ∧ HoldsText (holding [0x31]) [0x31] ∧ IsNumber true 2 [0x31] false [1]) ∧
    (LegalBase 2 ∧ HoldsText (holding [0x2D, 0x31]) [0x2D, 0x31] ∧ IsNumber true 2 [0x2D, 0x31] true [1]) :=
  ⟨⟨by decide, by decide, [0x7A, 0x5A], .inl ⟨rfl, .inr rfl⟩, by decide, by decide, by decide⟩,
   ⟨by decide, by decide, [0x31], .inl ⟨rfl, .inl rfl⟩, by decide, by decide, by decide⟩,
   ⟨by decide, by decide, [0x31], .inr ⟨rfl, rfl, rfl⟩, by decide, by decide, by decide⟩⟩

/-- The empty text is no number, and a lone `-` is none. -/
theorem witness_ParseRejectsOtherTexts :
    (LegalBase 2 ∧ HoldsText (holding []) [] ∧ ¬ ∃ neg ds, IsNumber false 2 [] neg ds) ∧
    (LegalBase 36 ∧ HoldsText (holding [0x2D]) [0x2D] ∧ ¬ ∃ neg ds, IsNumber true 36 [0x2D] neg ds) := by
  refine ⟨⟨by decide, by decide, ?_⟩, ⟨by decide, by decide, ?_⟩⟩
  · rintro ⟨neg, ds, body, hs, hne, hm, -⟩
    rcases hs with ⟨-, rfl | h⟩ | ⟨h, -⟩
    · cases ds <;> simp_all
    · cases h
    · cases h
  · rintro ⟨neg, ds, body, hs, hne, hm, -⟩
    rcases hs with ⟨-, rfl | h⟩ | ⟨-, -, h⟩
    · cases ds with
      | nil => exact hne rfl
      | cons d ds => rw [List.map_cons, show digitValue 0x2D = none from rfl] at hm; cases hm
    · simp at h
    · cases h; cases ds <;> simp_all

theorem witness_IllegalBaseRejected : ((0 : Byte).toNat < 2 ∨ 36 < (0 : Byte).toNat) ∧
    ((1 : Byte).toNat < 2 ∨ 36 < (1 : Byte).toNat) ∧ ((37 : Byte).toNat < 2 ∨ 36 < (37 : Byte).toNat) ∧
    ((255 : Byte).toNat < 2 ∨ 36 < (255 : Byte).toNat) := by decide

theorem witness_FormatWritesDigits : LegalBase 2 ∧ LegalBase 36 ∧ ¬ LegalBase 1 ∧ ¬ LegalBase 37 := by decide
theorem witness_FormatWritesSignedDigits : LegalBase 2 ∧ ((st (-1) 0).readReg 0).toInt < 0 ∧
    ¬ ((st 0 0).readReg 0).toInt < 0 := by decide
theorem witness_DebugTextsAnnotateBase : LegalBase 9 ∧ LegalBase 10 ∧ ((st (-1) 0).readReg 0).toInt < 0 := by decide
theorem witness_FormatThenParseRoundTrips : LegalBase 2 ∧ LegalBase 36 := by decide
theorem witness_LongestTexts : LegalBase 2 ∧ LegalBase 36 ∧ ((st int128Min 0).readReg 0).toInt = -2 ^ 127 := by decide

/-- 1.0 -/
def one : Word := 0x3FFF0000000000000000000000000000
/-- 1.5 -/
def oneAndHalf : Word := 0x3FFF8000000000000000000000000000
/-- A NaN with a payload and its sign bit set. -/
def aNaN : Word := 0xFFFF8000000000000000000000000005
/-- `2^k` for `-16382 ≤ k ≤ 16383` -/
def pow2 (k : Int) : Word := fmake false (BitVec.ofInt 15 (k + 16383)) 0

/-- One pattern of each class; the last has exponent field 0. -/
theorem witness_ClassMaskBits : (fexp (fzero true) = 0 ∧ ffrac (fzero true) = 0) ∧
    (fexp (finf true) = 32767 ∧ ffrac (finf true) = 0) ∧ (fexp aNaN = 32767 ∧ ffrac aNaN ≠ 0) ∧
    ftag 1 = .normal := by decide

/-- A NaN, an infinity, a zero, the least and the greatest subnormal, the least normal double. -/
theorem witness_FromDoubleIsExact : (dexp 0x7FF8000000000000 = 2047 ∧ dfrac 0x7FF8000000000000 ≠ 0) ∧
    (dexp 0xFFF0000000000000 = 2047 ∧ dfrac 0xFFF0000000000000 = 0) ∧
    (dexp 0x8000000000000000 = 0 ∧ dfrac 0x8000000000000000 = 0) ∧ (dexp 1 = 0 ∧ dfrac 1 ≠ 0) ∧
    (dexp 0x000FFFFFFFFFFFFF = 0 ∧ dfrac 0x000FFFFFFFFFFFFF ≠ 0) ∧ dexp 0x0010000000000000 = 1 := by decide

/-- The exponents on either side of both ends of the double range. -/
theorem witness_ToDoubleTruncates : fexp (pow2 1024) = 17407 ∧ fexp (pow2 1023) = 17406 ∧
    fexp (pow2 (-1023)) = 15360 ∧ fexp (pow2 (-1022)) = 15361 ∧ (fexp aNaN = 32767 ∧ ffrac aNaN ≠ 0) ∧
    fexp (finf false) = 32767 := by decide

theorem witness_FrexpSplits : (1 : Reg) ≠ 2 ∧ ftag ((st one 0).readReg 0) = .normal ∧
    ftag ((st aNaN 0).readReg 0) ≠ .normal := by decide

/-- The exponents on either side of both ends of the range. -/
theorem witness_LdexpSetsExponent : ftag ((st aNaN 0).readReg 0) ≠ .normal ∧
    ftag ((st one (-16383)).readReg 0) = .normal ∧ ((st one (-16383)).readReg 1).toInt < -16382 ∧
    ((st one (-16382)).readReg 1).toInt = -16382 ∧ ((st one 16384).readReg 1).toInt = 16384 ∧
    16384 < ((st one 16385).readReg 1).toInt := by decide

theorem witness_LdexpInvertsFrexp : (1 : Reg) ≠ 2 := by decide

theorem witness_FloatCompareOrders : isNaN ((st aNaN one).readReg 0) = true ∧
    orderKey (fzero true) = orderKey (fzero false) ∧ orderKey (finf true) < orderKey (fzero false) ∧
    (ftag ((st one oneAndHalf).readReg 0) = .normal ∧ ftag ((st one oneAndHalf).readReg 1) = .normal) := by decide

theorem witness_FloatMultiplySpecials : (ftag aNaN = .nan) ∧ (ftag (finf false) = .infinity ∧ ftag (fzero true) = .zero) ∧
    ftag one = .normal := by decide

/-- Product exponents 32767, 32766, 1 and 0. -/
theorem witness_FloatMultiplyByPowerOfTwo : ftag (pow2 16383) = .normal ∧ isPowerOf2 (pow2 16383) = true ∧
    ftag oneAndHalf = .normal ∧ isPowerOf2 oneAndHalf = false ∧
    (fexp (pow2 16383) : Int) + fexp (pow2 1) - 16383 = 32767 ∧
    (fexp (pow2 16383) : Int) + fexp oneAndHalf - 16383 = 32766 ∧
    (fexp (pow2 (-16382)) : Int) + fexp oneAndHalf - 16383 = 1 ∧
    (fexp (pow2 (-16382)) : Int) + fexp (pow2 (-1)) - 16383 = 0 := by decide

/-- 1.5 by 1.5 shifts the product, 1.5 by 1.25 does not. -/
theorem witness_FloatMultiplyGeneral : ftag oneAndHalf = .normal ∧ isPowerOf2 oneAndHalf = false ∧
    2 ^ 113 ≤ (2 ^ 56 + (ffrac oneAndHalf).toNat / 2 ^ 56) * (2 ^ 56 + (ffrac oneAndHalf).toNat / 2 ^ 56) ∧
    ftag 0x3FFF4000000000000000000000000000 = .normal ∧ isPowerOf2 0x3FFF4000000000000000000000000000 = false ∧
    ¬ 2 ^ 113 ≤ (2 ^ 56 + (ffrac oneAndHalf).toNat / 2 ^ 56) *
      (2 ^ 56 + (ffrac 0x3FFF4000000000000000000000000000).toNat / 2 ^ 56) := by decide

theorem witness_FloatMultiplyAccuracy : ∃ t, exec (.fmul 2 0 1) (st oneAndHalf oneAndHalf) = .next t ∧
    ftag ((st oneAndHalf oneAndHalf).readReg 0) = .normal ∧ ftag ((st oneAndHalf oneAndHalf).readReg 1) = .normal ∧
    ftag (t.readReg 2) = .normal := ⟨_, rfl, by decide, by decide, by decide⟩

theorem witness_FloatAddSpecials : ftag aNaN = .nan ∧ ftag (finf false) = .infinity ∧ ftag (finf true) = .infinity ∧
    fsign (finf false) ≠ fsign (finf true) ∧ ftag (fzero true) = .zero ∧ ftag (fzero false) = .zero ∧
    fsign (fzero true) ≠ fsign (fzero false) ∧ ftag one = .normal := by decide

/-- Exponent differences 112 and 113, equal magnitudes of opposite sign, and both orders of the operands. -/
theorem witness_FloatAddAligns : (ftag one = .normal ∧ ftag (pow2 (-112)) = .normal ∧
      (st one (pow2 (-112))).readReg 0 = one ∧ (st one (pow2 (-112))).readReg 1 = pow2 (-112) ∧
      fmag (pow2 (-112)) ≤ fmag one ∧ fexp one - fexp (pow2 (-112)) = 112) ∧
    (ftag (pow2 (-113)) = .normal ∧ (st (pow2 (-113)) one).readReg 0 = pow2 (-113) ∧
      (st (pow2 (-113)) one).readReg 1 = one ∧ fmag (pow2 (-113)) < fmag one ∧
      112 < fexp one - fexp (pow2 (-113))) ∧
    (fsign one ≠ fsign (one ||| int128Min) ∧ ftag (one ||| int128Min) = .normal ∧
      fmag (one ||| int128Min) ≤ fmag one) := by decide

theorem witness_FloatDivideSpecials : ftag (fzero true) = .zero ∧ ftag aNaN = .nan ∧ ftag (finf false) = .infinity ∧
    ftag one = .normal := by decide

theorem witness_FloatDivideTruncatesQuotient : ftag one = .normal ∧ ftag oneAndHalf = .normal ∧
    signif one < signif oneAndHalf ∧ ¬ signif oneAndHalf < signif one := by decide

theorem witness_FloatModuloSpecials : ftag (fzero true) = .zero ∧ ftag aNaN = .nan ∧ ftag (finf false) = .infinity ∧
    ftag one = .normal := by decide

theorem witness_FloatModuloIsExactRemainder : ftag one = .normal ∧ ftag oneAndHalf = .normal ∧
    fmag one < fmag oneAndHalf ∧ ¬ fmag oneAndHalf < fmag one := by decide

/-- The remainder of two magnitudes with one exponent field and a quotient of 1. -/
theorem rest_of_same_exponent (l r : Word) (e n : Nat) (hl : fexp l = e) (hr : fexp r = e)
    (hle : signif l = signif r + n) (hlt : n < signif r) :
    |fval l| - |fval r| * ⌊|fval l| / |fval r|⌋ = n * (2 : ℚ) ^ ((e : ℤ) - 16383 - 112) := by
  have pos : (0 : ℚ) < signif r := by exact_mod_cast Nat.pos_of_ne_zero (by omega)
  have lt : (n : ℚ) < signif r := by exact_mod_cast hlt
  have quotient : ⌊|fval l| / |fval r|⌋ = 1 := by
    rw [abs_fval, abs_fval, hl, hr, mul_div_mul_right _ _ (by positivity), hle, Int.floor_eq_iff,
      le_div_iff₀ pos, div_lt_iff₀ pos]
    push_cast
    constructor <;> linarith [Nat.cast_nonneg (α := ℚ) n]
  rw [quotient, abs_fval, abs_fval, hl, hr, hle]
  push_cast
  ring

/-- The remainder of `1.5 * 2^-16382` by `2^-16382` is `2^-16383`, below what `pack` produces, and is flushed;
that of `1.5 * 2^-16381` by `2^-16381` is `2^-16382`, the least that is not. -/
theorem witness_FloatModuloIsExactRemainder_flush :
    let l : Word := 0x00018000000000000000000000000000
    let r : Word := 0x00010000000000000000000000000000
    let l' : Word := 0x00028000000000000000000000000000
    let r' : Word := 0x00020000000000000000000000000000
    (ftag l = .normal ∧ ftag r = .normal ∧ ¬ fmag l < fmag r ∧
      |fval l| - |fval r| * ⌊|fval l| / |fval r|⌋ < (2 : ℚ) ^ (1 - 16383 : ℤ)) ∧
    ftag l' = .normal ∧ ftag r' = .normal ∧ ¬ fmag l' < fmag r' ∧
      |fval l'| - |fval r'| * ⌊|fval l'| / |fval r'|⌋ = (2 : ℚ) ^ (1 - 16383 : ℤ) := by
  refine ⟨⟨by decide, by decide, by decide, ?_⟩, by decide, by decide, by decide, ?_⟩
  · rw [rest_of_same_exponent _ _ 1 (2 ^ 111) (by decide) (by decide) (by decide) (by decide), Nat.cast_pow,
      ← zpow_natCast, Nat.cast_ofNat, ← zpow_add₀ two_ne_zero]
    exact zpow_lt_zpow_right₀ one_lt_two (by norm_num)
  · rw [rest_of_same_exponent _ _ 2 (2 ^ 111) (by decide) (by decide) (by decide) (by decide), Nat.cast_pow,
      ← zpow_natCast, Nat.cast_ofNat, ← zpow_add₀ two_ne_zero]
    norm_num

/-- R254: that remainder is flushed to the zero of the dividend's sign, the other one is kept. -/
theorem test_fmod_flush : reg (exec (.fmod 2 0 1) (st 0x80018000000000000000000000000000 0x00010000000000000000000000000000)) 2 =
      some 0x80000000000000000000000000000000 ∧
    reg (exec (.fmod 2 0 1) (st 0x00028000000000000000000000000000 0x00020000000000000000000000000000)) 2 =
      some 0x00010000000000000000000000000000 := by decide

theorem witness_DecodeEncodeRoundTrip : Instr.wellFormed (.udivrem 15 0 15 15) = true := by decide

theorem witness_AcceptedWordsAreEncodings : decode ⟨0x15FFF000, 1, 2⟩ = .ok (.udivrem 15 0 15 15) := rfl

/-- The ends of each range of reserved opcodes, a nonzero unused field, one destination named twice. -/
theorem witness_IllegalWordsRaiseError : ((0x0E : BitVec 8).toNat = 0x0E ∧ (0x0F : BitVec 8).toNat = 0x0F ∧
      (0x28 ≤ (0x28 : BitVec 8).toNat ∧ (0x2F : BitVec 8).toNat ≤ 0x2F) ∧
      (0x36 ≤ (0x36 : BitVec 8).toNat ∧ (0x3F : BitVec 8).toNat ≤ 0x3F) ∧
      0x4A ≤ (0x4A : BitVec 8).toNat ∧ 0x4A ≤ (0xFF : BitVec 8).toNat) ∧
    (Op.uadd.code = (0x10201001 : BitVec 32).extractLsb' 24 8 ∧
      (0x10201001 : BitVec 32) &&& Op.uadd.format.mask ≠
        ((0x10201001 : BitVec 32).extractLsb' 24 8).setWidth 32 <<< 24) ∧
    (Op.ffrexp.code = (0x43100100 : BitVec 32).extractLsb' 24 8 ∧
      (0x43100100 : BitVec 32).extractLsb' 20 4 = (0x43100100 : BitVec 32).extractLsb' 8 4) := by decide

theorem witness_StepRunsDecodedCommand :
    (presenting 0x10201000).hostInput = .packet ⟨0x10201000, 0, 0⟩ :: [] ∧
    decode ⟨0x10201000, 0, 0⟩ = .ok (.uadd 2 0 1) := ⟨rfl, rfl⟩

theorem witness_ResetLeavesResetState :
    ({ st 5 6 with hostInput := [.reset, .packet ⟨0, 0, 0⟩] } : State).hostInput = .reset :: [.packet ⟨0, 0, 0⟩] := rfl

theorem witness_InvariantKeptByStep : Inv (presenting 0x05210000) ∧ ∃ t, step (presenting 0x05210000) = .next t :=
  ⟨⟨⟨by decide, by decide⟩, by decide, by decide⟩, _, rfl⟩

/-- A command that ends in each error but `IllegalCommand`, which no well-formed command raises, and one that completes. -/
theorem witness_ErrorsArePrecise :
    response (exec (.uparse 0 10) (st 0 0)) = some ⟨.error .invalidDigit, 0, 0⟩ ∧
    response (exec (.ufmt 0 0) (st 0 0)) = some ⟨.error .invalidBase, 0, 0⟩ ∧
    response (exec (.fdiv 2 0 1) (st 0 0)) = some ⟨.error .divisionByZero, 0, 0⟩ ∧
    response (exec (.unarrow 2 0 .w8) (st 256 0)) = some ⟨.error .overflow, 0, 0⟩ ∧
    response (exec (.rd 0) (st 9 0)) = some ⟨.ok, 0, 9⟩ := by decide

theorem witness_ErrorStatusInfluencesNothing : (∃ t, executePacket ⟨0x10201000, 0, 0⟩ (st 1 2) = .next t) ∧
    (∃ t, executePacket ⟨0x0A000000, 0, 0⟩ (afterError 0x1303) = .next t) ∧
    ∃ t, executePacket ⟨0xFF000000, 0, 0⟩ (afterError 0x1303) = .next t := ⟨⟨_, rfl⟩, ⟨_, rfl⟩, _, rfl⟩

/-- `SBR` of a byte that nothing has written, and a parse that comes to one. -/
theorem witness_StepStopsOnlyOnUnwrittenByte : (step (presenting 0x070000FF) = .fault .unwrittenByte ∧
      (presenting 0x070000FF).readByte 255 = none) ∧
    step { presenting 0x3010000A with slen := 1 } = .fault .unwrittenByte := ⟨⟨rfl, rfl⟩, rfl⟩

end Sys2Proof.Tests
end

section
/-! Proofs of the obligations of 00_scope.md, with the rules about one step that they use. -/
namespace Sys2Proof.Machine

/-- 00_scope.md R5: a packet at the head of the host's events is taken from them and executed. -/
theorem step_of_packet {s : State} {p : Packet} {rest : List HostEvent} (hs : s.hostInput = .packet p :: rest) :
    step s = executePacket p { s with hostInput := rest } := by
  simp only [step, hs]

/-- 30_encoding.md R60: executing a packet that decodes is executing its command. -/
theorem executePacket_of_decode {p : Packet} {i : Instr} (hp : decode p = .ok i) (s : State) :
    executePacket p s = exec i s := by
  simp only [executePacket, hp]

end Sys2Proof.Machine

namespace Sys2Proof.Proofs
open Sys2Proof Sys2Proof.Machine

/-- Settles O54: the step takes the packet from the host's events, then the packet runs its command. -/
theorem stepRunsDecodedCommand : Obligations.StepRunsDecodedCommand := by
  intro s p rest i hs hp
  calc step s
    _ = executePacket p { s with hostInput := rest } := step_of_packet hs
    _ = exec i { s with hostInput := rest } := executePacket_of_decode hp _

end Sys2Proof.Proofs
end

section
/-! Proofs of the obligations of 10_state.md, with the rules about decoded commands, the cases of one step,
the invariant and the independence of `ESR` that they use. -/
namespace Sys2Proof

/-! ## What the decoder lets through -/

@[simp] theorem Op.op_build (o : Op) (f : Fields) (dhi dlo : DWord) : (o.build f dhi dlo).op = o := by
  cases o <;> rfl

/-- 30_encoding.md R64: a row's command is well-formed once its two destinations, if it has two, differ. -/
theorem Op.build_wellFormed {o : Op} {f : Fields} (h : ¬ (o.format.twoDestinations = true ∧ f.rd = f.re))
    (dhi dlo : DWord) : (o.build f dhi dlo).wellFormed = true := by
  cases o
  case udivrem => exact bne_iff_ne.mpr fun heq => h ⟨rfl, heq⟩
  case ffrexp => exact bne_iff_ne.mpr fun heq => h ⟨rfl, heq⟩
  all_goals rfl

/-- A packet that decodes is of one row, has that row's unused fields 0 and its destinations different. -/
theorem decode_ok {p : Packet} {i : Instr} (h : decode p = .ok i) :
    ∃ o : Op, o.code = p.cw.extractLsb' 24 8 ∧
      p.cw &&& o.format.mask = (p.cw.extractLsb' 24 8).setWidth 32 <<< 24 ∧
      ¬ (o.format.twoDestinations = true ∧ p.cw.extractLsb' 20 4 = p.cw.extractLsb' 8 4) ∧
      i = o.build (Fields.ofWord p.cw) p.dhi p.dlo := by
  rcases decode_cases p with ⟨-, hd⟩ | ⟨o, -, hc, ⟨-, hd⟩ | ⟨-, -, hd⟩ | ⟨hm, ht, hd⟩⟩ <;> rw [h] at hd
  · cases hd
  · cases hd
  · cases hd
  · exact ⟨o, hc, hm, ht, Except.ok.inj hd⟩

theorem wellFormed_of_decode {p : Packet} {i : Instr} (h : decode p = .ok i) : i.wellFormed = true := by
  obtain ⟨o, -, -, ht, rfl⟩ := decode_ok h
  exact Op.build_wellFormed (fun ⟨h2, heq⟩ => ht ⟨h2, BitVec.toFin_inj.mp heq⟩) _ _

/-- 30_encoding.md R63, R65: `ESRR` uses no field, so only one word decodes to it. -/
theorem cw_of_decode_esrr {p : Packet} (h : decode p = .ok .esrr) : p.cw = 0x0A000000 := by
  obtain ⟨o, hc, hm, -, hi⟩ := decode_ok h
  obtain rfl : Op.esrr = o := (congrArg Instr.op hi).trans (Op.op_build o _ _ _)
  have hall : p.cw &&& Op.esrr.format.mask = p.cw := BitVec.and_allOnes
  rw [hall, ← hc] at hm
  exact hm

end Sys2Proof

namespace Sys2Proof.Machine

/-! ## The cases of a packet and of a step -/

/-- 60_exceptions.md R285: a packet that does not decode raises `IllegalCommand`. -/
theorem executePacket_of_decode_error {p : Packet} {d : DecodeError} (hp : decode p = .error d) (s : State) :
    executePacket p s = .next (s.takeError (p.cw.extractLsb' 24 8) .illegalCommand) := by
  simp only [executePacket, hp]

/-- Everything that executing a packet can do. -/
theorem executePacket_cases (p : Packet) (s : State) :
    (∃ i, decode p = .ok i ∧ executePacket p s = exec i s ∧ Effect i s (exec i s)) ∨
    executePacket p s = .next (s.takeError (p.cw.extractLsb' 24 8) .illegalCommand) := by
  cases hp : decode p with
  | ok i => exact .inl ⟨i, rfl, executePacket_of_decode hp s, exec_effect i s (wellFormed_of_decode hp)⟩
  | error d => exact .inr (executePacket_of_decode_error hp s)

/-- 70_reset_and_hazards.md R310: a reset at the head of the host's events is taken from them and resets the unit. -/
theorem step_of_reset {s : State} {rest : List HostEvent} (hs : s.hostInput = .reset :: rest) :
    step s = .next (s.resetUnit rest) := by
  simp only [step, hs]

/-- Everything that a step can do: hold the state, reset the unit, or execute the packet it takes. -/
theorem step_cases (s : State) :
    step s = .next s ∨
    (∃ rest, s.hostInput = .reset :: rest ∧ step s = .next (s.resetUnit rest)) ∨
    ∃ p rest, s.hostInput = .packet p :: rest ∧ step s = executePacket p { s with hostInput := rest } := by
  match h : s.hostInput with
  | [] => exact .inl (by simp only [step, h])
  | .reset :: rest => exact .inr (.inl ⟨rest, rfl, step_of_reset h⟩)
  | .packet p :: rest => exact .inr (.inr ⟨p, rest, rfl, step_of_packet h⟩)

/-! ## The invariant under each operation -/

/-- 60_exceptions.md R280: the codes of the errors are 1 to 5. -/
theorem ErrorCause.code_range (c : ErrorCause) : c.code ≠ 0 ∧ c.code.toNat ≤ 5 := by
  cases c <;> decide

/-- 10_state.md R26: what an error leaves in `ESR` is legal. -/
theorem errorStatus_legal (op : BitVec 8) (c : ErrorCause) : LegalErrorStatus (errorStatus op c) := by
  obtain ⟨-, hzero, hcause⟩ := errorStatus_fields op c
  obtain ⟨hne, hle⟩ := c.code_range
  exact ⟨hzero, by rw [hcause]; exact hle, fun h => absurd (hcause.symm.trans h) hne⟩

theorem Inv.sb_wf {s : State} (hs : Inv s) : Memory.wf s.sb := hs.1

theorem Inv.respond {s : State} (hs : Inv s) {r : Response} (hr : r.status ≠ .ok → r.rhi = 0 ∧ r.rlo = 0) :
    Inv (s.respond r) := by
  obtain ⟨hsb, hesr, hresp⟩ := hs
  refine ⟨hsb, hesr, fun q hq => ?_⟩
  rcases List.mem_append.mp hq with hq | hq
  · exact hresp q hq
  · rw [List.mem_singleton.mp hq]; exact hr

theorem Inv.reply {s : State} (hs : Inv s) (hi lo : DWord) : Inv (s.reply hi lo) :=
  hs.respond fun h => absurd rfl h

theorem Inv.done {s : State} (hs : Inv s) : Inv s.done := hs.reply 0 0

theorem Inv.with_sb {s : State} (hs : Inv s) {m : Memory} (hm : Memory.wf m) : Inv { s with sb := m } := by
  obtain ⟨-, hesr, hresp⟩ := hs
  exact ⟨hm, hesr, hresp⟩

theorem Inv.with_esr {s : State} (hs : Inv s) {e : BitVec 16} (he : LegalErrorStatus e) :
    Inv { s with esr := e } := by
  obtain ⟨hsb, -, hresp⟩ := hs
  exact ⟨hsb, he, hresp⟩

/-- The invariant does not speak of the registers, the length and the events to come. -/
theorem Inv.congr {s t : State} (hs : Inv s) (hsb : t.sb = s.sb) (hesr : t.esr = s.esr)
    (hresp : t.responses = s.responses) : Inv t := by
  unfold Inv
  rw [hsb, hesr, hresp]
  exact hs

theorem Inv.writeReg {s : State} (hs : Inv s) (d : Reg) (v : Word) : Inv (s.writeReg d v) :=
  hs.congr rfl rfl rfl

/-- 20_memory.md R41: an 8-bit address lies within the string buffer. -/
theorem Inv.writeByte {s : State} (hs : Inv s) (a b : Byte) : Inv (s.writeByte a b) :=
  hs.with_sb (Memory.wf_write hs.sb_wf a.isLt)

theorem Inv.emit {s : State} (hs : Inv s) {t : List Byte} (ht : t.length < 256) : Inv (s.emit t) :=
  (hs.with_sb (Memory.wf_writeText (a := 0) hs.sb_wf (by omega))).congr rfl rfl rfl

theorem Inv.takeError {s : State} (hs : Inv s) (op : BitVec 8) (c : ErrorCause) : Inv (s.takeError op c) :=
  (hs.with_esr (errorStatus_legal op c)).respond fun _ => ⟨rfl, rfl⟩

theorem legalErrorStatus_zero : LegalErrorStatus 0 := by decide

theorem inv_reset : Inv State.reset :=
  ⟨⟨.nil, fun _ hc => absurd hc List.not_mem_nil⟩, legalErrorStatus_zero, fun _ hr => absurd hr List.not_mem_nil⟩

/-- 70_reset_and_hazards.md R310: the state after reset, with responses that were already without data. -/
theorem Inv.resetUnit {s : State} (hs : Inv s) (rest : List HostEvent) : Inv (s.resetUnit rest) := by
  obtain ⟨hsb, hesr, -⟩ := inv_reset
  obtain ⟨-, -, hresp⟩ := hs
  exact ⟨hsb, hesr, hresp⟩

/-- No command breaks the invariant. -/
theorem Effect.inv {i : Instr} {s t : State} (h : Effect i s (.next t)) (hs : Inv s) : Inv t := by
  cases h with
  | responds hi lo _ => exact hs.reply hi lo
  | writesReg d v => exact (hs.writeReg d v).done
  | writesTwo d e q r => exact ((hs.writeReg d q).writeReg e r).done
  | writesByte a b => exact (hs.writeByte a b).done
  | setsLength n => exact (hs.congr rfl rfl rfl).done
  | clearsErrorStatus _ => exact (hs.with_esr legalErrorStatus_zero).done
  | emits text ht => exact (hs.emit ht).done
  | errs c _ => exact hs.takeError i.op.code c

theorem executePacket_inv {p : Packet} {s t : State} (hs : Inv s) (ht : executePacket p s = .next t) : Inv t := by
  rcases executePacket_cases p s with ⟨i, -, he, heff⟩ | he <;> rw [he] at ht
  · rw [ht] at heff
    exact heff.inv hs
  · cases ht
    exact hs.takeError _ _

/-! ## What a command's response says of the state -/

/-- `r` is the one response that command `i` adds between `s` and `t`, and the state follows its status
(60_exceptions.md R286, R289): an error comes from a command that can raise it and changes `ESR` only, `OK`
leaves `ESR` but for `ESRC`, and data come from the four reading commands only (30_encoding.md R62). -/
def PreciseResponse (i : Instr) (s t : State) (r : Response) : Prop :=
  t.responses = s.responses ++ [r] ∧
    (∀ c, r.status = .error c → TakesError s t i.op.code c ∧ i.op ∈ raisers c) ∧
    (r.status = .ok → i.op ≠ .esrc → t.esr = s.esr) ∧
    (i.op ∉ [Op.rd, .sbr, .slenr, .esrr] → r.rhi = 0 ∧ r.rlo = 0)

/-- A completion with status `OK` is precise if `ESR` is kept and the data are allowed. -/
theorem preciseResponse_ok {i : Instr} {s t : State} {hi lo : DWord}
    (hr : t.responses = s.responses ++ [⟨.ok, hi, lo⟩]) (he : i.op ≠ .esrc → t.esr = s.esr)
    (hd : i.op ∉ [Op.rd, .sbr, .slenr, .esrr] → hi = 0 ∧ lo = 0) : PreciseResponse i s t ⟨.ok, hi, lo⟩ :=
  ⟨hr, nofun, fun _ => he, hd⟩

theorem preciseResponse_done {i : Instr} {s t : State} (hr : t.responses = s.responses)
    (he : i.op ≠ .esrc → t.esr = s.esr) : PreciseResponse i s t.done okResponse :=
  preciseResponse_ok (by rw [State.done_responses, hr]) he fun _ => ⟨rfl, rfl⟩

theorem preciseResponse_takeError {i : Instr} (s : State) {c : ErrorCause} (hc : i.op ∈ raisers c) :
    PreciseResponse i s (s.takeError i.op.code c) ⟨.error c, 0, 0⟩ :=
  ⟨rfl, fun _ h => Status.error.inj h ▸ ⟨takeError_takesError s _ c, hc⟩, nofun, fun _ => ⟨rfl, rfl⟩⟩

/-- Every command that gives a next state gives one precise response. -/
theorem Effect.preciseResponse {i : Instr} {s t : State} (h : Effect i s (.next t)) :
    ∃ r, PreciseResponse i s t r := by
  cases h with
  | responds hi lo hd => exact ⟨_, preciseResponse_ok rfl (fun _ => rfl) hd⟩
  | writesReg d v => exact ⟨_, preciseResponse_done rfl fun _ => rfl⟩
  | writesTwo d e q r => exact ⟨_, preciseResponse_done rfl fun _ => rfl⟩
  | writesByte a b => exact ⟨_, preciseResponse_done rfl fun _ => rfl⟩
  | setsLength n => exact ⟨_, preciseResponse_done rfl fun _ => rfl⟩
  | clearsErrorStatus hi => exact ⟨_, preciseResponse_done rfl fun hne => absurd hi hne⟩
  | emits text _ => exact ⟨_, preciseResponse_done rfl fun _ => rfl⟩
  | errs c hc => exact ⟨_, preciseResponse_takeError s hc⟩

/-! ## Commands do not look at `ESR` -/

/-- The outcomes of one command from `s` and from `s` with `ESR` holding `e`, where the command does not look
at `ESR`: it leaves each `ESR` as it was, or the same state from both, or stops on both (10_state.md R26). -/
inductive IgnoresEsr (s : State) (e : BitVec 16) : Result → Result → Prop where
  | keeps (t : State) (h : t.esr = s.esr) : IgnoresEsr s e (.next t) (.next { t with esr := e })
  | same (r : Result) : IgnoresEsr s e r r

theorem setReg_ignoresEsr (d : Reg) (v : Word) (s : State) (e : BitVec 16) :
    IgnoresEsr s e (setReg d v s) (setReg d v { s with esr := e }) :=
  .keeps (s.writeReg d v).done rfl

theorem setRegOrError_ignoresEsr (op : BitVec 8) (d : Reg) (v : Except ErrorCause Word) (s : State) (e : BitVec 16) :
    IgnoresEsr s e (setRegOrError op d v s) (setRegOrError op d v { s with esr := e }) := by
  cases v with
  | ok w => exact setReg_ignoresEsr d w s e
  | error c => exact .same _

theorem setRegsOrError_ignoresEsr (op : BitVec 8) (d d' : Reg) (v : Except ErrorCause (Word × Word)) (s : State)
    (e : BitVec 16) : IgnoresEsr s e (setRegsOrError op d d' v s) (setRegsOrError op d d' v { s with esr := e }) := by
  unfold setRegsOrError
  split
  · exact .same _
  · match v with
    | .ok (q, r) => exact .keeps ((s.writeReg d q).writeReg d' r).done rfl
    | .error c => exact .same _

theorem parseTo_ignoresEsr (op : BitVec 8) (signed : Bool) (d : Reg) (base : Byte) (s : State) (e : BitVec 16) :
    IgnoresEsr s e (parseTo op signed d base s) (parseTo op signed d base { s with esr := e }) := by
  have htext : ({ s with esr := e } : State).text = s.text := rfl
  unfold parseTo
  rw [htext]
  split
  · exact .same _
  · cases parse signed base.toNat s.text with
    | value v => exact setReg_ignoresEsr d v s e
    | invalidDigit => exact .same _
    | unwritten => exact .same _

theorem formatFrom_ignoresEsr (op : BitVec 8) (text : Word → Nat → List Byte) (a : Reg) (base : Byte) (s : State)
    (e : BitVec 16) : IgnoresEsr s e (formatFrom op text a base s) (formatFrom op text a base { s with esr := e }) := by
  unfold formatFrom
  split
  · exact .same _
  · exact .keeps (s.emit (text (s.readReg a) base.toNat)).done rfl

theorem execSbr_ignoresEsr (imm : Byte) (s : State) (e : BitVec 16) :
    IgnoresEsr s e (execSbr imm s) (execSbr imm { s with esr := e }) := by
  have hread : ({ s with esr := e } : State).readByte imm.toNat = s.readByte imm.toNat := rfl
  unfold execSbr
  rw [hread]
  cases s.readByte imm.toNat with
  | some b => exact .keeps (s.reply 0 (b.setWidth 64)) rfl
  | none => exact .same _

/-- Only `ESRR` looks at `ESR`. -/
theorem exec_ignoresEsr {i : Instr} (hi : i ≠ .esrr) (s : State) (e : BitVec 16) :
    IgnoresEsr s e (exec i s) (exec i { s with esr := e }) := by
  cases i <;> simp only [exec]
  case nop => exact .keeps s.done rfl
  case rd a => exact .keeps (s.reply ((s.readReg a).extractLsb' 64 64) ((s.readReg a).extractLsb' 0 64)) rfl
  case sbw imm dlo => exact .keeps (s.writeByte imm (dlo.extractLsb' 0 8)).done rfl
  case sbr imm => exact execSbr_ignoresEsr imm s e
  case slenw imm => exact .keeps ({ s with slen := imm } : State).done rfl
  case slenr => exact .keeps (s.reply 0 (s.slen.setWidth 64)) rfl
  case esrr => exact absurd rfl hi
  case esrc => exact .same _
  case unarrow | inarrow | udiv | urem | idiv | irem | ftod | fldexp | fdiv | fmod =>
    exact setRegOrError_ignoresEsr _ _ _ s e
  case udivrem | ffrexp => exact setRegsOrError_ignoresEsr _ _ _ _ s e
  case uparse d base => exact parseTo_ignoresEsr _ false d base s e
  case iparse d base => exact parseTo_ignoresEsr _ true d base s e
  case ufmt | ifmt | udebug | idebug => exact formatFrom_ignoresEsr _ _ _ _ s e
  all_goals exact setReg_ignoresEsr _ _ s e

/-- No packet but `ESRR` lets its execution depend on `ESR`. -/
theorem executePacket_ignoresEsr {p : Packet} (hp : decode p ≠ .ok .esrr) (s : State) (e : BitVec 16) :
    IgnoresEsr s e (executePacket p s) (executePacket p { s with esr := e }) := by
  cases hd : decode p with
  | ok i =>
    rw [executePacket_of_decode hd, executePacket_of_decode hd]
    exact exec_ignoresEsr (fun hi => hp (hi ▸ hd)) s e
  | error d =>
    rw [executePacket_of_decode_error hd, executePacket_of_decode_error hd]
    exact .same _

/-! ## Where the model stops -/

/-- A command gives a next state, or stops at a byte that nothing has written. -/
theorem Effect.next_or_unwritten {i : Instr} {s : State} {r : Result} (h : Effect i s r) :
    (∃ t, r = .next t) ∨ r = .fault .unwrittenByte ∧ ∃ a, s.readByte a = none ∧
      (i = .sbr (BitVec.ofNat 8 a) ∧ a < 256 ∨
        (∃ d base, (i = .uparse d base ∨ i = .iparse d base) ∧ LegalBase base) ∧ a < s.slen.toNat) := by
  cases h with
  | unwritten a ha hi => exact .inr ⟨rfl, a, ha, hi⟩
  | _ => exact .inl ⟨_, rfl⟩

end Sys2Proof.Machine

namespace Sys2Proof.Proofs
open Sys2Proof Sys2Proof.Machine

/-- Settles O57: a step holds the state, resets the unit or executes a packet, and each keeps the invariant. -/
theorem invariantKeptByStep : Obligations.InvariantKeptByStep := by
  intro s t hs ht
  rcases step_cases s with h | ⟨rest, -, h⟩ | ⟨p, rest, -, h⟩ <;> rw [h] at ht
  · cases ht; exact hs
  · cases ht; exact hs.resetUnit rest
  · have htaken : Inv { s with hostInput := rest } := hs.congr rfl rfl rfl
    exact executePacket_inv htaken ht

/-- Settles O58: the response of each effect is precise, and `raisers` lists the commands of each error. -/
theorem errorsArePrecise : Obligations.ErrorsArePrecise := by
  intro i s t hw ht
  have heff : Effect i s (.next t) := ht ▸ exec_effect i s hw
  obtain ⟨r, hr, herr, hok, hdata⟩ := heff.preciseResponse
  refine ⟨r, hr, fun c hc => ?_, hok, hdata⟩
  obtain ⟨htakes, hraises⟩ := herr c hc
  refine ⟨htakes, ?_⟩
  cases c with
  | illegalCommand => exact absurd hraises List.not_mem_nil
  | _ => exact hraises

/-- Settles O59: `ESRR` changes nothing but the responses, and no other packet looks at `ESR`. -/
theorem errorStatusInfluencesNothing : Obligations.ErrorStatusInfluencesNothing := by
  intro p s t e ht
  by_cases hp : decode p = .ok .esrr
  · rw [executePacket_of_decode hp] at ht ⊢
    cases ht
    exact ⟨_, rfl, rfl, rfl, rfl, rfl, .inr ⟨rfl, rfl⟩, fun hne => absurd (cw_of_decode_esrr hp) hne⟩
  · have hig := executePacket_ignoresEsr hp s e
    rw [ht] at hig
    generalize executePacket p { s with esr := e } = r at hig ⊢
    cases hig with
    | keeps _ he => exact ⟨_, rfl, rfl, rfl, rfl, rfl, .inr ⟨he, rfl⟩, fun _ => rfl⟩
    | same => exact ⟨t, rfl, rfl, rfl, rfl, rfl, .inl rfl, fun _ => rfl⟩

/-- Settles O60: the one effect that is no next state reads a byte that nothing has written. -/
theorem stepStopsOnlyOnUnwrittenByte : Obligations.StepStopsOnlyOnUnwrittenByte := by
  intro s
  rcases step_cases s with h | ⟨rest, -, h⟩ | ⟨p, rest, hs, h⟩
  · exact .inl ⟨_, h⟩
  · exact .inl ⟨_, h⟩
  · rcases executePacket_cases p { s with hostInput := rest } with ⟨i, hp, he, heff⟩ | he
    · rw [h, he]
      rcases heff.next_or_unwritten with hnext | ⟨hfault, a, ha, hi⟩
      · exact .inl hnext
      · exact .inr ⟨hfault, p, rest, i, a, hs, hp, ha, hi⟩
    · exact .inl ⟨_, h.trans he⟩

/-- Settles O55: a reset event leaves the fields of `State.reset` but the responses and the events to come. -/
theorem resetLeavesResetState : Obligations.ResetLeavesResetState := by
  refine ⟨rfl, rfl, fun s rest hs => ⟨s.resetUnit rest, step_of_reset hs, rfl, rfl, fun k => ?_,
    fun _ => rfl, rfl, rfl⟩⟩
  have hx : (s.resetUnit rest).x = Vector.replicate 16 0 := State.resetUnit_x s rest
  simp only [State.readReg, hx, Fin.getElem_fin, Vector.getElem_replicate]

/-- Settles O56: the empty string buffer, the zero `ESR` and the empty list of responses are legal. -/
theorem invariantAtReset : Obligations.InvariantAtReset := inv_reset

end Sys2Proof.Proofs
end

section
/-! Proofs of the obligations of 20_memory.md, with the number of digits that a value has in a base, the lengths
of the formatted texts, and the string length that a format command leaves. -/
namespace Sys2Proof.Machine

/-! ## How many digits a value has -/

/-- A first digit other than 0 is worth at least its power of the base. -/
theorem IsDigitsOf.length_eq_one_or_pow_le {b n : Nat} {ds : List Nat} (h : IsDigitsOf b n ds) :
    ds.length = 1 ∨ b ^ (ds.length - 1) ≤ n := by
  obtain ⟨hne, -, hlead, hval⟩ := h
  cases ds with
  | nil => exact absurd rfl hne
  | cons d ds =>
    rcases Nat.eq_zero_or_pos d with rfl | hd
    · exact .inl (by rw [hlead rfl, List.length_singleton])
    · refine .inr ?_
      calc b ^ ((d :: ds).length - 1)
        _ ≤ d * b ^ ds.length := Nat.le_mul_of_pos_left _ hd
        _ ≤ positional b (d :: ds) := Nat.le_add_right _ _
        _ = n := hval

theorem IsDigitsOf.lt_pow_length {b n : Nat} {ds : List Nat} (h : IsDigitsOf b n ds) : n < b ^ ds.length := by
  obtain ⟨-, hlt, -, rfl⟩ := h
  exact positional_lt hlt

theorem IsDigitsOf.length_le {b n k : Nat} {ds : List Nat} (h : IsDigitsOf b n ds) (hb : 1 < b)
    (hn : n < b ^ (k + 1)) : ds.length ≤ k + 1 := by
  rcases h.length_eq_one_or_pow_le with hone | hpow
  · omega
  · have := (Nat.pow_lt_pow_iff_right hb).mp (hpow.trans_lt hn)
    omega

/-- A power of the base is written with one digit more than its exponent. -/
theorem IsDigitsOf.length_of_pow {b k : Nat} {ds : List Nat} (h : IsDigitsOf b (b ^ k) ds) (hb : 1 < b) :
    ds.length = k + 1 := by
  have hlt : k < ds.length := (Nat.pow_lt_pow_iff_right hb).mp h.lt_pow_length
  have hle : ds.length ≤ k + 1 := h.length_le hb (Nat.pow_lt_pow_right hb k.lt_succ_self)
  omega

/-! ## The lengths of the texts -/

theorem utext_length_le {b : Nat} (hb : 2 ≤ b) (hb' : b ≤ 36) (v : Word) : (utext v b).length ≤ 128 := by
  obtain ⟨ds, htext, -, hlen⟩ := utext_spec hb hb' v
  rwa [htext, List.length_map]

/-- From base 10 on, 39 digits suffice: `2^128 < 10^39`. -/
theorem utext_length_le_of_ten_le {b : Nat} (hb : 10 ≤ b) (hb' : b ≤ 36) (v : Word) :
    (utext v b).length ≤ 39 := by
  obtain ⟨ds, htext, hds, -⟩ := utext_spec (by omega) hb' v
  have hv : v.toNat < b ^ 39 :=
    calc v.toNat
      _ < 2 ^ 128 := v.isLt
      _ ≤ 10 ^ 39 := by norm_num
      _ ≤ b ^ 39 := Nat.pow_le_pow_left hb 39
  rw [htext, List.length_map]
  exact hds.length_le (by omega) hv

theorem utext_length_of_pow {b k : Nat} (hb : 2 ≤ b) (hb' : b ≤ 36) {v : Word} (hv : v.toNat = b ^ k) :
    (utext v b).length = k + 1 := by
  obtain ⟨ds, htext, hds, -⟩ := utext_spec hb hb' v
  rw [htext, List.length_map]
  exact (hv ▸ hds).length_of_pow hb

/-- 43_radix.md R179: a signed text is the text of the magnitude and the `-` of a negative value. -/
theorem length_itext (v : Word) (b : Nat) :
    (itext v b).length = (utext (iabs v) b).length + if v.toInt < 0 then 1 else 0 := by
  by_cases hn : isneg v = true
  · rw [itext, if_pos hn, if_pos ((isneg_iff v).mp hn), List.length_cons]
  · rw [itext, if_neg hn, if_neg (mt (isneg_iff v).mpr hn), iabs, if_neg hn, Nat.add_zero]

theorem itext_length_le (v : Word) (b : Nat) : (itext v b).length ≤ (utext (iabs v) b).length + 1 := by
  rw [length_itext]
  split <;> omega

theorem length_decimal (b : Nat) : (decimal b).length = if b ≤ 9 then 1 else 2 := by
  rw [decimal, apply_ite List.length]
  rfl

/-- The value and its base together: two characters for the base leave room, as the value is then short. -/
theorem utext_decimal_length_le {b : Nat} (hb : 2 ≤ b) (hb' : b ≤ 36) (v : Word) :
    (utext v b).length + (decimal b).length ≤ 129 := by
  rw [length_decimal]
  split
  · have := utext_length_le hb hb' v
    omega
  · have := utext_length_le_of_ten_le (by omega) hb' v
    omega

/-- 43_radix.md R183: `UInt128("`, `",base:` and `)` are 17 characters. -/
theorem length_udebug (v : Word) (b : Nat) :
    (udebug v b).length = (utext v b).length + (decimal b).length + 17 := by
  simp only [udebug, udebugHead, debugMiddle, List.length_append, List.length_cons, List.length_nil]
  omega

/-- 43_radix.md R183: `Int128("`, `",base:` and `)` are 16 characters. -/
theorem length_idebug (v : Word) (b : Nat) :
    (idebug v b).length = (itext v b).length + (decimal b).length + 16 := by
  simp only [idebug, idebugHead, debugMiddle, List.length_append, List.length_cons, List.length_nil]
  omega

theorem udebug_length_le {b : Nat} (hb : 2 ≤ b) (hb' : b ≤ 36) (v : Word) : (udebug v b).length ≤ 146 := by
  have := utext_decimal_length_le hb hb' v
  rw [length_udebug]
  omega

theorem idebug_length_le {b : Nat} (hb : 2 ≤ b) (hb' : b ≤ 36) (v : Word) : (idebug v b).length ≤ 146 := by
  have := utext_decimal_length_le hb hb' (iabs v)
  have := itext_length_le v b
  rw [length_idebug]
  omega

/-- The least signed value and its magnitude are one pattern, `2^127`. -/
theorem toNat_of_toInt_min {v : Word} (hv : v.toInt = -2 ^ 127) :
    v.toNat = 2 ^ 127 ∧ (iabs v).toNat = 2 ^ 127 := by
  refine ⟨?_, by rw [iabs_toNat, hv]; rfl⟩
  rw [BitVec.toInt_eq_toNat_cond] at hv
  split at hv <;> omega

/-- 20_memory.md R55: in base 2 the texts of `Int128.min` are the longest. -/
theorem text_lengths_of_min {v : Word} (hv : v.toInt = -2 ^ 127) :
    (utext v 2).length = 128 ∧ (itext v 2).length = 129 ∧ (udebug v 2).length = 146 ∧
      (idebug v 2).length = 146 := by
  obtain ⟨hpattern, hmagnitude⟩ := toNat_of_toInt_min hv
  have hu : (utext v 2).length = 128 := utext_length_of_pow le_rfl (by omega) hpattern
  have hi : (itext v 2).length = 129 := by
    rw [length_itext, utext_length_of_pow le_rfl (by omega) hmagnitude, if_pos (by omega)]
  have hbase : (decimal 2).length = 1 := rfl
  exact ⟨hu, hi, by rw [length_udebug, hu, hbase], by rw [length_idebug, hi, hbase]⟩

/-! ## The string length after a format command -/

/-- In a legal base a format command sets the string length to that of its text. -/
theorem formatFrom_slen {base : Byte} (hb : LegalBase base) (op : BitVec 8) {text : Word → Nat → List Byte}
    {a : Reg} {s : State} (hlen : (text (s.readReg a) base.toNat).length < 256) :
    ∃ t, formatFrom op text a base s = .next t ∧ t.slen.toNat = (text (s.readReg a) base.toNat).length := by
  rcases formatFrom_cases op text a base s with ⟨hbad, -⟩ | ⟨-, h⟩
  · rw [badBase_eq_false.mpr hb] at hbad
    cases hbad
  · obtain ⟨-, -, hslen, -⟩ := emit_writesText s hlen
    exact ⟨_, h, hslen⟩

/-- 43_radix.md R180, R182, R185, R186: the string length after each of the four commands. -/
theorem exec_format_slen {base : Byte} (hb : LegalBase base) (a : Reg) (s : State) :
    (∃ t, exec (.ufmt a base) s = .next t ∧ t.slen.toNat = (utext (s.readReg a) base.toNat).length) ∧
    (∃ t, exec (.ifmt a base) s = .next t ∧ t.slen.toNat = (itext (s.readReg a) base.toNat).length) ∧
    (∃ t, exec (.udebug a base) s = .next t ∧ t.slen.toNat = (udebug (s.readReg a) base.toNat).length) ∧
    ∃ t, exec (.idebug a base) s = .next t ∧ t.slen.toNat = (idebug (s.readReg a) base.toNat).length := by
  obtain ⟨h2, h36⟩ := hb
  exact ⟨formatFrom_slen ⟨h2, h36⟩ _ (utext_length h2 h36 _), formatFrom_slen ⟨h2, h36⟩ _ (itext_length h2 h36 _),
    formatFrom_slen ⟨h2, h36⟩ _ (udebug_length h2 h36 _), formatFrom_slen ⟨h2, h36⟩ _ (idebug_length h2 h36 _)⟩

end Sys2Proof.Machine

namespace Sys2Proof.Proofs
open Sys2Proof Sys2Proof.Machine

/-- Settles O30: each command leaves the length of its text, which `utext_length_le` and its companions bound and
`text_lengths_of_min` attains. -/
theorem longestTexts : Obligations.LongestTexts := by
  constructor
  · intro a base s hb
    obtain ⟨⟨tu, hu, lu⟩, ⟨ti, hi, li⟩, ⟨tud, hud, lud⟩, ⟨tid, hid, lid⟩⟩ := exec_format_slen hb a s
    obtain ⟨h2, h36⟩ := hb
    have hsigned : (itext (s.readReg a) base.toNat).length ≤ 129 :=
      (itext_length_le _ _).trans (Nat.succ_le_succ (utext_length_le h2 h36 _))
    exact ⟨⟨tu, hu, lu.trans_le (utext_length_le h2 h36 _)⟩, ⟨ti, hi, li.trans_le hsigned⟩,
      ⟨tud, hud, lud.trans_le (udebug_length_le h2 h36 _)⟩, ⟨tid, hid, lid.trans_le (idebug_length_le h2 h36 _)⟩⟩
  · intro a s hmin
    obtain ⟨⟨tu, hu, lu⟩, ⟨ti, hi, li⟩, ⟨tud, hud, lud⟩, ⟨tid, hid, lid⟩⟩ :=
      exec_format_slen (show LegalBase 2 by decide) a s
    obtain ⟨mu, mi, mud, mid⟩ := text_lengths_of_min hmin
    exact ⟨⟨tu, hu, lu.trans mu⟩, ⟨ti, hi, li.trans mi⟩, ⟨tud, hud, lud.trans mud⟩, ⟨tid, hid, lid.trans mid⟩⟩

end Sys2Proof.Proofs
end

section
/-! Proofs of the obligations of 30_encoding.md, with the fields that encoding writes and decoding reads, the
rows that a rejected word can have, and the commands of the pseudo-instructions `LDI` and `SSTR`. -/
namespace Sys2Proof

/-! ## Widths -/

theorem Width.code_lt_four (w : Width) : (w.code.setWidth 8).toNat < 4 := by
  cases w <;> decide

@[simp] theorem Width.ofCode_low_code (w : Width) : Width.ofCode ((w.code.setWidth 8).extractLsb' 0 2) = w := by
  cases w <;> decide

/-- A field below 4 is the width code in its two low bits (30_encoding.md R63). -/
theorem Width.code_ofCode_low {imm : Byte} (h : imm.toNat < 4) :
    (Width.ofCode (imm.extractLsb' 0 2)).code.setWidth 8 = imm := by
  rw [Width.code_ofCode]
  apply BitVec.eq_of_toNat_eq
  simp only [BitVec.toNat_setWidth, BitVec.extractLsb'_toNat]
  omega

/-! ## The fields of a command's word -/

@[simp] theorem Instr.fields_op (i : Instr) : i.fields.op = i.op.code := by
  cases i <;> rfl

/-- 30_encoding.md R63: an encoding has every field 0 that its format does not use. -/
theorem Instr.fields_unusedZero (i : Instr) : i.op.format.unusedZero i.fields := by
  cases i
  case ldz _ w _ | lds _ w _ => exact ⟨rfl, rfl, rfl, w.code_lt_four⟩
  case unarrow _ _ w | inarrow _ _ w => exact ⟨rfl, rfl, w.code_lt_four⟩
  all_goals simp only [Instr.op, Op.format, Format.unusedZero, Instr.fields, and_self]

/-- 30_encoding.md R64: a well-formed command's word does not name one destination twice. -/
theorem Instr.fields_destinations {i : Instr} (h : i.wellFormed = true) :
    ¬ (i.op.format.twoDestinations = true ∧ i.fields.rd = i.fields.re) := by
  rintro ⟨h2, heq⟩
  cases i
  case udivrem | ffrexp => exact bne_iff_ne.mp h heq
  all_goals cases h2

/-- The operands of a command are the fields of its word and its data words: none is dropped. -/
@[simp] theorem Instr.op_build_fields (i : Instr) : i.op.build i.fields i.dhi i.dlo = i := by
  cases i
  case ldz _ w dlo => exact congrArg (Instr.ldz _ · dlo) w.ofCode_low_code
  case lds _ w dlo => exact congrArg (Instr.lds _ · dlo) w.ofCode_low_code
  case unarrow _ _ w => exact congrArg (Instr.unarrow _ _) w.ofCode_low_code
  case inarrow _ _ w => exact congrArg (Instr.inarrow _ _) w.ofCode_low_code
  all_goals rfl

/-- The word of a well-formed command decodes to its row's command, with whatever data words it comes. -/
theorem decode_encode_cw {i : Instr} (h : i.wellFormed = true) (dhi dlo : DWord) :
    decode ⟨(encode i).cw, dhi, dlo⟩ = .ok (i.op.build i.fields dhi dlo) :=
  decode_fields i.fields_op i.fields_unusedZero (Instr.fields_destinations h) dhi dlo

/-- Conversely, fields that are 0 where the row does not use them are those of the row's command. -/
theorem Op.fields_build {o : Op} {f : Fields} (hc : o.code = f.op) (hu : o.format.unusedZero f)
    (dhi dlo : DWord) : (o.build f dhi dlo).fields = f := by
  obtain ⟨op, rd, ra, rb, re, imm⟩ := f
  obtain rfl : o.code = op := hc
  cases o
  case ldz | lds | unarrow | inarrow =>
    simp only [Op.format, Format.unusedZero] at hu
    simp only [Op.build, Instr.fields, Instr.op, Width.code_ofCode_low, hu]
  all_goals
    simp only [Op.format, Format.unusedZero] at hu
    simp only [Op.build, Instr.fields, Instr.op, hu]

/-! ## Words that do not decode -/

theorem Op.code_injective : Function.Injective Op.code := fun o o' h =>
  Option.some.inj <| by rw [← Op.ofCode_code o, h, Op.ofCode_code]

/-- 30_encoding.md R66: a packet whose opcode is reserved does not decode. -/
theorem decode_error_of_reserved {p : Packet} (h : ∀ o : Op, o.code ≠ p.cw.extractLsb' 24 8) :
    ∃ d, decode p = .error d := by
  cases hd : decode p with
  | error d => exact ⟨d, rfl⟩
  | ok i =>
    obtain ⟨o, hc, -⟩ := decode_ok hd
    exact absurd hc (h o)

/-- 30_encoding.md R64: a packet of a row that has a nonzero unused field or names one destination twice does
not decode. -/
theorem decode_error_of_fields {p : Packet} {o : Op} (hc : o.code = p.cw.extractLsb' 24 8)
    (h : p.cw &&& o.format.mask ≠ (p.cw.extractLsb' 24 8).setWidth 32 <<< 24 ∨
      o.format.twoDestinations = true ∧ p.cw.extractLsb' 20 4 = p.cw.extractLsb' 8 4) :
    ∃ d, decode p = .error d := by
  cases hd : decode p with
  | error d => exact ⟨d, rfl⟩
  | ok i =>
    obtain ⟨o', hc', hm, ht, -⟩ := decode_ok hd
    obtain rfl : o = o' := Op.code_injective (hc.trans hc'.symm)
    exact absurd h (not_or.mpr ⟨not_not.mpr hm, ht⟩)

end Sys2Proof

namespace Sys2Proof.Machine

/-! ## `LDI` and `SSTR` -/

theorem execAll_singleton (i : Instr) (s : State) : execAll [i] s = exec i s := by
  simp only [execAll]
  cases exec i s <;> rfl

/-- 40_host_data.md R93: 64 data bits that hold a signed constant are sign-extended to its pattern. -/
theorem signExtended_ofInt {n : Int} (hlo : -2 ^ 63 ≤ n) (hhi : n < 2 ^ 63) :
    signExtended .w64 (BitVec.ofInt 64 n) = BitVec.ofInt 128 n := by
  have hn : (BitVec.ofInt 64 n).toInt = n := BitVec.toInt_ofInt_eq_self (by decide) hlo hhi
  calc signExtended .w64 (BitVec.ofInt 64 n)
    _ = BitVec.ofInt 128 (BitVec.ofInt 64 n).toInt := by rfl
    _ = BitVec.ofInt 128 n := by rw [hn]

/-- 40_host_data.md R96: the commands that store a text write its bytes from address `k` on and answer each. -/
theorem execAll_storeText_append {k : Nat} {text : List Byte} (hk : k + text.length ≤ 256) (is : List Instr)
    (s : State) : execAll (storeText k text ++ is) s = execAll is { s with
      sb := s.sb.writeText k text
      responses := s.responses ++ List.replicate text.length okResponse } := by
  induction text generalizing k s with
  | nil => simp [storeText, Memory.writeText]
  | cons c text ih =>
    rw [List.length_cons] at hk
    have haddr : (BitVec.ofNat 8 k).toNat = k := Nat.mod_eq_of_lt (by omega)
    have hbyte : (c.setWidth 64).extractLsb' 0 8 = c := by
      rw [BitVec.extractLsb'_setWidth_of_le (by decide), ← BitVec.setWidth_eq_extractLsb' le_rfl, BitVec.setWidth_eq]
    have hexec : exec (.sbw (BitVec.ofNat 8 k) (c.setWidth 64)) s =
        .next { s with sb := s.sb.write k c, responses := s.responses ++ [okResponse] } := by
      show execSbw _ _ s = _
      rw [execSbw, hbyte, State.writeByte, haddr]
      rfl
    simp only [storeText, List.cons_append, execAll, hexec]
    rw [ih (by omega)]
    simp [Memory.writeText, List.replicate_succ]

/-- 30_encoding.md R72: `SSTR` leaves its text as a format command leaves the text it emits, with one response
per command. -/
theorem execAll_expand_sstr {text : List Byte} (h : text.length ≤ 255) (s : State) :
    execAll (expand (.sstr text)) s = .next { s.emit text with
      responses := s.responses ++ List.replicate (text.length + 1) okResponse } := by
  rw [expand, execAll_storeText_append (by omega), execAll_singleton, List.replicate_succ', ← List.append_assoc]
  rfl

/-- The current string is a text once `SLEN` is its length and its bytes are read back. -/
theorem holdsText_of_reads {s : State} {text : List Byte} (hlen : s.slen.toNat = text.length)
    (hread : ∀ a < text.length, s.readByte a = text[a]?) : HoldsText s text := by
  refine List.ext_getElem (by simp [State.text, hlen]) fun a _ ha => ?_
  rw [List.length_map] at ha
  simp only [State.text, List.getElem_map, List.getElem_range]
  rw [hread a ha, List.getElem?_eq_getElem ha]

end Sys2Proof.Machine

namespace Sys2Proof.Proofs
open Sys2Proof Sys2Proof.Machine

/-- Settles O50: the fields of a well-formed command are accepted by its row, which builds the command again. -/
theorem decodeEncodeRoundTrip : Obligations.DecodeEncodeRoundTrip := by
  intro i hw
  calc decode (encode i)
    _ = .ok (i.op.build i.fields i.dhi i.dlo) := decode_encode_cw hw i.dhi i.dlo
    _ = .ok i := by rw [i.op_build_fields]

/-- Settles O51: the fields of a word that decodes are those of its command, and a word is its fields. -/
theorem acceptedWordsAreEncodings : Obligations.AcceptedWordsAreEncodings := by
  intro p i hp
  refine ⟨?_, wellFormed_of_decode hp⟩
  obtain ⟨o, hc, hm, -, rfl⟩ := decode_ok hp
  have hu : o.format.unusedZero (Fields.ofWord p.cw) :=
    (Format.accepts_iff _ _).mp (by rw [Fields.toWord_ofWord]; exact hm)
  calc (encode (o.build (Fields.ofWord p.cw) p.dhi p.dlo)).cw
    _ = (Fields.ofWord p.cw).toWord := congrArg Fields.toWord (Op.fields_build hc hu _ _)
    _ = p.cw := Fields.toWord_ofWord p.cw

/-- Settles O52: no row has a reserved opcode and a row rejects the other packets, so none of them decodes,
and a packet that does not decode takes the error. -/
theorem illegalWordsRaiseError : Obligations.IllegalWordsRaiseError := by
  intro p s
  dsimp only
  intro h
  have hd : ∃ d, decode p = .error d := by
    rcases h with h | h | h | h | h | ⟨o, hc, hf⟩
    case inr.inr.inr.inr.inr =>
      refine decode_error_of_fields hc (hf.imp_right fun ⟨hrow, heq⟩ => ⟨?_, heq⟩)
      rcases hrow with rfl | rfl <;> rfl
    all_goals exact decode_error_of_reserved fun o hc => o.code_assigned (by rw [hc]; omega)
  obtain ⟨d, hd⟩ := hd
  exact ⟨_, executePacket_of_decode_error hd s, takeError_takesError s _ .illegalCommand⟩

/-- Settles O22: `LDI`'s data word sign-extends to the constant, and `SSTR` leaves the state of `emit`. -/
theorem loadConstantAndPlaceText : Obligations.LoadConstantAndPlaceText := by
  constructor
  · intro d n s hlo hhi
    rw [expand, execAll_singleton, signedData_w64, ← signExtended_ofInt hlo hhi]
    exact setReg_completes d _ s
  · intro text s hlen
    refine ⟨_, execAll_expand_sstr hlen s, holdsText_of_reads ?_ fun a ha => ?_, fun _ => rfl, rfl, rfl,
      fun a ha => ?_, rfl⟩
    · exact Nat.mod_eq_of_lt (by omega)
    · exact (State.readByte_emit s text a).trans (if_pos ha)
    · exact (State.readByte_emit s text a).trans (if_neg (by omega))

/-- Settles O53: each word is the one that its command encodes to. -/
theorem sampleWordsDecode : Obligations.SampleWordsDecode := by
  intro dhi dlo
  refine ⟨?_, ?_, ?_, ?_, ?_, ?_⟩
  · exact decode_encode_cw (i := .ldp 1 0 0) rfl dhi dlo
  · exact decode_encode_cw (i := .unarrow 1 0 .w8) rfl dhi dlo
  · exact decode_encode_cw (i := .udivrem 2 3 0 1) rfl dhi dlo
  · exact decode_encode_cw (i := .ishri 1 0 4) rfl dhi dlo
  · exact decode_encode_cw (i := .ifmt 0 10) rfl dhi dlo
  · exact decode_encode_cw (i := .ffrexp 1 2 0) rfl dhi dlo

end Sys2Proof.Proofs
end

section
/-! Proofs of the obligations of 40_host_data.md, with the word that selects a command, the two outcomes of a range
check, and the bits of the values that the narrow loads write and the narrowing checks accept. -/
namespace Sys2Proof

/-! ## Command words -/

/-- The word written out field by field selects a well-formed command with any data words that give the command
the data it reads. -/
theorem decode_commandWord {i : Instr} (h : i.wellFormed = true) {dhi dlo : DWord}
    (hdata : i.op.build i.fields dhi dlo = i.op.build i.fields i.dhi i.dlo) :
    decode ⟨Machine.commandWord i.op.code.toNat i.fields.rd i.fields.ra i.fields.rb i.fields.re i.fields.imm,
      dhi, dlo⟩ = .ok i := by
  rw [← i.fields_op, ← Fields.toWord_eq]
  exact (decode_encode_cw h dhi dlo).trans (congrArg Except.ok (hdata.trans i.op_build_fields))

/-- 30_encoding.md R60: the word selects a command that reads no data word whatever the data words. -/
theorem Machine.selects_commandWord {i : Instr} (h : i.wellFormed = true)
    (hdata : ∀ dhi dlo, i.op.build i.fields dhi dlo = i.op.build i.fields i.dhi i.dlo) :
    Machine.Selects
      (Machine.commandWord i.op.code.toNat i.fields.rd i.fields.ra i.fields.rb i.fields.re i.fields.imm) i :=
  fun dhi dlo => decode_commandWord h (hdata dhi dlo)

/-! ## Widths -/

/-- 40_host_data.md R100. -/
theorem Width.bits_eq (w : Width) : w.bits = 8 * 2 ^ w.code.toNat := Nat.shiftLeft_eq _ _

theorem Width.bits_range (w : Width) : 8 ≤ w.bits ∧ w.bits ≤ 64 := by
  cases w <;> decide

end Sys2Proof

namespace Sys2Proof.Machine

/-! ## The values of the narrow loads -/

theorem zeroExtended_eq (w : Width) (dlo : DWord) :
    zeroExtended w dlo = BitVec.ofNat 128 (dlo.toNat % 2 ^ w.bits) := by
  rw [← BitVec.toNat_setWidth, BitVec.ofNat_toNat]
  rfl

theorem getLsbD_signExtended (w : Width) (dlo : DWord) {k : Nat} (hk : k < 128) :
    (signExtended w dlo).getLsbD k = dlo.getLsbD (if k < w.bits then k else w.bits - 1) := by
  have hpos : 0 < w.bits := by have := w.bits_range; omega
  rw [signExtended, BitVec.getLsbD_signExtend]
  by_cases h : k < w.bits
  · simp [h, hk]
  · simp [h, hk, BitVec.msb_setWidth, hpos]

/-! ## Range checks -/

/-- The two outcomes of a command that copies a value unless a check raises an error. -/
theorem setRegOrError_check {p : Prop} [Decidable p] (op : BitVec 8) (d : Reg) (c : ErrorCause) (v : Word)
    (s : State) :
    if p then ∃ t, setRegOrError op d (if p then .error c else .ok v) s = .next t ∧ TakesError s t op c
    else ∃ t, setRegOrError op d (if p then .error c else .ok v) s = .next t ∧ WritesReg s t d v := by
  by_cases hp : p
  · simp only [if_pos hp]
    exact ⟨_, rfl, takeError_takesError s op c⟩
  · simp only [if_neg hp]
    exact setReg_completes d v s

/-- A command that ends in an error does not complete with a register written: it answers the error's status. -/
theorem Errs.not_writes {i : Instr} {s : State} {op : BitVec 8} {c : ErrorCause} (he : Errs i s op c) (d : Reg)
    (v : Word) : ¬ Writes i s d v := by
  rintro ⟨t, ht, -, -, -, -, -, hok⟩
  obtain ⟨t', ht', -, -, -, -, -, -, -, herr⟩ := he
  obtain rfl : t = t' := by simpa using ht.symm.trans ht'
  simp [okResponse, herr] at hok

/-- The bits from `n` up are 0 exactly when the unsigned value is below `2^n`. -/
theorem highBits_zero_iff (v : Word) {n : Nat} (hn : n ≤ 127) :
    (∀ k, n ≤ k → k < 128 → v.getLsbD k = false) ↔ v.toNat < 2 ^ n := by
  rw [BitVec.toNat_lt_iff_getLsbD_eq_false n (by omega)]
  constructor
  · intro h k
    by_cases hk : n + k < 128
    · exact h _ (Nat.le_add_right n k) hk
    · exact BitVec.getLsbD_of_ge v _ (by omega)
  · intro h k hk _
    obtain ⟨j, rfl⟩ := Nat.exists_eq_add_of_le hk
    exact h j

/-- The bits from `n` up are 1 exactly when the complement's unsigned value is below `2^n`. -/
theorem highBits_one_iff (v : Word) {n : Nat} (hn : n ≤ 127) :
    (∀ k, n ≤ k → k < 128 → v.getLsbD k = true) ↔ (~~~v).toNat < 2 ^ n := by
  rw [← highBits_zero_iff _ hn]
  exact forall₃_congr fun k _ hk => by simp [hk]

/-- The bits that signed narrowing compares are all equal exactly when the value fits (40_host_data.md R104): they
are all 0 in a value that is not negative and all 1 in a negative one. -/
theorem signBits_equal_iff (v : Word) {n : Nat} (hn : n ≤ 127) :
    (∀ k, n ≤ k → k < 128 → v.getLsbD k = v.getLsbD 127) ↔ -2 ^ n ≤ v.toInt ∧ v.toInt ≤ 2 ^ n - 1 := by
  have hcast : ((2 ^ n : Nat) : Int) = 2 ^ n := Nat.cast_pow 2 n
  rcases toInt_cases v with ⟨hsign, hval, -⟩ | ⟨hsign, hval, -⟩ <;> rw [isneg] at hsign
  · rw [hsign, highBits_zero_iff v hn]
    omega
  · rw [hsign, highBits_one_iff v hn, BitVec.toNat_not]
    omega

/-! ## Halves and bytes -/

/-- 40_host_data.md R94: the two data words of a response make up the register. -/
theorem halves_append (v : Word) : v.extractLsb' 64 64 ++ v.extractLsb' 0 64 = v := by
  rw [BitVec.extractLsb'_append_extractLsb'_eq_extractLsb' (start₁ := 0) (len₁ := 64) rfl,
    BitVec.extractLsb'_eq_self]

/-- 40_host_data.md R97: what `SBR` does on a byte that something has written. -/
theorem execSbr_of_written {imm b : Byte} {s : State} (h : s.readByte imm.toNat = some b) :
    execSbr imm s = .next (s.reply 0 (b.setWidth 64)) := by
  rw [execSbr, h]

end Sys2Proof.Machine

namespace Sys2Proof.Proofs
open Sys2Proof Sys2Proof.Machine

/-- Settles O3: the bits above the width are 0 after `LDZ` and the sign bit after `LDS`. -/
theorem narrowLoadsExtend : Obligations.NarrowLoadsExtend := by
  intro d w dhi dlo s
  refine ⟨w.bits_eq, decode_commandWord (i := .ldz d w dlo) rfl rfl, decode_commandWord (i := .lds d w dlo) rfl rfl,
    ?_, signExtended w dlo, fun k hk => getLsbD_signExtended w dlo hk, setReg_completes d _ s⟩
  rw [← zeroExtended_eq]
  exact setReg_completes d _ s

/-- Settles O7: each check copies or raises `Overflow`, never both, and the signed range is the one whose bits from
`w-1` up are all equal. -/
theorem narrowingChecks : Obligations.NarrowingChecks := by
  intro d a w s
  have hsigned : if (s.readReg a).toInt < -2 ^ (w.bits - 1) ∨ 2 ^ (w.bits - 1) - 1 < (s.readReg a).toInt
      then Errs (.inarrow d a w) s 0x0D .overflow else Writes (.inarrow d a w) s d (s.readReg a) :=
    setRegOrError_check Op.inarrow.code d .overflow (s.readReg a) s
  refine ⟨selects_commandWord (i := .unarrow d a w) rfl fun _ _ => rfl,
    selects_commandWord (i := .inarrow d a w) rfl fun _ _ => rfl,
    setRegOrError_check Op.unarrow.code d .overflow (s.readReg a) s, hsigned, ?_⟩
  rw [signBits_equal_iff _ (by have := w.bits_range; omega)]
  split_ifs at hsigned with hout
  · exact iff_of_false (by omega) (hsigned.not_writes d _)
  · exact iff_of_true (by omega) hsigned

/-- Settles O1: the zero word is the encoding of `NOP`, which completes with the OK response alone. -/
theorem nopOnlyResponds : Obligations.NopOnlyResponds := fun s =>
  ⟨decode_encode_cw (i := .nop) rfl, _, rfl, done_onlyResponds s⟩

/-- Settles O2: the value written is the concatenation of the two data words. -/
theorem loadPairWritesBothHalves : Obligations.LoadPairWritesBothHalves := fun d dhi dlo s =>
  ⟨decode_commandWord (i := .ldp d dhi dlo) rfl rfl, dhi ++ dlo,
    (extractLsb'_append_high dhi dlo 0 64).trans BitVec.extractLsb'_eq_self,
    extractLsb'_append_low dhi dlo, setReg_completes d _ s⟩

/-- Settles O4: the halves that `RD` answers make up the register, which `MOV` copies as the identity. -/
theorem readBackAndCopyRegister : Obligations.ReadBackAndCopyRegister := fun d a s =>
  ⟨selects_commandWord (i := .rd a) rfl fun _ _ => rfl, selects_commandWord (i := .mov d a) rfl fun _ _ => rfl,
    ⟨_, _, halves_append (s.readReg a), _, rfl, reply_onlyResponds s _ _⟩, unary_completes d a id s⟩

/-- Settles O5: `SBW` writes the low byte of `dlo`, and `SBR` answers a byte that has been written. -/
theorem stringBufferBytes : Obligations.StringBufferBytes := by
  intro imm dhi dlo s
  refine ⟨decode_commandWord (i := .sbw imm dlo) rfl rfl, selects_commandWord (i := .sbr imm) rfl fun _ _ => rfl,
    ?_, fun b hb => ⟨_, execSbr_of_written hb, reply_onlyResponds s _ _⟩⟩
  rw [BitVec.setWidth_eq_extractLsb' (by decide)]
  exact ⟨_, rfl, writeByte_writesByte s imm _⟩

/-- Settles O6: each command sets or answers one of `SLEN` and `ESR` and completes. -/
theorem lengthAndErrorStatusCommands : Obligations.LengthAndErrorStatusCommands := fun imm s =>
  ⟨selects_commandWord (i := .slenw imm) rfl fun _ _ => rfl, decode_encode_cw (i := .slenr) rfl,
    decode_encode_cw (i := .esrr) rfl, decode_encode_cw (i := .esrc) rfl,
    ⟨_, rfl, rfl, fun _ => rfl, fun _ => rfl, rfl, rfl, rfl⟩,
    ⟨_, rfl, reply_onlyResponds s _ _⟩, ⟨_, rfl, reply_onlyResponds s _ _⟩,
    _, rfl, rfl, fun _ => rfl, fun _ => rfl, rfl, rfl, rfl⟩

end Sys2Proof.Proofs
end

section
/-! Proofs of the obligations of 41_uint128.md and of the comparison of 42_int128.md, with the rejection of a word that
names one destination twice, the outcomes of a division and the values that the commands write. -/
namespace Sys2Proof

/-! ## Equal destinations -/

/-- 30_encoding.md R64, R68: a word of a row with two destinations whose unused fields are 0 is rejected for naming one
register as both. -/
theorem decode_equalDestinations {f : Fields} {o : Op} (hc : f.op = o.code) (hu : o.format.unusedZero f)
    (ht : o.format.twoDestinations = true) (heq : f.rd = f.re) (dhi dlo : DWord) :
    decode ⟨f.toWord, dhi, dlo⟩ = .error .equalDestinations := by
  have hmask : f.toWord &&& o.format.mask = o.code.setWidth 32 <<< 24 := hc ▸ (Format.accepts_iff _ _).mpr hu
  simp only [decode, Fields.ofWord_toWord, hc, Op.ofCode_code]
  rw [if_neg (not_not.mpr hmask), if_pos ⟨ht, heq⟩]

end Sys2Proof

namespace Sys2Proof.Machine

/-! ## Commands that write one register -/

/-- A command of the shape `unary` writes the value that its function takes on the source. -/
theorem writes_of_unary {i : Instr} {d a : Reg} {f : Word → Word} {s : State} {v : Word}
    (hi : exec i s = unary d a f s) (hv : f (s.readReg a) = v) : Writes i s d v := by
  rw [Writes, hi, ← hv]
  exact unary_completes d a f s

/-- A command of the shape `binary` writes the value that its function takes on the two sources. -/
theorem writes_of_binary {i : Instr} {d a b : Reg} {f : Word → Word → Word} {s : State} {v : Word}
    (hi : exec i s = binary d a b f s) (hv : f (s.readReg a) (s.readReg b) = v) : Writes i s d v := by
  rw [Writes, hi, ← hv]
  exact binary_completes d a b f s

/-! ## Subtraction -/

/-- 41_uint128.md R112: the difference of the unsigned values, negative ones taken modulo `2^128`. -/
theorem usub_eq_ofInt (a b : Word) : usub a b = BitVec.ofInt 128 (a.toNat - b.toNat) := by
  rw [usub_eq, BitVec.sub_eq_add_neg, Int.sub_eq_add_neg, BitVec.ofInt_add, BitVec.ofInt_neg]
  simp only [BitVec.ofInt_natCast, BitVec.ofNat_toNat, BitVec.setWidth_eq]

/-! ## Division -/

/-- 41_uint128.md R117 to R119: the floor quotient and remainder, unless the divisor is zero. -/
theorem checkedDivRem_eq (a b : Word) : checkedDivRem a b = if b.toNat = 0 then .error .divisionByZero
    else .ok (BitVec.ofNat 128 (a.toNat / b.toNat), BitVec.ofNat 128 (a.toNat % b.toNat)) := by
  rw [checkedDivRem]
  split_ifs with hb
  · rfl
  · rw [udivrem_eq a b hb, BitVec.udiv_def, BitVec.umod_def]

/-- The two outcomes of a command that writes one part of a division. -/
theorem setRegOrError_division (op : BitVec 8) (d : Reg) (part : Word × Word → Word) (a b : Word) (s : State) :
    if b.toNat = 0 then
      ∃ t, setRegOrError op d ((checkedDivRem a b).map part) s = .next t ∧ TakesError s t op .divisionByZero
    else
      ∃ t, setRegOrError op d ((checkedDivRem a b).map part) s = .next t ∧
        WritesReg s t d (part (BitVec.ofNat 128 (a.toNat / b.toNat), BitVec.ofNat 128 (a.toNat % b.toNat))) := by
  rw [checkedDivRem_eq, apply_ite (Except.map part)]
  exact setRegOrError_check op d .divisionByZero _ s

/-- The two outcomes of a command that writes both parts of a division, to two different registers. -/
theorem setRegsOrError_division (op : BitVec 8) {d e : Reg} (hde : d ≠ e) (a b : Word) (s : State) :
    if b.toNat = 0 then
      ∃ t, setRegsOrError op d e (checkedDivRem a b) s = .next t ∧ TakesError s t op .divisionByZero
    else
      ∃ t, setRegsOrError op d e (checkedDivRem a b) s = .next t ∧
        WritesTwoRegs s t d e (BitVec.ofNat 128 (a.toNat / b.toNat)) (BitVec.ofNat 128 (a.toNat % b.toNat)) := by
  simp only [setRegsOrError, if_neg hde, checkedDivRem_eq]
  split_ifs
  · exact ⟨_, rfl, takeError_takesError s op _⟩
  · exact ⟨_, rfl, writeTwo_writesTwoRegs s hde _ _⟩

/-! ## Comparison -/

/-- 41_uint128.md R126: the words of the three outcomes of an ordering. -/
theorem CmpCode.word_of_order (below equal : Prop) [Decidable below] [Decidable equal] :
    (if below then CmpCode.lt else if equal then .eq else .gt).word = if below then 1 else if equal then 0 else 2 := by
  split_ifs <;> rfl

end Sys2Proof.Machine

namespace Sys2Proof.Proofs
open Sys2Proof Sys2Proof.Machine

/-- Settles O8: the limb-wise carries and borrows make up addition and subtraction of patterns. -/
theorem unsignedAddSubtractAreModular : Obligations.UnsignedAddSubtractAreModular := fun d a b _ =>
  ⟨selects_commandWord (i := .uadd d a b) rfl fun _ _ => rfl,
    selects_commandWord (i := .usub d a b) rfl fun _ _ => rfl,
    writes_of_binary (f := uadd) rfl ((uadd_eq _ _).trans (BitVec.add_def _ _)),
    writes_of_binary (f := usub) rfl (usub_eq_ofInt _ _)⟩

/-- Settles O9: the sixteen partial products make up the product of patterns. -/
theorem unsignedMultiplyIsModular : Obligations.UnsignedMultiplyIsModular := fun d a b _ =>
  ⟨selects_commandWord (i := .umul d a b) rfl fun _ _ => rfl,
    writes_of_binary (f := umul) rfl ((umul_eq _ _).trans BitVec.mul_def)⟩

/-- Settles O10: each command writes its part of the division, or both raise the error. -/
theorem unsignedDivideAndRemainder : Obligations.UnsignedDivideAndRemainder := by
  intro d a b s
  refine ⟨selects_commandWord (i := .udiv d a b) rfl fun _ _ => rfl,
    selects_commandWord (i := .urem d a b) rfl fun _ _ => rfl, ?_⟩
  have hdiv := setRegOrError_division Op.udiv.code d Prod.fst (s.readReg a) (s.readReg b) s
  have hrem := setRegOrError_division Op.urem.code d Prod.snd (s.readReg a) (s.readReg b) s
  split_ifs at hdiv hrem ⊢
  · exact ⟨hdiv, hrem⟩
  · exact ⟨hdiv, hrem⟩

/-- Settles O11: the division is computed from the sources before either register is written. -/
theorem unsignedDivideBothResults : Obligations.UnsignedDivideBothResults := by
  intro d e a b s
  constructor
  · have hrejected :=
      decode_equalDestinations (f := ⟨Op.udivrem.code, d, a, b, d, 0⟩) (o := .udivrem) rfl rfl rfl rfl
    rw [Fields.toWord_eq] at hrejected
    exact hrejected
  · intro hde
    exact ⟨selects_commandWord (i := .udivrem d e a b) (bne_iff_ne.mpr hde) fun _ _ => rfl,
      setRegsOrError_division Op.udivrem.code hde (s.readReg a) (s.readReg b) s⟩

/-- Settles O12: the two shifters, at an amount from a register and at an immediate one. -/
theorem logicalShifts : Obligations.LogicalShifts := by
  intro d a b imm s
  refine ⟨selects_commandWord (i := .ushl d a b) rfl fun _ _ => rfl,
    selects_commandWord (i := .ushr d a b) rfl fun _ _ => rfl,
    selects_commandWord (i := .ushli d a imm) rfl fun _ _ => rfl,
    selects_commandWord (i := .ushri d a imm) rfl fun _ _ => rfl,
    ⟨fun hn => ⟨?_, ?_⟩, fun hn => ⟨?_, ?_⟩⟩, fun hn => ⟨?_, ?_⟩, fun hn => ⟨?_, ?_⟩⟩
  · exact writes_of_binary (f := fun x n => shl x n.toNat) rfl (shl_of_le _ hn)
  · exact writes_of_binary (f := fun x n => shr x n.toNat) rfl (shr_of_le _ hn)
  · exact writes_of_binary (f := fun x n => shl x n.toNat) rfl (shl_of_ge _ hn)
  · exact writes_of_binary (f := fun x n => shr x n.toNat) rfl (shr_of_ge _ hn)
  · exact writes_of_unary (f := fun x => shl x imm.toNat) rfl (shl_of_le _ hn)
  · exact writes_of_unary (f := fun x => shr x imm.toNat) rfl (shr_of_le _ hn)
  · exact writes_of_unary (f := fun x => shl x imm.toNat) rfl (shl_of_ge _ hn)
  · exact writes_of_unary (f := fun x => shr x imm.toNat) rfl (shr_of_ge _ hn)

/-- Settles O14: the highest set bit brackets a value that is not zero. -/
theorem highestSetBitIndex : Obligations.HighestSetBitIndex := by
  intro d a s
  refine ⟨selects_commandWord (i := .umsb d a) rfl fun _ _ => rfl, msb (s.readReg a).toNat,
    msb_le_of_lt (s.readReg a).isLt, fun hzero => ?_, fun hne => ?_,
    unary_completes d a (fun x => BitVec.ofNat 128 (msb x.toNat)) s⟩
  · rw [hzero]
    exact msb_zero
  · obtain ⟨-, hbounds⟩ := msb_bounds (BitVec.toNat_ne_iff_ne.mpr hne)
    exact hbounds

/-- Settles O20: the comparators order the unsigned and the signed values. -/
theorem integerComparesOrderValues : Obligations.IntegerComparesOrderValues := by
  intro d a b s
  refine ⟨selects_commandWord (i := .ucmp d a b) rfl fun _ _ => rfl,
    selects_commandWord (i := .icmp d a b) rfl fun _ _ => rfl,
    writes_of_binary (f := fun x y => (ucmp x y).word) rfl ?_,
    writes_of_binary (f := fun x y => (icmp x y).word) rfl ?_⟩
  · rw [ucmp_eq, CmpCode.word_of_order]
  · rw [icmp_eq, CmpCode.word_of_order]

/-- Settles O13: the commands are the bitwise operations of patterns. -/
theorem bitwiseCommands : Obligations.BitwiseCommands := by
  intro d a b s
  refine ⟨selects_commandWord (i := .and d a b) rfl fun _ _ => rfl,
    selects_commandWord (i := .or d a b) rfl fun _ _ => rfl,
    selects_commandWord (i := .xor d a b) rfl fun _ _ => rfl,
    selects_commandWord (i := .not d a) rfl fun _ _ => rfl,
    s.readReg a &&& s.readReg b, s.readReg a ||| s.readReg b, s.readReg a ^^^ s.readReg b, ~~~s.readReg a,
    fun k hk => ⟨BitVec.getLsbD_and, BitVec.getLsbD_or, BitVec.getLsbD_xor, ?_⟩,
    binary_completes d a b (· &&& ·) s, binary_completes d a b (· ||| ·) s, binary_completes d a b (· ^^^ ·) s,
    unary_completes d a (~~~·) s⟩
  rw [BitVec.getLsbD_not, decide_eq_true hk, Bool.true_and]

end Sys2Proof.Proofs
end

section
/-! Proofs of the obligations of 42_int128.md but for its comparison, with the signed readings of the patterns that the
two engines give and the three outcomes of a signed division. -/
namespace Sys2Proof.Machine

/-! ## Negation, multiplication, addition and subtraction -/

/-- 42_int128.md R141. -/
theorem ineg_eq_ofInt (a : Word) : ineg a = BitVec.ofInt 128 (-a.toInt) := by
  rw [ineg_eq, BitVec.ofInt_neg, BitVec.ofInt_toInt]

/-- 42_int128.md R145: the low 128 bits of the exact signed product. -/
theorem imul_eq_ofInt (a b : Word) : imul a b = BitVec.ofInt 128 (a.toInt * b.toInt) := by
  rw [imul_eq, BitVec.ofInt_mul, BitVec.ofInt_toInt, BitVec.ofInt_toInt]

/-- 42_int128.md R155: the unsigned adder is the signed one. -/
theorem uadd_eq_ofInt_toInt (a b : Word) : uadd a b = BitVec.ofInt 128 (a.toInt + b.toInt) := by
  rw [uadd_eq, BitVec.ofInt_add, BitVec.ofInt_toInt, BitVec.ofInt_toInt]

/-- 42_int128.md R156: the unsigned subtractor is the signed one. -/
theorem usub_eq_ofInt_toInt (a b : Word) : usub a b = BitVec.ofInt 128 (a.toInt - b.toInt) := by
  rw [usub_eq, BitVec.sub_eq_add_neg, Int.sub_eq_add_neg, BitVec.ofInt_add, BitVec.ofInt_neg, BitVec.ofInt_toInt,
    BitVec.ofInt_toInt]

/-! ## Shifts -/

/-- 42_int128.md R157: a left shift of the bits multiplies the signed value by a power of two. -/
theorem shl_eq_ofInt (a : Word) (n : Nat) :
    shl a n = if 128 ≤ n then 0 else BitVec.ofInt 128 (a.toInt * 2 ^ n) := by
  split_ifs with hn
  · exact shl_of_ge a hn
  · calc shl a n
      _ = BitVec.ofNat 128 (a.toNat * 2 ^ n) := shl_of_le a (by omega)
      _ = a * BitVec.ofNat 128 (2 ^ n) := by rw [BitVec.ofNat_mul, BitVec.ofNat_toNat, BitVec.setWidth_eq]
      _ = BitVec.ofInt 128 a.toInt * BitVec.ofInt 128 (2 ^ n) := by
        rw [BitVec.ofInt_toInt, ← BitVec.ofInt_natCast, Nat.cast_pow, Nat.cast_ofNat]
      _ = BitVec.ofInt 128 (a.toInt * 2 ^ n) := (BitVec.ofInt_mul ..).symm

/-- 42_int128.md R150, within the width: the floor of the rational quotient. -/
theorem sar_eq_floor (a : Word) {n : Nat} (hn : n ≤ 127) :
    sar a n = BitVec.ofInt 128 ⌊(a.toInt : ℚ) / 2 ^ n⌋ := by
  have hfloor : ⌊(a.toInt : ℚ) / 2 ^ n⌋ = a.toInt / 2 ^ n := by
    exact_mod_cast Rat.floor_intCast_div_natCast a.toInt (2 ^ n)
  rw [hfloor, ← sar_toInt a hn, BitVec.ofInt_toInt]

/-- 42_int128.md R150, beyond the width: every bit is the sign. -/
theorem sar_of_ge (a : Word) {n : Nat} (hn : 128 ≤ n) :
    sar a n = if a.toInt < 0 then BitVec.ofInt 128 (-1) else 0 := by
  rw [sar, if_neg (by omega)]
  exact if_congr (isneg_iff a) rfl rfl

/-! ## Division -/

/-- 42_int128.md R149: a truncating remainder is zero or has the dividend's sign. -/
theorem tmod_eq_zero_or_sign (x y : Int) : x.tmod y = 0 ∨ (x.tmod y < 0 ↔ x < 0) := by
  simp only [← signed_mod, decide_eq_true_eq]
  split_ifs <;> omega

/-- The zero divisor, told by its signed value. -/
theorem eq_zero_iff_toInt (e : Word) : e = 0 ↔ e.toInt = 0 := BitVec.toInt_inj.symm

/-- 42_int128.md R147: the one quotient that does not fit, told by the signed values. -/
theorem min_by_minusOne_iff_toInt (b e : Word) :
    b = int128Min ∧ e = BitVec.allOnes 128 ↔ b.toInt = -2 ^ 127 ∧ e.toInt = -1 :=
  and_congr BitVec.toInt_inj.symm BitVec.toInt_inj.symm

/-- 42_int128.md R147: the truncated quotient and its remainder wherever the division is defined. -/
theorem idivrem_toInt {b e : Word} (he : e.toInt ≠ 0) (hfits : ¬ (b.toInt = -2 ^ 127 ∧ e.toInt = -1)) :
    (idivrem b e).1.toInt = b.toInt.tdiv e.toInt ∧ (idivrem b e).2.toInt = b.toInt.tmod e.toInt :=
  idivrem_spec b e (mt (eq_zero_iff_toInt e).mp he) (mt (min_by_minusOne_iff_toInt b e).mp hfits)

/-- The three outcomes of a command that writes one part of a signed division (42_int128.md R148, R149). -/
theorem setRegOrError_signedDivision (op : BitVec 8) (d : Reg) (part : Word × Word → Word) (b e : Word) (s : State) :
    let result := setRegOrError op d ((checkedSignedDivRem b e).map part) s
    if e.toInt = 0 then ∃ t, result = .next t ∧ TakesError s t op .divisionByZero
    else if b.toInt = -2 ^ 127 ∧ e.toInt = -1 then ∃ t, result = .next t ∧ TakesError s t op .overflow
    else ∃ t, result = .next t ∧ WritesReg s t d (part (idivrem b e)) := by
  simp only [checkedSignedDivRem, eq_zero_iff_toInt, min_by_minusOne_iff_toInt]
  split_ifs
  · exact ⟨_, rfl, takeError_takesError s op _⟩
  · exact ⟨_, rfl, takeError_takesError s op _⟩
  · exact setReg_completes d _ s

/-! ## Pseudo-instructions -/

/-- 30_encoding.md R72: a pseudo-instruction for one command writes what that command writes. -/
theorem Writes.of_expand {p : Pseudo} {i : Instr} {s : State} {d : Reg} {v : Word} (h : Writes i s d v)
    (hp : expand p = [i]) : ∃ t, execAll (expand p) s = .next t ∧ WritesReg s t d v := by
  rw [hp, execAll_singleton]
  exact h

end Sys2Proof.Machine

namespace Sys2Proof.Proofs
open Sys2Proof Sys2Proof.Machine

/-- Settles O15: negation is that of the signed value, and a magnitude always fits 128 unsigned bits. -/
theorem negateAndMagnitude : Obligations.NegateAndMagnitude := fun d a s =>
  ⟨selects_commandWord (i := .ineg d a) rfl fun _ _ => rfl, selects_commandWord (i := .iabs d a) rfl fun _ _ => rfl,
    writes_of_unary (f := ineg) rfl (ineg_eq_ofInt _),
    iabs (s.readReg a), iabs_toNat _, unary_completes d a iabs s⟩

/-- Settles O16: the product of the magnitudes under the sign rule is the signed product modulo `2^128`. -/
theorem signedMultiplyIsModular : Obligations.SignedMultiplyIsModular := fun d a b _ =>
  ⟨selects_commandWord (i := .imul d a b) rfl fun _ _ => rfl,
    writes_of_binary (f := imul) rfl (imul_eq_ofInt _ _)⟩

/-- Settles O17: outside the two errors the quotient's value is the truncated one. -/
theorem signedDivideTruncates : Obligations.SignedDivideTruncates := by
  intro d a b s
  refine ⟨selects_commandWord (i := .idiv d a b) rfl fun _ _ => rfl, ?_⟩
  have houtcome := setRegOrError_signedDivision Op.idiv.code d Prod.fst (s.readReg a) (s.readReg b) s
  split_ifs at houtcome ⊢ with hzero hmin
  · exact houtcome
  · exact houtcome
  · obtain ⟨hquotient, -⟩ := idivrem_toInt hzero hmin
    exact ⟨_, hquotient, houtcome⟩

/-- Settles O18: outside the two errors the remainder's value is the truncating one, whose magnitude is the remainder
of the magnitudes. -/
theorem signedRemainderTakesDividendSign : Obligations.SignedRemainderTakesDividendSign := by
  intro d a b s
  refine ⟨selects_commandWord (i := .irem d a b) rfl fun _ _ => rfl, ?_⟩
  have houtcome := setRegOrError_signedDivision Op.irem.code d Prod.snd (s.readReg a) (s.readReg b) s
  split_ifs at houtcome ⊢ with hzero hmin
  · exact houtcome
  · exact houtcome
  · obtain ⟨-, hremainder⟩ := idivrem_toInt hzero hmin
    refine ⟨_, ?_, ?_, houtcome⟩
    · rw [hremainder, Int.natAbs_tmod]
    · rw [hremainder]
      exact tmod_eq_zero_or_sign _ _

/-- Settles O19: the arithmetic shifter, at an amount from a register and at an immediate one. -/
theorem arithmeticShiftFloors : Obligations.ArithmeticShiftFloors := by
  intro d a b imm s
  refine ⟨selects_commandWord (i := .ishr d a b) rfl fun _ _ => rfl,
    selects_commandWord (i := .ishri d a imm) rfl fun _ _ => rfl,
    ⟨fun hn => ?_, fun hn => ?_⟩, fun hn => ?_, fun hn => ?_⟩
  · exact writes_of_binary (f := fun x n => sar x n.toNat) rfl (sar_eq_floor _ hn)
  · exact writes_of_binary (f := fun x n => sar x n.toNat) rfl (sar_of_ge _ hn)
  · exact writes_of_unary (f := fun x => sar x imm.toNat) rfl (sar_eq_floor _ hn)
  · exact writes_of_unary (f := fun x => sar x imm.toNat) rfl (sar_of_ge _ hn)

/-- Settles O21: each pseudo-instruction is one unsigned command or a copy, read on the signed values. -/
theorem sharedCommandsOnSignedValues : Obligations.SharedCommandsOnSignedValues := by
  intro d a b imm s
  have hadd : Writes (.uadd d a b) s d _ := writes_of_binary (f := uadd) rfl (uadd_eq_ofInt_toInt _ _)
  have hsub : Writes (.usub d a b) s d _ := writes_of_binary (f := usub) rfl (usub_eq_ofInt_toInt _ _)
  have hshl : Writes (.ushl d a b) s d _ := writes_of_binary (f := fun x n => shl x n.toNat) rfl (shl_eq_ofInt _ _)
  have hshli : Writes (.ushli d a imm) s d _ := writes_of_unary (f := fun x => shl x imm.toNat) rfl (shl_eq_ofInt _ _)
  have hmov : Writes (.mov d a) s d (s.readReg a) := unary_completes d a id s
  exact ⟨hadd.of_expand rfl, hsub.of_expand rfl, hshl.of_expand rfl, hshli.of_expand rfl, hmov.of_expand rfl,
    hmov.of_expand rfl⟩

end Sys2Proof.Proofs
end

section
/-! Proofs of the obligations of 43_radix.md, with the rules about the parse and the format commands, the base check
that they share, and the number texts that the format commands leave in the string buffer. -/
namespace Sys2Proof.Machine

/-! ## The base check -/

theorem badBase_iff_not_legalBase {base : Byte} : badBase base = true ↔ ¬ LegalBase base := by
  rw [← badBase_eq_false, Bool.not_eq_false]

/-- 43_radix.md R172: a parse command checks its base before it reads the string. -/
theorem errs_invalidBase_of_parseTo {i : Instr} {op : BitVec 8} {signed : Bool} {d : Reg} {base : Byte} {s : State}
    (hi : exec i s = parseTo op signed d base s) (hb : ¬ LegalBase base) : Errs i s op .invalidBase := by
  rcases parseTo_cases op signed d base s with ⟨-, hp⟩ | ⟨hok, -⟩
  · exact ⟨_, hi.trans hp, takeError_takesError s op _⟩
  · exact absurd (badBase_eq_false.mp hok) hb

/-- 43_radix.md R172: a format command checks its base before it reads the register. -/
theorem errs_invalidBase_of_formatFrom {i : Instr} {op : BitVec 8} {text : Word → Nat → List Byte} {a : Reg}
    {base : Byte} {s : State} (hi : exec i s = formatFrom op text a base s) (hb : ¬ LegalBase base) :
    Errs i s op .invalidBase := by
  rcases formatFrom_cases op text a base s with ⟨-, hf⟩ | ⟨hok, -⟩
  · exact ⟨_, hi.trans hf, takeError_takesError s op _⟩
  · exact absurd (badBase_eq_false.mp hok) hb

/-! ## Parsing a written text -/

/-- 43_radix.md R173: a number text is parsed to its value, the sign applied afterward. -/
theorem writes_of_parseTo {i : Instr} {op : BitVec 8} {signed neg : Bool} {d : Reg} {base : Byte} {s : State}
    {t : List Byte} {ds : List Nat} (hi : exec i s = parseTo op signed d base s) (hb : LegalBase base)
    (ht : HoldsText s t) (hn : IsNumber signed base.toNat t neg ds) :
    Writes i s d (BitVec.ofInt 128 (if neg then -(positional base.toNat ds : Int) else positional base.toNat ds)) := by
  rw [Writes, hi, parseTo, if_neg (mt badBase_iff_not_legalBase.mp (not_not_intro hb)), ht, parse_number hn]
  exact setReg_completes d _ s

/-- 60_exceptions.md R281: any other text is an error of the command. -/
theorem errs_invalidDigit_of_parseTo {i : Instr} {op : BitVec 8} {signed : Bool} {d : Reg} {base : Byte} {s : State}
    {t : List Byte} (hi : exec i s = parseTo op signed d base s) (hb : LegalBase base) (ht : HoldsText s t)
    (hn : ¬ ∃ neg ds, IsNumber signed base.toNat t neg ds) : Errs i s op .invalidDigit := by
  rw [Errs, hi, parseTo, if_neg (mt badBase_iff_not_legalBase.mp (not_not_intro hb)), ht, parse_other hn]
  exact ⟨_, rfl, takeError_takesError s op _⟩

/-- 43_radix.md R174: an unsigned number text has no `-`. -/
theorem IsNumber.eq_false_of_unsigned {b : Nat} {t : List Byte} {neg : Bool} {ds : List Nat}
    (h : IsNumber false b t neg ds) : neg = false := by
  obtain ⟨_, ⟨hneg, -⟩ | ⟨hsigned, -⟩, -⟩ := h
  · exact hneg
  · cases hsigned

/-! ## The text that a format command leaves -/

/-- 43_radix.md R177: in a legal base the text is emitted. -/
theorem emits_of_formatFrom {i : Instr} {op : BitVec 8} {text : Word → Nat → List Byte} {a : Reg} {base : Byte}
    {s : State} (hi : exec i s = formatFrom op text a base s) (hb : LegalBase base)
    (hlen : (text (s.readReg a) base.toNat).length < 256) : Emits i s (text (s.readReg a) base.toNat) := by
  rcases formatFrom_cases op text a base s with ⟨hbad, -⟩ | ⟨-, hf⟩
  · exact absurd hb (badBase_iff_not_legalBase.mp hbad)
  · exact ⟨_, hi.trans hf, emit_writesText s hlen⟩

/-- A text just written is the current string. -/
theorem WritesText.holdsText {s t : State} {text : List Byte} (h : WritesText s t text) : HoldsText t text := by
  obtain ⟨-, hbytes, hlen, -⟩ := h
  exact holdsText_of_reads hlen fun a ha => by rw [hbytes, if_pos ha]

/-! ## Formatted texts are number texts -/

/-- 43_radix.md R176: the digits of a value, with or without `-`, are in the grammar. -/
theorem IsDigitsOf.isNumber {b n : Nat} {ds : List Nat} (h : IsDigitsOf b n ds) (hb : b ≤ 36) {signed neg : Bool}
    (hs : neg = true → signed = true) :
    IsNumber signed b (if neg then 0x2D :: ds.map digitChar else ds.map digitChar) neg ds := by
  obtain ⟨hne, hlt, -⟩ := h
  have hread : (ds.map digitChar).map digitValue = ds.map some := map_digitValue fun d hd => (hlt d hd).trans_le hb
  refine ⟨ds.map digitChar, ?_, hne, hread, hlt⟩
  cases neg with
  | false => exact .inl ⟨rfl, .inl rfl⟩
  | true => exact .inr ⟨hs rfl, rfl, rfl⟩

/-- 43_radix.md R178: the unsigned text is a number text of the unsigned value. -/
theorem utext_isNumber {b : Nat} (hb : 2 ≤ b) (hb' : b ≤ 36) (v : Word) :
    ∃ ds, IsNumber false b (utext v b) false ds ∧ positional b ds = v.toNat := by
  obtain ⟨ds, htext, hds, -⟩ := utext_spec hb hb' v
  have hnum : IsNumber false b (ds.map digitChar) false ds := hds.isNumber hb' nofun
  obtain ⟨-, -, -, hval⟩ := hds
  exact ⟨ds, htext ▸ hnum, hval⟩

/-- 43_radix.md R179: the signed text is a number text of the sign and the magnitude. -/
theorem itext_isNumber {b : Nat} (hb : 2 ≤ b) (hb' : b ≤ 36) (v : Word) :
    ∃ ds, IsNumber true b (itext v b) (decide (v.toInt < 0)) ds ∧ positional b ds = v.toInt.natAbs := by
  obtain ⟨ds, htext, hds, -⟩ := itext_spec hb hb' v
  have hnum := hds.isNumber hb' (signed := true) (neg := decide (v.toInt < 0)) fun _ => rfl
  obtain ⟨-, -, -, hval⟩ := hds
  simp only [decide_eq_true_eq, ← htext] at hnum
  exact ⟨ds, hnum, hval⟩

/-- A pattern from the sign and the magnitude of its signed value. -/
theorem ofInt_sign_natAbs (v : Word) :
    BitVec.ofInt 128 (if decide (v.toInt < 0) then -(v.toInt.natAbs : Int) else v.toInt.natAbs) = v := by
  have hval : (if decide (v.toInt < 0) then -(v.toInt.natAbs : Int) else v.toInt.natAbs) = v.toInt := by
    simp only [decide_eq_true_eq]
    split <;> omega
  rw [hval, BitVec.ofInt_toInt]

/-! ## Formatting, then parsing -/

/-- 43_radix.md R176: parsing after a command that has emitted a number text of a pattern's value gives the
pattern. -/
theorem Emits.parse_back {i j : Instr} {op : BitVec 8} {signed neg : Bool} {d : Reg} {base : Byte} {s : State}
    {text : List Byte} {ds : List Nat} {v : Word} (he : Emits i s text)
    (hj : ∀ t, exec j t = parseTo op signed d base t) (hb : LegalBase base)
    (hn : IsNumber signed base.toNat text neg ds)
    (hv : BitVec.ofInt 128 (if neg then -(positional base.toNat ds : Int) else positional base.toNat ds) = v) :
    ∃ t u, exec i s = .next t ∧ exec j t = .next u ∧ u.readReg d = v ∧
      u.responses = s.responses ++ [okResponse, okResponse] := by
  obtain ⟨t, hformat, hwritten⟩ := he
  obtain ⟨u, hparse, hreg, -, -, -, -, hrespu⟩ := writes_of_parseTo (hj t) hb hwritten.holdsText hn
  obtain ⟨-, -, -, -, -, hrespt⟩ := hwritten
  refine ⟨t, u, hformat, hparse, ?_, ?_⟩
  · rw [hreg, if_pos rfl, hv]
  · rw [hrespu, hrespt, List.append_assoc, List.singleton_append]

end Sys2Proof.Machine

namespace Sys2Proof.Proofs
open Sys2Proof Sys2Proof.Machine

/-- Settles O23: the scan accumulates the positional value of the digits; an unsigned text has no `-` to apply. -/
theorem parseGivesNumberValue : Obligations.ParseGivesNumberValue := by
  intro d base s t neg ds
  refine ⟨selects_commandWord (i := .uparse d base) rfl fun _ _ => rfl,
    selects_commandWord (i := .iparse d base) rfl fun _ _ => rfl, fun hb ht => ⟨fun hn => ?_, fun hn => ?_⟩⟩
  · have hw := writes_of_parseTo (i := .uparse d base) rfl hb ht hn
    rwa [hn.eq_false_of_unsigned, if_neg Bool.false_ne_true, BitVec.ofInt_natCast] at hw
  · exact writes_of_parseTo rfl hb ht hn

/-- Settles O24: outside the grammar the scan comes to an offending character or to the end without a digit. -/
theorem parseRejectsOtherTexts : Obligations.ParseRejectsOtherTexts := fun _ _ _ _ hb ht =>
  ⟨errs_invalidDigit_of_parseTo rfl hb ht, errs_invalidDigit_of_parseTo rfl hb ht⟩

/-- Settles O26: the text is that of the unsigned digits, short enough for the string buffer. -/
theorem formatWritesDigits : Obligations.FormatWritesDigits := by
  intro a base s
  refine ⟨selects_commandWord (i := .ufmt a base) rfl fun _ _ => rfl, errs_invalidBase_of_formatFrom rfl,
    fun hb => ?_⟩
  have ⟨h2, h36⟩ := hb
  obtain ⟨ds, htext, hds, -⟩ := utext_spec h2 h36 (s.readReg a)
  exact ⟨ds, hds, htext ▸ emits_of_formatFrom rfl hb (utext_length h2 h36 _)⟩

/-- Settles O27: the text is that of the digits of the magnitude, after the sign. -/
theorem formatWritesSignedDigits : Obligations.FormatWritesSignedDigits := by
  intro a base s
  refine ⟨selects_commandWord (i := .ifmt a base) rfl fun _ _ => rfl, fun hb => ?_⟩
  have ⟨h2, h36⟩ := hb
  obtain ⟨ds, htext, hds, -⟩ := itext_spec h2 h36 (s.readReg a)
  exact ⟨ds, hds, htext ▸ emits_of_formatFrom rfl hb (itext_length h2 h36 _)⟩

/-- Settles O28: the two debug texts are the texts of O26 and O27 between the annotation's constant parts. -/
theorem debugTextsAnnotateBase : Obligations.DebugTextsAnnotateBase := by
  intro a base s
  refine ⟨selects_commandWord (i := .udebug a base) rfl fun _ _ => rfl,
    selects_commandWord (i := .idebug a base) rfl fun _ _ => rfl, fun hb => ?_⟩
  have ⟨h2, h36⟩ := hb
  obtain ⟨ds, hutext, hds, -⟩ := utext_spec h2 h36 (s.readReg a)
  obtain ⟨es, hitext, hes, -⟩ := itext_spec h2 h36 (s.readReg a)
  obtain ⟨bs, hdecimal, hbs, -⟩ := decimal_spec h36
  refine ⟨ds, es, bs, hds, hes, hbs, ?_, ?_⟩
  · rw [← hutext, ← hdecimal]
    exact emits_of_formatFrom rfl hb (udebug_length h2 h36 _)
  · rw [← hitext, ← hdecimal]
    exact emits_of_formatFrom rfl hb (idebug_length h2 h36 _)

/-- Settles O29: each text is a number text of its pattern, so `Emits.parse_back` applies to both pairs. -/
theorem formatThenParseRoundTrips : Obligations.FormatThenParseRoundTrips := by
  intro d a base s hb
  have ⟨h2, h36⟩ := hb
  constructor
  · obtain ⟨ds, hn, hval⟩ := utext_isNumber h2 h36 (s.readReg a)
    refine (emits_of_formatFrom rfl hb (utext_length h2 h36 _)).parse_back (fun _ => rfl) hb hn ?_
    rw [hval, if_neg Bool.false_ne_true, BitVec.ofInt_natCast, BitVec.ofNat_toNat, BitVec.setWidth_eq]
  · obtain ⟨ds, hn, hval⟩ := itext_isNumber h2 h36 (s.readReg a)
    refine (emits_of_formatFrom rfl hb (itext_length h2 h36 _)).parse_back (fun _ => rfl) hb hn ?_
    rw [hval, ofInt_sign_natAbs]

/-- Settles O25: the six commands share the base check of their shape. -/
theorem illegalBaseRejected : Obligations.IllegalBaseRejected := by
  intro r base s hbase
  have hb : ¬ LegalBase base := fun ⟨h2, h36⟩ => by omega
  exact ⟨errs_invalidBase_of_parseTo rfl hb, errs_invalidBase_of_parseTo rfl hb,
    errs_invalidBase_of_formatFrom rfl hb, errs_invalidBase_of_formatFrom rfl hb,
    errs_invalidBase_of_formatFrom rfl hb, errs_invalidBase_of_formatFrom rfl hb⟩

end Sys2Proof.Proofs
end

section
/-! Proofs of the obligations of 44_float128_format.md, with the outcomes of the checked commands, the class mask, the
fields of a double, both conversions, the splitting and the scaling of a value, and the order of patterns. -/
namespace Sys2Proof.Machine

/-! ## Commands with a checked result -/

/-- A checked command whose computation gives a value writes that value. -/
theorem writes_of_ok {i : Instr} {op : BitVec 8} {d : Reg} {v : Except ErrorCause Word} {w : Word} {s : State}
    (hi : exec i s = setRegOrError op d v s) (hv : v = .ok w) : Writes i s d w := by
  rw [Writes, hi, hv]
  exact setReg_completes d w s

/-- A checked command whose computation raises an error takes that error. -/
theorem errs_of_error {i : Instr} {op : BitVec 8} {d : Reg} {v : Except ErrorCause Word} {c : ErrorCause} {s : State}
    (hi : exec i s = setRegOrError op d v s) (hv : v = .error c) : Errs i s op c := by
  rw [Errs, hi, hv]
  exact ⟨_, rfl, takeError_takesError s op c⟩

/-! ## The class mask -/

/-- 44_float128_format.md R209: the places of the predicates and of the tag in the mask. -/
theorem classMask_bits (zero infinite nan signMinus powerOf2 : Bool) (tag : FTag) :
    let m := classMask zero infinite nan signMinus powerOf2 tag
    m.toNat < 2 ^ 7 ∧ m.getLsbD 0 = zero ∧ m.getLsbD 1 = infinite ∧ m.getLsbD 2 = nan ∧ m.getLsbD 3 = signMinus ∧
      m.getLsbD 4 = powerOf2 ∧ m.toNat / 32 = tag.code.toNat := by
  cases tag <;> revert zero infinite nan signMinus powerOf2 <;> decide

/-- 44_float128_format.md R208: a NaN has no reported sign. -/
theorem isSignMinus_iff (v : Word) : isSignMinus v = true ↔ fsign v = true ∧ ¬ isNaN v = true := by
  simp [isSignMinus]

/-- 44_float128_format.md R208: a power of two is a Normal pattern without a mantissa field. -/
theorem isPowerOf2_iff (v : Word) : isPowerOf2 v = true ↔ ffrac v = 0 ∧ ftag v = .normal := by
  constructor
  · intro h
    have hfields : (ffrac v = 0 ∧ 1 ≤ fexp v) ∧ fexp v ≤ 32766 := by
      simpa only [isPowerOf2, Bool.and_eq_true, decide_eq_true_eq] using h
    obtain ⟨⟨hfrac, hpos⟩, hfinite⟩ := hfields
    exact ⟨hfrac, (ftag_normal_iff v).mpr ⟨fun hzero => by omega, by omega⟩⟩
  · rintro ⟨hfrac, hnormal⟩
    exact (isPowerOf2_normal hnormal).mpr hfrac

/-- 44_float128_format.md R203: Normal is what none of the three classes of specials takes. -/
theorem ftag_normal_iff_not_special (v : Word) :
    ftag v = .normal ↔ ¬ isZero v = true ∧ ¬ isInfinite v = true ∧ ¬ isNaN v = true := by
  rw [← ftag_zero_iff, ← ftag_infinity_iff, ← ftag_nan_iff]
  cases ftag v <;> simp

/-! ## The fields of a double -/

/-- A double from its three fields (10_state.md R29). -/
def dmake (s : Bool) (e : BitVec 11) (f : BitVec 52) : DWord := BitVec.ofBool s ++ e ++ f

theorem toNat_dmake (s : Bool) (e : BitVec 11) (f : BitVec 52) :
    (dmake s e f).toNat = (if s then 2 ^ 63 else 0) + e.toNat * 2 ^ 52 + f.toNat := by
  have hsign : s.toNat * 2 ^ 63 = if s then 2 ^ 63 else 0 := by cases s <;> rfl
  rw [dmake, BitVec.toNat_append, ← Nat.shiftLeft_add_eq_or_of_lt f.isLt, toNat_ofBool_append, Nat.shiftLeft_eq,
    ← hsign]
  ring

/-- A double is made of its fields. -/
theorem dmake_fields (d : DWord) : dmake (dsign d) (d.extractLsb' 52 11) (dfrac d) = d := by
  have hsign : (if dsign d then 2 ^ 63 else 0) = d.toNat / 2 ^ 63 % 2 * 2 ^ 63 := by
    rw [← Nat.toNat_testBit, dsign, BitVec.getLsbD]
    cases d.toNat.testBit 63 <;> rfl
  apply BitVec.eq_of_toNat_eq
  rw [toNat_dmake, hsign]
  simp only [dfrac, BitVec.extractLsb'_toNat, Nat.shiftRight_eq_div_pow]
  omega

theorem dmake_zero (s : Bool) : dmake s 0 0 = BitVec.ofBool s ++ (0 : BitVec 63) := by
  cases s <;> rfl

theorem dexp_lt (d : DWord) : dexp d < 2 ^ 11 := (d.extractLsb' 52 11).isLt

/-! ## From a double -/

/-- Shifting left by the number of its leading zeros brings a number's highest bit to the top of `k` bits. -/
theorem shift_to_top_bounds {m k : Nat} (hm : m ≠ 0) (hk : msb m ≤ k) :
    2 ^ (k - 1) ≤ m * 2 ^ (k - msb m) ∧ m * 2 ^ (k - msb m) < 2 ^ k := by
  obtain ⟨hpos, hlow, hhigh⟩ := msb_bounds hm
  constructor
  · calc 2 ^ (k - 1) = 2 ^ (msb m - 1) * 2 ^ (k - msb m) := by rw [← pow_add]; congr 1; omega
      _ ≤ m * 2 ^ (k - msb m) := Nat.mul_le_mul_right _ hlow
  · calc m * 2 ^ (k - msb m) < 2 ^ msb m * 2 ^ (k - msb m) := Nat.mul_lt_mul_of_pos_right hhigh (by positivity)
      _ = 2 ^ k := by rw [← pow_add]; congr 1; omega

theorem dfrexp_of_normal {d : DWord} (h : dexp d ≠ 0) : dfrexp d = (dfrac d, (dexp d : Int) - 1022) :=
  if_pos (Nat.one_le_iff_ne_zero.mpr h)

theorem dfrexp_of_subnormal {d : DWord} (h : dexp d = 0) :
    dfrexp d = (dfrac d <<< (53 - msb (dfrac d).toNat), (msb (dfrac d).toNat : Int) - 1074) :=
  if_neg (by omega)

theorem msb_dfrac_le (d : DWord) : msb (dfrac d).toNat ≤ 52 := msb_le_of_lt (dfrac d).isLt

/-- 44_float128_format.md R206: normalising a subnormal's mantissa makes its highest bit the implicit one. -/
theorem subnormal_significand {d : DWord} (h : dfrac d ≠ 0) :
    2 ^ 52 + (dfrac d <<< (53 - msb (dfrac d).toNat)).toNat =
      (dfrac d).toNat * 2 ^ (53 - msb (dfrac d).toNat) := by
  have hbounds := shift_to_top_bounds (k := 53) (BitVec.toNat_ne_iff_ne.mpr h) (by have := msb_dfrac_le d; omega)
  rw [BitVec.toNat_shiftLeft, Nat.shiftLeft_eq]
  omega

/-- 44_float128_format.md R206: the exponents of the nonzero finite doubles are within the range of Float128. -/
theorem dfrexp_exponent_range {d : DWord} (hfin : dexp d ≠ 2047) (hnz : ¬ (dexp d = 0 ∧ dfrac d = 0)) :
    -1073 ≤ (dfrexp d).2 ∧ (dfrexp d).2 ≤ 1024 := by
  have hlt := dexp_lt d
  by_cases h : dexp d = 0
  · obtain ⟨hpos, -⟩ := msb_bounds (BitVec.toNat_ne_iff_ne.mpr fun hf => hnz ⟨h, hf⟩)
    have hle := msb_dfrac_le d
    rw [dfrexp_of_subnormal h]
    simp only
    omega
  · rw [dfrexp_of_normal h]
    simp only
    omega

/-- 44_float128_format.md R206: the normalised mantissa and the exponent make up the value. -/
theorem dval_eq_dfrexp {d : DWord} (hnz : ¬ (dexp d = 0 ∧ dfrac d = 0)) :
    dval d = signFactor (dsign d) * (2 ^ 52 + (dfrexp d).1.toNat : ℕ) * (2 : ℚ) ^ ((dfrexp d).2 - 53) := by
  by_cases h : dexp d = 0
  · have hle := msb_dfrac_le d
    have hexp : ((53 - msb (dfrac d).toNat : ℕ) : ℤ) + ((msb (dfrac d).toNat : ℤ) - 1074 - 53) = -1074 := by omega
    rw [dval, if_pos h, dfrexp_of_subnormal h, subnormal_significand fun hf => hnz ⟨h, hf⟩, Nat.cast_mul, Nat.cast_pow,
      Nat.cast_ofNat, mul_assoc, mul_assoc, mul_assoc, ← zpow_natCast, ← zpow_add₀ two_ne_zero, hexp]
  · rw [dval, if_neg h, dfrexp_of_normal h, show (dexp d : ℤ) - 1022 - 53 = (dexp d : ℤ) - 1023 - 52 by ring]
    push_cast
    rfl

/-- 44_float128_format.md R211: an infinity or a NaN. -/
theorem fromDouble_of_special {d : DWord} (h : dexp d = 2047) :
    fromDouble d = if dfrac d = 0 then finf (dsign d) else Config.qnan128 := by
  by_cases hf : dfrac d = 0 <;> simp [fromDouble, h, hf]

theorem fromDouble_of_zero {d : DWord} (h : dexp d = 0 ∧ dfrac d = 0) : fromDouble d = fzero (dsign d) := by
  simp [fromDouble, h]

theorem toNat_append_zeros (f : BitVec 52) : (f ++ (0 : BitVec 60)).toNat = f.toNat * 2 ^ 60 := by
  have hzero : (0 : BitVec 60).toNat = 0 := BitVec.toNat_zero
  rw [BitVec.toNat_append, hzero, Nat.or_zero, Nat.shiftLeft_eq]

/-- 44_float128_format.md R211: the fields of a converted double that is neither zero nor special. -/
theorem fromDouble_fields {d : DWord} (hfin : dexp d ≠ 2047) (hnz : ¬ (dexp d = 0 ∧ dfrac d = 0)) :
    fsign (fromDouble d) = dsign d ∧ (fexp (fromDouble d) : Int) = (dfrexp d).2 + 16382 ∧
      ffrac (fromDouble d) = (dfrexp d).1 ++ (0 : BitVec 60) := by
  obtain ⟨hlo, hhi⟩ := dfrexp_exponent_range hfin hnz
  have hmake : fromDouble d =
      fmake (dsign d) (BitVec.ofInt 15 ((dfrexp d).2 - 1 + 16383)) ((dfrexp d).1 ++ (0 : BitVec 60)) := by
    simp only [fromDouble, hfin, hnz, false_and, if_false]
  rw [hmake, fsign_fmake, fexp_fmake, ffrac_fmake, toNat_ofInt15 (by omega) (by omega)]
  exact ⟨rfl, by ring, rfl⟩

/-- 44_float128_format.md R211: the conversion keeps the value and gives a Normal pattern with 60 low zero bits. -/
theorem fromDouble_exact {d : DWord} (hfin : dexp d ≠ 2047) (hnz : ¬ (dexp d = 0 ∧ dfrac d = 0)) :
    ftag (fromDouble d) = .normal ∧ fsign (fromDouble d) = dsign d ∧ fval (fromDouble d) = dval d ∧
      (fromDouble d).extractLsb' 0 60 = 0 := by
  obtain ⟨hlo, hhi⟩ := dfrexp_exponent_range hfin hnz
  obtain ⟨hsign, hexp, hfrac⟩ := fromDouble_fields hfin hnz
  refine ⟨(ftag_normal_iff _).mpr ⟨fun h => by omega, by omega⟩, hsign, ?_, ?_⟩
  · have hsignif : signif (fromDouble d) = (2 ^ 52 + (dfrexp d).1.toNat) * 2 ^ 60 := by
      rw [signif, hfrac, toNat_append_zeros]
      ring
    rw [dval_eq_dfrexp hnz, fval, hsign, hsignif, hexp, Nat.cast_mul, Nat.cast_pow, Nat.cast_ofNat, mul_assoc, mul_assoc,
      mul_assoc, ← zpow_natCast, ← zpow_add₀ two_ne_zero]
    congr 3
    push_cast
    ring
  · have hlow : (fromDouble d).extractLsb' 0 60 = (ffrac (fromDouble d)).extractLsb' 0 60 :=
      (BitVec.extractLsb'_extractLsb'_of_le (by omega)).symm
    rw [hlow, hfrac, extractLsb'_append_low]

/-! ## To a double -/

/-- 44_float128_format.md R212, over the fields: a zero is flushed with the values too small for a double. -/
theorem toDouble_eq (v : Word) : toDouble v =
    if fexp v = 32767 ∧ ffrac v ≠ 0 then .ok Config.qnan64
    else if fexp v = 32767 then .ok (dmake (fsign v) 0x7FF 0)
    else if 17407 ≤ fexp v then .error .overflow
    else if fexp v ≤ 15360 then .ok (dmake (fsign v) 0 0)
    else .ok (dmake (fsign v) (BitVec.ofNat 11 (fexp v - 15360)) (v.extractLsb' 60 52)) := by
  have hover : (2047 : Int) ≤ (fexp v : Int) - 16383 + 1023 ↔ 17407 ≤ fexp v := by omega
  have hunder : (fexp v : Int) - 16383 + 1023 ≤ 0 ↔ fexp v ≤ 15360 := by omega
  simp only [toDouble, hover, hunder, ← dmake_zero]
  refine ite_congr (propext (isNaN_iff v)) (fun _ => rfl) fun hnan => ?_
  refine ite_congr (propext ?_) (fun _ => rfl) fun _ => ?_
  · rw [isInfinite_iff]
    exact and_iff_left_of_imp fun hexp => not_not.mp fun hfrac => hnan ⟨hexp, hfrac⟩
  by_cases hzero : isZero v = true
  · have ⟨hexp, _⟩ := (isZero_iff v).mp hzero
    rw [if_pos hzero, if_neg (by omega), if_pos (by omega)]
  · rw [if_neg hzero]
    refine ite_congr rfl (fun _ => rfl) fun _ => ite_congr rfl (fun _ => rfl) fun hlarge => ?_
    have hbits : BitVec.ofInt 11 ((fexp v : Int) - 16383 + 1023) = BitVec.ofNat 11 (fexp v - 15360) := by
      rw [← BitVec.ofInt_natCast]
      congr 1
      omega
    rw [hbits]
    rfl

/-- The register that `FTOD` writes for a double given by its fields. -/
theorem setWidth_dmake (s : Bool) (e : BitVec 11) (f : BitVec 52) : (dmake s e f).setWidth 128 =
    BitVec.ofNat 128 ((if s then 2 ^ 63 else 0) + e.toNat * 2 ^ 52 + f.toNat) := by
  rw [← toNat_dmake, BitVec.ofNat_toNat]

/-- The top 52 of the 112 mantissa bits. -/
theorem toNat_top_mantissa (v : Word) : (v.extractLsb' 60 52).toNat = (ffrac v).toNat / 2 ^ 60 := by
  simp only [ffrac, BitVec.extractLsb'_toNat, Nat.shiftRight_eq_div_pow]
  omega

/-- 44_float128_format.md R213: what is left of a double after conversion to Float128 and back. -/
def doubleReturned (x : DWord) : DWord :=
  if dexp x = 2047 ∧ dfrac x ≠ 0 then Config.qnan64
  else if dexp x = 0 then BitVec.ofBool (dsign x) ++ (0 : BitVec 63)
  else x

theorem doubleReturned_of_nan {x : DWord} (h : dexp x = 2047 ∧ dfrac x ≠ 0) : doubleReturned x = Config.qnan64 :=
  if_pos h

theorem doubleReturned_of_small {x : DWord} (h : dexp x = 0) : doubleReturned x = dmake (dsign x) 0 0 := by
  rw [doubleReturned, if_neg fun hnan => by omega, if_pos h, dmake_zero]

theorem doubleReturned_of_large {x : DWord} (hnan : ¬ (dexp x = 2047 ∧ dfrac x ≠ 0)) (h : dexp x ≠ 0) :
    doubleReturned x = x := by
  rw [doubleReturned, if_neg hnan, if_neg h]

theorem toDouble_finf (s : Bool) : toDouble (finf s) = .ok (dmake s 0x7FF 0) := by
  cases s <;> decide

theorem toDouble_fzero (s : Bool) : toDouble (fzero s) = .ok (dmake s 0 0) := by
  cases s <;> decide

theorem toDouble_qnan128 : toDouble Config.qnan128 = .ok Config.qnan64 := by decide

theorem toDouble_fromDouble_special {x : DWord} (h : dexp x = 2047) :
    toDouble (fromDouble x) = .ok (doubleReturned x) := by
  rw [fromDouble_of_special h]
  by_cases hfrac : dfrac x = 0
  · have hexp : x.extractLsb' 52 11 = 0x7FF := BitVec.eq_of_toNat_eq h
    rw [if_pos hfrac, toDouble_finf, doubleReturned_of_large (fun hnan => hnan.2 hfrac) (by omega), ← hexp, ← hfrac,
      dmake_fields]
  · rw [if_neg hfrac, toDouble_qnan128, doubleReturned_of_nan ⟨h, hfrac⟩]

theorem toDouble_fromDouble_finite {x : DWord} (hfin : dexp x ≠ 2047) (hnz : ¬ (dexp x = 0 ∧ dfrac x = 0)) :
    toDouble (fromDouble x) = .ok (doubleReturned x) := by
  obtain ⟨hlo, hhi⟩ := dfrexp_exponent_range hfin hnz
  obtain ⟨hsign, hexp, hfrac⟩ := fromDouble_fields hfin hnz
  rw [toDouble_eq, if_neg fun hnan => by omega, if_neg (by omega), if_neg (by omega), hsign]
  by_cases h : dexp x = 0
  · have hle := msb_dfrac_le x
    rw [dfrexp_of_subnormal h] at hexp
    rw [if_pos (by omega), doubleReturned_of_small h]
  · rw [dfrexp_of_normal h] at hexp hfrac
    have hfield : fexp (fromDouble x) - 15360 = dexp x := by omega
    have htop : (fromDouble x).extractLsb' 60 52 = dfrac x := by
      apply BitVec.eq_of_toNat_eq
      rw [toNat_top_mantissa, hfrac, toNat_append_zeros, Nat.mul_div_cancel _ (by norm_num)]
    rw [if_neg (by omega), doubleReturned_of_large (fun hspecial => hfin hspecial.1) h, hfield, dexp, BitVec.ofNat_toNat,
      BitVec.setWidth_eq, htop, dmake_fields]

/-- 44_float128_format.md R213. -/
theorem toDouble_fromDouble (x : DWord) : toDouble (fromDouble x) = .ok (doubleReturned x) := by
  by_cases hfin : dexp x = 2047
  · exact toDouble_fromDouble_special hfin
  · by_cases hzero : dexp x = 0 ∧ dfrac x = 0
    · have ⟨hexp, _⟩ := hzero
      rw [fromDouble_of_zero hzero, toDouble_fzero, doubleReturned_of_small hexp]
    · exact toDouble_fromDouble_finite hfin hzero

/-! ## Splitting and scaling -/

theorem frexp_of_special {v : Word} (h : ftag v ≠ .normal) : frexp v = (v, 0) :=
  if_pos ((isSpecial_iff v).mpr h)

theorem frexp_of_normal {v : Word} (h : ftag v = .normal) :
    frexp v = (fmake (fsign v) 16382 (ffrac v), (fexp v : Int) - 16382) := by
  rw [frexp, if_neg (mt (isSpecial_iff v).mp (not_not.mpr h)),
    show (fexp v : Int) - 16383 + 1 = (fexp v : Int) - 16382 by ring]

theorem ldexp_of_special {m : Word} (h : ftag m ≠ .normal) (e : Int) : ldexp m e = .ok m :=
  if_pos ((isSpecial_iff m).mpr h)

/-- 44_float128_format.md R218: the range check and the exponent field of a Normal mantissa. -/
theorem ldexp_of_normal {m : Word} (h : ftag m = .normal) (e : Int) :
    ldexp m e = if e < -16382 ∨ 16384 < e then .error .overflow
      else .ok (fmake (fsign m) (BitVec.ofInt 15 (e + 16382)) (ffrac m)) := by
  have hfield : e - 1 + 16383 = e + 16382 := by ring
  have hrange : e + 16382 < 0 ∨ 32766 < e + 16382 ↔ e < -16382 ∨ 16384 < e := by omega
  rw [ldexp, if_neg (mt (isSpecial_iff m).mp (not_not.mpr h))]
  simp only [hfield, hrange]

/-- 44_float128_format.md R216: the mantissa that is split off is Normal, whatever the fraction. -/
theorem ftag_mantissa (s : Bool) (f : BitVec 112) : ftag (fmake s 16382 f) = .normal := by
  rw [ftag_normal_iff, fexp_fmake]
  exact ⟨fun h => absurd h.1 (by decide), by decide⟩

/-- 44_float128_format.md R217: the value is the mantissa's times the power of two that is split off. -/
theorem fval_eq_mantissa_mul (v : Word) :
    fval v = fval (fmake (fsign v) 16382 (ffrac v)) * (2 : ℚ) ^ ((fexp v : ℤ) - 16382) := by
  have hfield : ((16382 : BitVec 15).toNat : ℤ) = 16382 := by decide
  have hpow : (2 : ℚ) ^ ((16382 : ℤ) - 16383 - 112) * 2 ^ ((fexp v : ℤ) - 16382) =
      2 ^ ((fexp v : ℤ) - 16383 - 112) := by
    rw [← zpow_add₀ two_ne_zero]
    congr 1
    ring
  rw [fval, fval, signif, signif, fsign_fmake, fexp_fmake, ffrac_fmake, hfield, ← hpow, ← mul_assoc]

/-- The exponent that is split off fits an Int128. -/
theorem toInt_split_exponent (v : Word) :
    (BitVec.ofInt 128 ((fexp v : Int) - 16382)).toInt = (fexp v : Int) - 16382 := by
  have hlt := fexp_lt v
  exact BitVec.toInt_ofInt_eq_self (by norm_num) (by norm_num; omega) (by norm_num; omega)

/-- 44_float128_format.md R220: scaling by the exponent that was split off, read back as an Int128, undoes the split. -/
theorem ldexp_frexp (v : Word) : ldexp (frexp v).1 (BitVec.ofInt 128 (frexp v).2).toInt = .ok v := by
  by_cases h : ftag v = .normal
  · have ⟨_, hfinite⟩ := (ftag_normal_iff v).mp h
    have hlt := fexp_lt v
    have hexp : (BitVec.ofInt 15 ((fexp v : Int) - 16382 + 16382)).toNat = fexp v := by
      rw [Int.sub_add_cancel, BitVec.ofInt_natCast, BitVec.toNat_ofNat, Nat.mod_eq_of_lt hlt]
    rw [frexp_of_normal h, toInt_split_exponent, ldexp_of_normal (ftag_mantissa _ _), if_neg (by omega), fsign_fmake,
      ffrac_fmake]
    congr 1
    exact eq_of_fields (fsign_fmake ..) ((fexp_fmake ..).trans hexp) (ffrac_fmake ..)
  · rw [frexp_of_special h]
    exact ldexp_of_special h _

/-- 44_float128_format.md R217: both parts of the split are written, to two different registers. -/
theorem ffrexp_writesTwo {d e : Reg} (hde : d ≠ e) (a : Reg) (s : State) :
    WritesTwo (.ffrexp d e a) s d e (frexp (s.readReg a)).1 (BitVec.ofInt 128 (frexp (s.readReg a)).2) := by
  rw [WritesTwo, show exec (.ffrexp d e a) s = execFfrexp d e a s from rfl, execFfrexp, setRegsOrError, if_neg hde]
  exact ⟨_, rfl, writeTwo_writesTwoRegs s hde _ _⟩

/-! ## Comparison -/

theorem isZero_iff_fmag (v : Word) : isZero v = true ↔ fmag v = 0 := by
  have hzero : (0 : BitVec 112).toNat = 0 := BitVec.toNat_zero
  rw [isZero_iff, fmag_eq, ← BitVec.toNat_inj, hzero]
  omega

/-- The comparator of FCMP orders the magnitudes. -/
theorem ucmp_magnitudes (l r : Word) :
    ucmp ((l.extractLsb' 0 127).setWidth 128) ((r.extractLsb' 0 127).setWidth 128) =
      if fmag l < fmag r then .lt else if fmag l = fmag r then .eq else .gt := by
  have hmag (v : Word) : ((v.extractLsb' 0 127).setWidth 128 : Word).toNat = fmag v := by
    rw [BitVec.toNat_setWidth_of_le (by omega), fmag]
  simp only [ucmp_eq, ← BitVec.toNat_inj, hmag]

theorem orderKey_of_plus {v : Word} (h : fsign v = false) : orderKey v = fmag v := by
  simp [orderKey, h]

theorem orderKey_of_minus {v : Word} (h : fsign v = true) : orderKey v = -fmag v := by
  simp [orderKey, h]

/-- Exchanging the outcomes is comparing the negations. -/
theorem CmpCode.swap_of_order (m n : Nat) :
    (if m < n then CmpCode.lt else if m = n then .eq else .gt).swap =
      if -(m : Int) < -(n : Int) then .lt else if -(m : Int) = -(n : Int) then .eq else .gt := by
  rcases lt_trichotomy m n with h | h | h
  · rw [if_pos h, if_neg (by omega), if_neg (by omega)]
    rfl
  · rw [if_neg (by omega), if_pos h, if_neg (by omega), if_pos (by omega)]
    rfl
  · rw [if_neg (by omega), if_neg (by omega), if_pos (by omega)]
    rfl

/-- 44_float128_format.md R221: FCMP orders patterns by sign and magnitude as one integer. -/
theorem fcmp_eq (l r : Word) : fcmp l r =
    if isNaN l ∨ isNaN r then .un
    else if orderKey l < orderKey r then .lt else if orderKey l = orderKey r then .eq else .gt := by
  rw [fcmp]
  refine ite_congr rfl (fun _ => rfl) fun _ => ?_
  simp only [ucmp_magnitudes, isZero_iff_fmag]
  by_cases hzero : fmag l = 0 ∧ fmag r = 0
  · obtain ⟨hl, hr⟩ := hzero
    simp [orderKey, hl, hr]
  · rw [if_neg hzero]
    cases hl : fsign l <;> cases hr : fsign r
    case false.false => simp [orderKey_of_plus hl, orderKey_of_plus hr]
    case false.true =>
      rw [orderKey_of_plus hl, orderKey_of_minus hr, if_neg (show ¬ (fmag l : Int) < -fmag r by omega),
        if_neg (show ¬ (fmag l : Int) = -fmag r by omega)]
      rfl
    case true.false =>
      rw [orderKey_of_minus hl, orderKey_of_plus hr, if_pos (show -(fmag l : Int) < fmag r by omega)]
      rfl
    case true.true =>
      rw [orderKey_of_minus hl, orderKey_of_minus hr, ← CmpCode.swap_of_order]
      rfl

/-- 44_float128_format.md R221: the comparison code as a word. -/
theorem fcmp_word (l r : Word) : (fcmp l r).word =
    if isNaN l ∨ isNaN r then 3
    else if orderKey l < orderKey r then 1 else if orderKey l = orderKey r then 0 else 2 := by
  rw [fcmp_eq, apply_ite CmpCode.word, CmpCode.word_of_order]
  rfl

theorem signif_pos (v : Word) : 0 < signif v := by
  obtain ⟨hlow, -⟩ := signif_bounds v
  omega

/-- No value is 0: the significand has its implicit one, also in a pattern that is not Normal. -/
theorem abs_fval_pos (v : Word) : 0 < |fval v| := by
  have hpos := signif_pos v
  rw [abs_fval]
  positivity

theorem fval_of_plus {v : Word} (h : fsign v = false) : fval v = |fval v| := by
  rw [abs_fval, fval, h, signFactor, if_neg Bool.false_ne_true, one_mul]

theorem fval_of_minus {v : Word} (h : fsign v = true) : fval v = -|fval v| := by
  rw [abs_fval, fval, h, signFactor, if_pos rfl, neg_one_mul, neg_mul]

/-- 44_float128_format.md R222: on Normal patterns the order of sign and magnitude is the order of the values. -/
theorem orderKey_lt_iff {v w : Word} (hv : ftag v = .normal) (hw : ftag w = .normal) :
    orderKey v < orderKey w ↔ fval v < fval w := by
  have hmag {u : Word} (hu : ftag u = .normal) : 0 < fmag u := by
    have ⟨hne, _, _⟩ := (ftag_normal_iff_not_special u).mp hu
    exact Nat.pos_of_ne_zero (mt (isZero_iff_fmag u).mpr hne)
  have hmv := hmag hv
  have hmw := hmag hw
  have hav := abs_fval_pos v
  have haw := abs_fval_pos w
  cases hsv : fsign v <;> cases hsw : fsign w
  case false.false =>
    rw [orderKey_of_plus hsv, orderKey_of_plus hsw, fval_of_plus hsv, fval_of_plus hsw, Nat.cast_lt]
    exact fmag_lt_iff v w
  case false.true =>
    rw [orderKey_of_plus hsv, orderKey_of_minus hsw, fval_of_plus hsv, fval_of_minus hsw]
    exact iff_of_false (by omega) (by linarith)
  case true.false =>
    rw [orderKey_of_minus hsv, orderKey_of_plus hsw, fval_of_minus hsv, fval_of_plus hsw]
    exact iff_of_true (by omega) (by linarith)
  case true.true =>
    rw [orderKey_of_minus hsv, orderKey_of_minus hsw, fval_of_minus hsv, fval_of_minus hsw, neg_lt_neg_iff,
      neg_lt_neg_iff, Nat.cast_lt]
    exact fmag_lt_iff w v

theorem orderKey_eq_iff {v w : Word} (hv : ftag v = .normal) (hw : ftag w = .normal) :
    orderKey v = orderKey w ↔ fval v = fval w := by
  rw [eq_iff_le_not_lt, eq_iff_le_not_lt, ← not_lt, ← not_lt, orderKey_lt_iff hv hw, orderKey_lt_iff hw hv]

end Sys2Proof.Machine

namespace Sys2Proof.Proofs
open Sys2Proof Sys2Proof.Machine

/-- Settles O31: the mask holds the five predicates and the tag, and each of them is told by the fields. -/
theorem classMaskBits : Obligations.ClassMaskBits := by
  intro d a s
  refine ⟨selects_commandWord (i := .fclass d a) rfl fun _ _ => rfl, ?_⟩
  simp only [← isZero_iff, ← isInfinite_iff, ← isNaN_iff]
  generalize hv : s.readReg a = v
  obtain ⟨hlt, hzero, hinfinite, hnan, hsign, hpower, htag⟩ :=
    classMask_bits (isZero v) (isInfinite v) (isNaN v) (isSignMinus v) (isPowerOf2 v) (ftag v)
  refine ⟨fclass v, hlt, Bool.eq_iff_iff.mp hzero, Bool.eq_iff_iff.mp hinfinite, Bool.eq_iff_iff.mp hnan,
    (Bool.eq_iff_iff.mp hsign).trans (isSignMinus_iff v), ?_, fun h => ?_, fun h => ?_, fun h => ?_,
    fun h h' h'' => ?_, writes_of_unary (f := fclass) rfl (congrArg fclass hv)⟩
  · rw [← ftag_normal_iff_not_special, ← isPowerOf2_iff]
    exact Bool.eq_iff_iff.mp hpower
  · exact htag.trans (congrArg (fun t => t.code.toNat) ((ftag_zero_iff v).mpr h))
  · exact htag.trans (congrArg (fun t => t.code.toNat) ((ftag_infinity_iff v).mpr h))
  · exact htag.trans (congrArg (fun t => t.code.toNat) ((ftag_nan_iff v).mpr h))
  · exact htag.trans (congrArg (fun t => t.code.toNat) ((ftag_normal_iff_not_special v).mpr ⟨h, h', h''⟩))

/-- Settles O32: specials and zeros are given by their class, every other double by `fromDouble_exact`. -/
theorem fromDoubleIsExact : Obligations.FromDoubleIsExact := by
  intro d a s
  have hwrites {v : Word} (hv : fromDouble ((s.readReg a).extractLsb' 0 64) = v) : Writes (.ffromd d a) s d v :=
    writes_of_unary (f := fun x => fromDouble (x.extractLsb' 0 64)) rfl hv
  refine ⟨selects_commandWord (i := .ffromd d a) rfl fun _ _ => rfl, ?_⟩
  dsimp only
  by_cases hspecial : dexp ((s.readReg a).extractLsb' 0 64) = 2047
  · rw [if_pos hspecial]
    exact hwrites (fromDouble_of_special hspecial)
  rw [if_neg hspecial]
  by_cases hzero : dexp ((s.readReg a).extractLsb' 0 64) = 0 ∧ dfrac ((s.readReg a).extractLsb' 0 64) = 0
  · rw [if_pos hzero]
    exact hwrites (fromDouble_of_zero hzero)
  · rw [if_neg hzero]
    obtain ⟨hnormal, hsign, hvalue, hlow⟩ := fromDouble_exact hspecial hzero
    exact ⟨_, hnormal, hsign, hvalue, hlow, hwrites rfl⟩

/-- Settles O33: the five outcomes of `toDouble_eq`, each a double told by its fields or the error. -/
theorem toDoubleTruncates : Obligations.ToDoubleTruncates := by
  intro d a s
  have hwrites {x : DWord} {w : Word} (hv : toDouble (s.readReg a) = .ok x) (hw : x.setWidth 128 = w) :
      Writes (.ftod d a) s d w :=
    writes_of_ok (op := Op.ftod.code) rfl (hw ▸ congrArg (Except.map (BitVec.setWidth 128)) hv)
  refine ⟨selects_commandWord (i := .ftod d a) rfl fun _ _ => rfl, ?_⟩
  have hvalue := toDouble_eq (s.readReg a)
  dsimp only
  by_cases hnan : fexp (s.readReg a) = 32767 ∧ ffrac (s.readReg a) ≠ 0
  · rw [if_pos hnan] at hvalue ⊢
    exact hwrites hvalue rfl
  rw [if_neg hnan] at hvalue ⊢
  by_cases hinf : fexp (s.readReg a) = 32767
  · rw [if_pos hinf] at hvalue ⊢
    exact hwrites hvalue (setWidth_dmake ..)
  rw [if_neg hinf] at hvalue ⊢
  by_cases hlarge : 17407 ≤ fexp (s.readReg a)
  · rw [if_pos hlarge] at hvalue ⊢
    exact errs_of_error (op := Op.ftod.code) (d := d) rfl (congrArg (Except.map (BitVec.setWidth 128)) hvalue)
  rw [if_neg hlarge] at hvalue ⊢
  by_cases hsmall : fexp (s.readReg a) ≤ 15360
  · rw [if_pos hsmall] at hvalue ⊢
    exact hwrites hvalue (setWidth_dmake ..)
  · rw [if_neg hsmall] at hvalue ⊢
    refine hwrites hvalue ((setWidth_dmake ..).trans ?_)
    rw [toNat_top_mantissa, BitVec.toNat_ofNat, Nat.mod_eq_of_lt (by omega)]

/-- Settles O34: `FTOD` reads the pattern that `FFROMD` has written, so `toDouble_fromDouble` applies. -/
theorem doubleRoundTrip : Obligations.DoubleRoundTrip := by
  intro d e a s x
  obtain ⟨t, hfrom, hread, -⟩ : Writes (.ffromd d a) s d (fromDouble x) :=
    writes_of_unary (f := fun v => fromDouble (v.extractLsb' 0 64)) rfl rfl
  have hpattern : t.readReg d = fromDouble x := by rw [hread, if_pos rfl]
  obtain ⟨u, hto, hresult, -⟩ : Writes (.ftod e d) t e ((doubleReturned x).setWidth 128) :=
    writes_of_ok (op := Op.ftod.code) rfl (by rw [hpattern, toDouble_fromDouble]; rfl)
  exact ⟨t, u, hfrom, hto, by rw [hresult, if_pos rfl]; rfl⟩

/-- Settles O35: the fraction is kept, so moving the exponent to its own register keeps the value. -/
theorem frexpSplits : Obligations.FrexpSplits := by
  intro d e a s
  constructor
  · have hrejected :=
      decode_equalDestinations (f := ⟨Op.ffrexp.code, d, a, 0, d, 0⟩) (o := .ffrexp) rfl ⟨rfl, rfl⟩ rfl rfl
    rw [Fields.toWord_eq] at hrejected
    exact hrejected
  · intro hde
    refine ⟨selects_commandWord (i := .ffrexp d e a) (bne_iff_ne.mpr hde) fun _ _ => rfl, ?_⟩
    have hwrites := ffrexp_writesTwo hde a s
    dsimp only
    split_ifs with hnormal
    · rw [frexp_of_normal hnormal] at hwrites
      exact ⟨_, fsign_fmake .., fexp_fmake .., ffrac_fmake .., fval_eq_mantissa_mul _, hwrites⟩
    · rw [frexp_of_special hnormal] at hwrites
      exact hwrites

/-- Settles O36: within the range the new exponent field holds `e + 16382` without loss. -/
theorem ldexpSetsExponent : Obligations.LdexpSetsExponent := by
  intro d a b s
  refine ⟨selects_commandWord (i := .fldexp d a b) rfl fun _ _ => rfl, ?_⟩
  dsimp only
  split_ifs with hspecial hrange
  · exact writes_of_ok (op := Op.fldexp.code) rfl (ldexp_of_special hspecial _)
  · exact errs_of_error (d := d) rfl ((ldexp_of_normal (not_not.mp hspecial) _).trans (if_pos hrange))
  · refine ⟨_, fsign_fmake .., ?_, ffrac_fmake .., writes_of_ok (op := Op.fldexp.code) rfl
      ((ldexp_of_normal (not_not.mp hspecial) _).trans (if_neg hrange))⟩
    rw [fexp_fmake, toNat_ofInt15 (by omega) (by omega)]

/-- Settles O37: `FLDEXP` reads both parts that `FFREXP` has written, so `ldexp_frexp` applies. -/
theorem ldexpInvertsFrexp : Obligations.LdexpInvertsFrexp := by
  intro d e a f s hde
  obtain ⟨t, hsplit, hread, -, -, -, -, hresponse⟩ := ffrexp_writesTwo hde a s
  have hmantissa : t.readReg d = (frexp (s.readReg a)).1 := by rw [hread, if_pos rfl]
  have hexponent : t.readReg e = BitVec.ofInt 128 (frexp (s.readReg a)).2 := by
    rw [hread, if_neg (Ne.symm hde), if_pos rfl]
  obtain ⟨u, hscale, hresult, -, -, -, -, hresponse'⟩ : Writes (.fldexp f d e) t f (s.readReg a) :=
    writes_of_ok (op := Op.fldexp.code) rfl (by rw [hmantissa, hexponent, ldexp_frexp])
  refine ⟨t, u, hsplit, hscale, by rw [hresult, if_pos rfl], ?_⟩
  rw [hresponse', hresponse, List.append_assoc, List.singleton_append]

/-- Settles O38: the comparison is that of sign and magnitude, which on Normal patterns is that of the values. -/
theorem floatCompareOrders : Obligations.FloatCompareOrders := by
  intro d a b s
  refine ⟨selects_commandWord (i := .fcmp d a b) rfl fun _ _ => rfl, ?_⟩
  have hcompare := writes_of_binary (i := .fcmp d a b) (s := s) (f := fun l r => (fcmp l r).word) rfl
    (fcmp_word (s.readReg a) (s.readReg b))
  refine ⟨hcompare, fun hl hr => ?_⟩
  have ⟨_, _, hnanl⟩ := (ftag_normal_iff_not_special _).mp hl
  have ⟨_, _, hnanr⟩ := (ftag_normal_iff_not_special _).mp hr
  simpa only [hnanl, hnanr, Bool.false_eq_true, or_self, if_false, orderKey_lt_iff hl hr, orderKey_eq_iff hl hr]
    using hcompare

end Sys2Proof.Proofs
end

section
/-! Proofs of the obligations of 45_float128_arith.md, with the operations by the classes of their operands, the one-bit
renormalisation, the truncated product and its error, the aligner, the quotient and the exact remainder. -/
namespace Sys2Proof.Machine

/-! ## The operations by the classes of their operands -/

/-- 45_float128_arith.md R241. -/
theorem fmul_eq (l r : Word) : fmul l r =
    if ftag l = .nan ∨ ftag r = .nan then Config.qnan128
    else if ftag l = .infinity ∧ ftag r = .zero ∨ ftag l = .zero ∧ ftag r = .infinity then Config.qnan128
    else if ftag l = .infinity ∨ ftag r = .infinity then finf (fsign l ^^ fsign r)
    else if ftag l = .zero ∨ ftag r = .zero then fzero (fsign l ^^ fsign r)
    else fmulNormal l r := by
  simp only [fmul, ftag_nan_iff, ftag_infinity_iff, ftag_zero_iff]

/-- 45_float128_arith.md R245. -/
theorem fadd_eq (l r : Word) : fadd l r =
    if ftag l = .nan ∨ ftag r = .nan then Config.qnan128
    else if ftag l = .infinity ∧ ftag r = .infinity then (if fsign l = fsign r then l else Config.qnan128)
    else if ftag l = .infinity then l
    else if ftag r = .infinity then r
    else if ftag l = .zero ∧ ftag r = .zero then (if fsign l = fsign r then l else 0)
    else if ftag l = .zero then r
    else if ftag r = .zero then l
    else faddNormal l r := by
  have hzero : fzero false = 0 := by decide
  simp only [fadd, hzero, ftag_nan_iff, ftag_infinity_iff, ftag_zero_iff]

/-- 45_float128_arith.md R250. -/
theorem fdiv_eq (l r : Word) : fdiv l r =
    if ftag r = .zero then .error .divisionByZero
    else if ftag l = .nan ∨ ftag r = .nan then .ok Config.qnan128
    else if ftag l = .infinity ∧ ftag r = .infinity then .ok Config.qnan128
    else if ftag l = .infinity then .ok (finf (fsign l ^^ fsign r))
    else if ftag r = .infinity then .ok (fzero (fsign l ^^ fsign r))
    else if ftag l = .zero then .ok (fzero (fsign l ^^ fsign r))
    else .ok (fdivNormal l r) := by
  simp only [fdiv, ftag_nan_iff, ftag_infinity_iff, ftag_zero_iff]

/-- 45_float128_arith.md R253: an infinite divisor and a zero dividend both return the dividend. -/
theorem fmod_eq (l r : Word) : fmod l r =
    if ftag r = .zero then .error .divisionByZero
    else if ftag l = .nan ∨ ftag r = .nan then .ok Config.qnan128
    else if ftag l = .infinity then .ok Config.qnan128
    else if ftag r = .infinity ∨ ftag l = .zero then .ok l
    else .ok (fmodNormal l r) := by
  simp only [fmod, ftag_nan_iff, ftag_infinity_iff, ftag_zero_iff, ite_or]

theorem fmul_of_normal {l r : Word} (hl : ftag l = .normal) (hr : ftag r = .normal) : fmul l r = fmulNormal l r := by
  simp [fmul_eq, hl, hr]

theorem fadd_of_normal {l r : Word} (hl : ftag l = .normal) (hr : ftag r = .normal) : fadd l r = faddNormal l r := by
  simp [fadd_eq, hl, hr]

theorem fdiv_of_normal {l r : Word} (hl : ftag l = .normal) (hr : ftag r = .normal) :
    fdiv l r = .ok (fdivNormal l r) := by
  simp [fdiv_eq, hl, hr]

theorem fmod_of_normal {l r : Word} (hl : ftag l = .normal) (hr : ftag r = .normal) :
    fmod l r = .ok (fmodNormal l r) := by
  simp [fmod_eq, hl, hr]

/-! ## Packed results -/

/-- 44_float128_format.md R205: packing saturates above the exponent range. -/
theorem pack_of_large (s : Bool) {e : Int} (he : 32767 ≤ e) (f : Nat) : pack s e f = finf s := if_pos he

/-- 44_float128_format.md R205: packing flushes below the exponent range. -/
theorem pack_of_small (s : Bool) {e : Int} (he : e ≤ 0) (f : Nat) : pack s e f = fzero s := by
  rw [pack, if_neg (by omega), if_pos he]

/-- What is packed is Normal only where nothing saturates or flushes. -/
theorem IsPacked.exponent_range {s : Bool} {e : Int} {m : Nat} {v : Word} (h : IsPacked s e m v)
    (hv : ftag v = .normal) : 0 < e ∧ e < 32767 := by
  obtain ⟨-, hlarge, hsmall, -⟩ := h
  obtain ⟨hnonzero, hfinite⟩ := (ftag_normal_iff v).mp hv
  exact ⟨not_le.mp fun he => hnonzero (hsmall he), not_le.mp fun he => hfinite (hlarge he).1⟩

/-- The magnitude of a packed pattern in range. -/
theorem IsPacked.abs_value {s : Bool} {e : Int} {m : Nat} {v : Word} (h : IsPacked s e m v) (hlow : 0 < e)
    (hhigh : e < 32767) : |fval v| = m * (2 : ℚ) ^ (e - 16383 - 112) := by
  obtain ⟨-, -, hvalue⟩ := h.value hlow hhigh
  rw [hvalue, abs_mul, abs_mul, abs_signFactor, one_mul, Nat.abs_cast, abs_of_pos (by positivity)]

/-- 45_float128_arith.md R243, R247: a significand of 113 or 114 bits is packed after at most one shift. -/
theorem renormalise_isPacked (s : Bool) (e : Int) {m : Nat} (hlow : 2 ^ 112 ≤ m) (hhigh : m < 2 ^ 114) :
    IsPacked s (if 2 ^ 113 ≤ m then e + 1 else e) (if 2 ^ 113 ≤ m then m / 2 else m)
      (if 2 ^ 113 ≤ m then pack s (e + 1) (m >>> 1) else pack s e m) := by
  split_ifs with hcarry
  · exact pack_isPacked s (e + 1) (by omega) (by omega)
  · exact pack_isPacked s e hlow (by omega)

/-! ## Multiplication -/

/-- The weight of the last place of the exact product of two significands. -/
def productUnit (l r : Word) : ℚ := (2 : ℚ) ^ ((fexp l : ℤ) + fexp r - 16383 - 16383 - 112 - 112)

theorem productUnit_pos (l r : Word) : 0 < productUnit l r := by
  rw [productUnit]
  positivity

theorem fval_mul (l r : Word) :
    fval l * fval r = signFactor (fsign l ^^ fsign r) * (signif l * signif r : ℕ) * productUnit l r := by
  have hscale : (fexp l : ℤ) + fexp r - 16383 - 16383 - 112 - 112 =
      ((fexp l : ℤ) - 16383 - 112) + ((fexp r : ℤ) - 16383 - 112) := by ring
  rw [fval, fval, productUnit, signFactor_xor, hscale, zpow_add₀ two_ne_zero, Nat.cast_mul]
  ring

theorem abs_fval_mul (l r : Word) : |fval l * fval r| = (signif l * signif r : ℕ) * productUnit l r := by
  rw [fval_mul, abs_mul, abs_mul, abs_signFactor, one_mul, Nat.abs_cast, abs_of_pos (productUnit_pos l r)]

/-- The exponent of the product, raised by `j`, in units of the exact product. -/
theorem zpow_product_exponent (l r : Word) (j : ℕ) :
    (2 : ℚ) ^ ((fexp l : ℤ) + fexp r - 16383 + j - 16383 - 112) = (2 ^ j * 2 ^ 112 : ℕ) * productUnit l r := by
  have hsplit : (fexp l : ℤ) + fexp r - 16383 + j - 16383 - 112 =
      (j : ℤ) + (112 : ℕ) + ((fexp l : ℤ) + fexp r - 16383 - 16383 - 112 - 112) := by push_cast; ring
  rw [hsplit, zpow_add₀ two_ne_zero, zpow_add₀ two_ne_zero, zpow_natCast, zpow_natCast, productUnit]
  push_cast
  rfl

/-- A Normal pattern packed with the exponent of the product, raised by `j`, in units of the exact product. -/
theorem IsPacked.abs_product {s : Bool} {l r v : Word} {j m : ℕ}
    (h : IsPacked s ((fexp l : Int) + fexp r - 16383 + j) m v) (hv : ftag v = .normal) :
    |fval v| = (m * 2 ^ j * 2 ^ 112 : ℕ) * productUnit l r := by
  obtain ⟨hlow, hhigh⟩ := h.exponent_range hv
  rw [h.abs_value hlow hhigh, zpow_product_exponent, ← mul_assoc, ← Nat.cast_mul, mul_assoc]

theorem signif_of_ffrac_zero {v : Word} (h : ffrac v = 0) : signif v = 2 ^ 112 := by
  rw [signif, h]
  rfl

/-- 45_float128_arith.md R242: the fast path packs the other operand's whole significand, which is the product of both
but for the `2^112` of the power of two. -/
theorem fmulNormal_of_powerOf2 {l r : Word} (h : isPowerOf2 l = true ∨ isPowerOf2 r = true) :
    ∃ f m : ℕ, fmulNormal l r = pack (fsign l ^^ fsign r) ((fexp l : Int) + fexp r - 16383) f ∧
      IsPacked (fsign l ^^ fsign r) ((fexp l : Int) + fexp r - 16383) m (fmulNormal l r) ∧
      m * 2 ^ 112 = signif l * signif r := by
  have hpack (v : Word) : IsPacked (fsign l ^^ fsign r) ((fexp l : Int) + fexp r - 16383) (signif v)
      (pack (fsign l ^^ fsign r) ((fexp l : Int) + fexp r - 16383) (ffrac v).toNat) := by
    obtain ⟨hlow, hhigh⟩ := signif_bounds v
    rw [pack_implicit]
    exact pack_isPacked _ _ hlow hhigh
  by_cases hr : isPowerOf2 r = true
  · obtain ⟨hfrac, -⟩ := (isPowerOf2_iff r).mp hr
    rw [fmulNormal, if_pos hr, signif_of_ffrac_zero hfrac]
    exact ⟨_, _, rfl, hpack l, rfl⟩
  · have hl := h.resolve_right hr
    obtain ⟨hfrac, -⟩ := (isPowerOf2_iff l).mp hl
    rw [fmulNormal, if_neg hr, if_pos hl, signif_of_ffrac_zero hfrac]
    exact ⟨_, _, rfl, hpack r, mul_comm _ _⟩

theorem fmulNormal_of_not_powerOf2 {l r : Word} (hl : isPowerOf2 l = false) (hr : isPowerOf2 r = false) :
    fmulNormal l r = fmulGeneral l r := by
  simp only [fmulNormal, hl, hr, Bool.false_eq_true, if_false]

/-- The top 57 bits of a significand, by its mantissa field and as a quotient. -/
theorem signif_top (v : Word) : 2 ^ 56 + (ffrac v).toNat / 2 ^ 56 = signif v / 2 ^ 56 := by
  rw [signif]
  omega

theorem signif_top_bounds (v : Word) : 2 ^ 56 ≤ signif v / 2 ^ 56 ∧ signif v / 2 ^ 56 < 2 ^ 57 := by
  obtain ⟨hlow, hhigh⟩ := signif_bounds v
  omega

/-- 45_float128_arith.md R243: the product of the top 57 bits, renormalised and packed. -/
theorem fmulGeneral_isPacked (l r : Word) :
    IsPacked (fsign l ^^ fsign r)
      (if 2 ^ 113 ≤ signif l / 2 ^ 56 * (signif r / 2 ^ 56) then (fexp l : Int) + fexp r - 16383 + 1
        else (fexp l : Int) + fexp r - 16383)
      (if 2 ^ 113 ≤ signif l / 2 ^ 56 * (signif r / 2 ^ 56) then signif l / 2 ^ 56 * (signif r / 2 ^ 56) / 2
        else signif l / 2 ^ 56 * (signif r / 2 ^ 56))
      (fmulGeneral l r) := by
  obtain ⟨hllow, hlhigh⟩ := signif_top_bounds l
  obtain ⟨hrlow, hrhigh⟩ := signif_top_bounds r
  have hlow : 2 ^ 56 * 2 ^ 56 ≤ signif l / 2 ^ 56 * (signif r / 2 ^ 56) := Nat.mul_le_mul hllow hrlow
  have hhigh : signif l / 2 ^ 56 * (signif r / 2 ^ 56) < 2 ^ 57 * 2 ^ 57 := Nat.mul_lt_mul'' hlhigh hrhigh
  simp only [fmulGeneral, Nat.shiftRight_eq_div_pow _ 56, signif_top]
  exact renormalise_isPacked _ _ hlow hhigh

/-- 45_float128_arith.md R256: cutting both factors to their top 57 bits, and the product by one more bit, loses less
than one part in `2^54`. -/
theorem truncated_product_bounds {m n q : ℕ} (hm : 2 ^ 56 ≤ m / 2 ^ 56) (hn : 2 ^ 56 ≤ n / 2 ^ 56)
    (hle : q ≤ m / 2 ^ 56 * (n / 2 ^ 56)) (hge : m / 2 ^ 56 * (n / 2 ^ 56) ≤ q + 1) :
    q * 2 ^ 112 ≤ m * n ∧ m * n * 2 ^ 54 < q * 2 ^ 112 * 2 ^ 54 + m * n := by
  have htop (k : ℕ) : k / 2 ^ 56 * 2 ^ 56 ≤ k ∧ k < (k / 2 ^ 56 + 1) * 2 ^ 56 := by omega
  obtain ⟨hmlow, hmhigh⟩ := htop m
  obtain ⟨hnlow, hnhigh⟩ := htop n
  generalize m / 2 ^ 56 = a at *
  generalize n / 2 ^ 56 = b at *
  have hlow : a * b * 2 ^ 112 ≤ m * n := by
    calc a * b * 2 ^ 112 = a * 2 ^ 56 * (b * 2 ^ 56) := by ring
      _ ≤ m * n := Nat.mul_le_mul hmlow hnlow
  have hhigh : m * n < (a + 1) * (b + 1) * 2 ^ 112 := by
    calc m * n < (a + 1) * 2 ^ 56 * ((b + 1) * 2 ^ 56) := Nat.mul_lt_mul'' hmhigh hnhigh
      _ = (a + 1) * (b + 1) * 2 ^ 112 := by ring
  have hexpand : (a + 1) * (b + 1) = a * b + a + b + 1 := by ring
  have hslackb : 2 ^ 56 * (b + 1) ≤ (a + 1) * (b + 1) := Nat.mul_le_mul_right _ (by omega)
  have hslacka : (a + 1) * 2 ^ 56 ≤ (a + 1) * (b + 1) := Nat.mul_le_mul_left _ (by omega)
  constructor
  · exact (Nat.mul_le_mul_right _ hle).trans hlow
  · linarith

/-- 45_float128_arith.md R256: a Normal product in units of the exact one, which it does not exceed. -/
theorem fmulNormal_truncates {l r : Word} (h : ftag (fmulNormal l r) = .normal) :
    fsign (fmulNormal l r) = (fsign l ^^ fsign r) ∧ ∃ n : ℕ, |fval (fmulNormal l r)| = n * productUnit l r ∧
      n ≤ signif l * signif r ∧ signif l * signif r * 2 ^ 54 < n * 2 ^ 54 + signif l * signif r := by
  by_cases hpower : isPowerOf2 l = true ∨ isPowerOf2 r = true
  · obtain ⟨-, m, -, hpacked, hexact⟩ := fmulNormal_of_powerOf2 hpower
    refine ⟨hpacked.1, m * 2 ^ 0 * 2 ^ 112, IsPacked.abs_product (j := 0) (by simpa using hpacked) h, ?_⟩
    have hpos : 0 < signif l * signif r := Nat.mul_pos (signif_pos l) (signif_pos r)
    omega
  · obtain ⟨hl, hr⟩ := not_or.mp hpower
    rw [fmulNormal_of_not_powerOf2 (Bool.not_eq_true _ ▸ hl) (Bool.not_eq_true _ ▸ hr)] at h ⊢
    obtain ⟨hllow, -⟩ := signif_top_bounds l
    obtain ⟨hrlow, -⟩ := signif_top_bounds r
    have hpacked := fmulGeneral_isPacked l r
    refine ⟨hpacked.1, ?_⟩
    split_ifs at hpacked with hcarry
    · exact ⟨_, hpacked.abs_product (j := 1) h, truncated_product_bounds hllow hrlow (by omega) (by omega)⟩
    · rw [← add_zero ((fexp l : Int) + fexp r - 16383)] at hpacked
      exact ⟨_, hpacked.abs_product (j := 0) h, truncated_product_bounds hllow hrlow (by omega) (by omega)⟩

/-! ## Addition -/

theorem fields_eq_of_fmag_eq {v w : Word} (h : fmag v = fmag w) : fexp v = fexp w ∧ ffrac v = ffrac w := by
  have hv := ffrac_lt v
  have hw := ffrac_lt w
  rw [fmag_eq, fmag_eq] at h
  have hexp : fexp v = fexp w := by omega
  exact ⟨hexp, BitVec.eq_of_toNat_eq (by omega)⟩

/-- 45_float128_arith.md R246: the aligned significand of the smaller operand is not above that of the larger. -/
theorem aligned_le_signif {big small : Word} (h : fmag small ≤ fmag big) :
    signif small / 2 ^ (fexp big - fexp small) ≤ signif big := by
  have hbig := ffrac_lt big
  have hsmall := ffrac_lt small
  rw [fmag_eq, fmag_eq] at h
  rcases Nat.eq_zero_or_pos (fexp big - fexp small) with hequal | hdiff
  · rw [hequal, pow_zero, Nat.div_one, signif, signif]
    omega
  · calc signif small / 2 ^ (fexp big - fexp small)
        ≤ signif small / 2 ^ 1 := Nat.div_le_div_left (Nat.pow_le_pow_right two_pos hdiff) (by norm_num)
      _ ≤ signif big := by rw [signif, signif]; omega

/-- 45_float128_arith.md R247. -/
theorem faddSame_isPacked (s : Bool) (e : Int) {mb ms : ℕ} (hlow : 2 ^ 112 ≤ mb) (hhigh : mb < 2 ^ 113)
    (hle : ms ≤ mb) :
    IsPacked s (if 2 ^ 113 ≤ mb + ms then e + 1 else e) (if 2 ^ 113 ≤ mb + ms then (mb + ms) / 2 else mb + ms)
      (faddSame s e mb ms) :=
  renormalise_isPacked s e (by omega) (by omega)

/-- 45_float128_arith.md R248: equal significands cancel to the positive zero. -/
theorem faddOpposite_of_cancel (s : Bool) (e : Int) {mb ms : ℕ} (h : mb - ms = 0) :
    faddOpposite s e mb ms = 0 := by
  rw [faddOpposite, if_pos h]
  decide

/-- A nonzero significand below `2^113`, normalised and packed. -/
theorem normalised_isPacked (s : Bool) (e : Int) {m : ℕ} (hne : m ≠ 0) (hlt : m < 2 ^ 113) :
    ∃ n : ℕ, n = 113 - msb m ∧ 2 ^ 112 ≤ m * 2 ^ n ∧ m * 2 ^ n < 2 ^ 113 ∧
      IsPacked s (e - n) (m * 2 ^ n) (pack s (e - n) (m <<< n)) := by
  obtain ⟨-, hlow, hhigh⟩ := normalise hne hlt
  rw [Nat.shiftLeft_eq] at hlow hhigh
  rw [exists_eq_left, Nat.shiftLeft_eq]
  exact ⟨hlow, hhigh, pack_isPacked s _ hlow hhigh⟩

/-- 45_float128_arith.md R248: a difference is normalised and packed. -/
theorem faddOpposite_isPacked (s : Bool) (e : Int) {mb ms : ℕ} (h : mb - ms ≠ 0) (hmb : mb < 2 ^ 113) :
    ∃ n : ℕ, 2 ^ 112 ≤ (mb - ms) * 2 ^ n ∧ (mb - ms) * 2 ^ n < 2 ^ 113 ∧
      IsPacked s (e - n) ((mb - ms) * 2 ^ n) (faddOpposite s e mb ms) := by
  obtain ⟨n, hn, hlow, hhigh, hpacked⟩ := normalised_isPacked s e h (by omega)
  rw [faddOpposite, if_neg h, ← hn]
  exact ⟨n, hlow, hhigh, hpacked⟩

/-- 45_float128_arith.md R246: the operand of larger magnitude goes first, the left one on a tie. -/
theorem faddNormal_of_larger {l r big small : Word}
    (h : l = big ∧ r = small ∧ fmag small ≤ fmag big ∨ l = small ∧ r = big ∧ fmag small < fmag big) :
    faddNormal l r = faddAligned big small := by
  obtain ⟨rfl, rfl, hle⟩ | ⟨rfl, rfl, hlt⟩ := h
  · exact if_pos hle
  · exact if_neg (not_le.mpr hlt)

/-- 45_float128_arith.md R248: opposite patterns of one magnitude cancel. -/
theorem faddAligned_of_cancel {v w : Word} (hmag : fmag v = fmag w) (hsign : fsign v ≠ fsign w) :
    faddAligned v w = 0 := by
  obtain ⟨hexp, hfrac⟩ := fields_eq_of_fmag_eq hmag
  simp only [faddAligned, hexp, Nat.sub_self, Nat.not_lt_zero, if_false, if_neg hsign, Nat.shiftRight_zero]
  exact faddOpposite_of_cancel _ _ (by rw [signif, signif, hfrac, Nat.sub_self])

/-- 45_float128_arith.md R249: only a tie of magnitudes could tell the operands apart, and there they are equal or
cancel. -/
theorem faddNormal_comm (l r : Word) : faddNormal l r = faddNormal r l := by
  rcases lt_trichotomy (fmag l) (fmag r) with hlt | heq | hgt
  · rw [faddNormal_of_larger (.inr ⟨rfl, rfl, hlt⟩), faddNormal_of_larger (.inl ⟨rfl, rfl, hlt.le⟩)]
  · obtain ⟨hexp, hfrac⟩ := fields_eq_of_fmag_eq heq
    by_cases hsign : fsign l = fsign r
    · rw [eq_of_fields hsign hexp hfrac]
    · rw [faddNormal_of_larger (.inl ⟨rfl, rfl, heq.ge⟩), faddNormal_of_larger (.inl ⟨rfl, rfl, heq.le⟩),
        faddAligned_of_cancel heq hsign, faddAligned_of_cancel heq.symm (Ne.symm hsign)]
  · rw [faddNormal_of_larger (.inl ⟨rfl, rfl, hgt.le⟩), faddNormal_of_larger (.inr ⟨rfl, rfl, hgt⟩)]

/-- Two infinities, or two zeros, of one sign are one pattern. -/
theorem eq_of_special_tag {t : FTag} (ht : t = .infinity ∨ t = .zero) {v w : Word} (hv : ftag v = t) (hw : ftag w = t)
    (hsign : fsign v = fsign w) : v = w := by
  obtain rfl | rfl := ht
  · obtain ⟨hve, hvf⟩ := (isInfinite_iff v).mp ((ftag_infinity_iff v).mp hv)
    obtain ⟨hwe, hwf⟩ := (isInfinite_iff w).mp ((ftag_infinity_iff w).mp hw)
    exact eq_of_fields hsign (hve.trans hwe.symm) (hvf.trans hwf.symm)
  · obtain ⟨hve, hvf⟩ := (isZero_iff v).mp ((ftag_zero_iff v).mp hv)
    obtain ⟨hwe, hwf⟩ := (isZero_iff w).mp ((ftag_zero_iff w).mp hw)
    exact eq_of_fields hsign (hve.trans hwe.symm) (hvf.trans hwf.symm)

/-- 45_float128_arith.md R245, R249: the sum of like specials is the common pattern, so it has no order. -/
theorem ite_sign_comm {t : FTag} (ht : t = .infinity ∨ t = .zero) {l r : Word} (hl : ftag l = t) (hr : ftag r = t)
    (unlike : Word) : (if fsign l = fsign r then l else unlike) = if fsign r = fsign l then r else unlike := by
  by_cases hsign : fsign l = fsign r
  · rw [if_pos hsign, if_pos hsign.symm, eq_of_special_tag ht hl hr hsign]
  · rw [if_neg hsign, if_neg (Ne.symm hsign)]

/-- 45_float128_arith.md R249: two infinities, two zeros and two Normal operands are the cases where the table does not
name the result by the class of one operand alone. -/
theorem fadd_comm (l r : Word) : fadd l r = fadd r l := by
  cases hl : ftag l <;> cases hr : ftag r
  case infinity.infinity => simpa [fadd_eq, hl, hr] using ite_sign_comm (.inl rfl) hl hr Config.qnan128
  case zero.zero => simpa [fadd_eq, hl, hr] using ite_sign_comm (.inr rfl) hl hr 0
  case normal.normal => rw [fadd_of_normal hl hr, fadd_of_normal hr hl, faddNormal_comm]
  all_goals simp [fadd_eq, hl, hr]

/-! ## Division -/

/-- 45_float128_arith.md R251: 113 steps of the long division give the quotient scaled by `2^112`. -/
theorem fdivBits_quotient {m r : ℕ} (hm : 0 < m) (hr : r < 2 * m) : fdivBits m 113 0 r = r * 2 ^ 112 / m := by
  rw [fdivBits_spec hm 113 0 r hr, Nat.zero_add, pow_succ' 2 112, mul_left_comm, Nat.mul_div_mul_left _ _ two_pos]

/-- A ratio from 1 up to 2, scaled by `2^112`, has 113 bits. -/
theorem quotient_bounds {m r : ℕ} (hm : 0 < m) (hlow : m ≤ r) (hhigh : r < 2 * m) :
    2 ^ 112 ≤ r * 2 ^ 112 / m ∧ r * 2 ^ 112 / m < 2 ^ 113 := by
  rw [Nat.le_div_iff_mul_le hm, Nat.div_lt_iff_lt_mul hm]
  omega

theorem pack_fdivBits_isPacked (s : Bool) (e : Int) {m r : ℕ} (hm : 0 < m) (hlow : m ≤ r) (hhigh : r < 2 * m) :
    IsPacked s e (r * 2 ^ 112 / m) (pack s e (fdivBits m 113 0 r)) := by
  obtain ⟨hqlow, hqhigh⟩ := quotient_bounds hm hlow hhigh
  rw [fdivBits_quotient hm hhigh]
  exact pack_isPacked s e hqlow hqhigh

/-- 45_float128_arith.md R251: the dividend is doubled first where its significand is below the divisor's. -/
theorem fdivNormal_isPacked (l r : Word) :
    if signif l < signif r then
      IsPacked (fsign l ^^ fsign r) ((fexp l : Int) - fexp r + 16383 - 1) (2 * signif l * 2 ^ 112 / signif r)
        (fdivNormal l r)
    else IsPacked (fsign l ^^ fsign r) ((fexp l : Int) - fexp r + 16383) (signif l * 2 ^ 112 / signif r)
      (fdivNormal l r) := by
  obtain ⟨hllow, hlhigh⟩ := signif_bounds l
  obtain ⟨hrlow, hrhigh⟩ := signif_bounds r
  simp only [fdivNormal]
  split_ifs with hless
  · rw [Nat.shiftLeft_eq, pow_one, mul_comm (signif l) 2]
    exact pack_fdivBits_isPacked _ _ (by omega) (by omega) (by omega)
  · exact pack_fdivBits_isPacked _ _ (by omega) (by omega) (by omega)

/-! ## Modulo -/

/-- The remainder of truncating division does not see a common scale. -/
theorem sub_mul_floor_div_of_scaled (m n : ℕ) {unit : ℚ} (hunit : unit ≠ 0) :
    m * unit - n * unit * ⌊m * unit / (n * unit)⌋ = (m % n : ℕ) * unit := by
  have hdivision : (n : ℚ) * (m / n : ℕ) + (m % n : ℕ) = m := by exact_mod_cast Nat.div_add_mod m n
  rw [mul_div_mul_right _ _ hunit, Rat.floor_natCast_div_natCast, ← Int.natCast_div, Int.cast_natCast, ← hdivision]
  ring

/-- 45_float128_arith.md R254: the remainder of the values is that of the significands, the dividend's at the exponent of
the divisor. -/
theorem remainder_eq {l r : Word} (h : fexp r ≤ fexp l) : |fval l| - |fval r| * ⌊|fval l| / |fval r|⌋ =
    (signif l * 2 ^ (fexp l - fexp r) % signif r : ℕ) * (2 : ℚ) ^ ((fexp r : ℤ) - 16383 - 112) := by
  have hl : |fval l| = (signif l * 2 ^ (fexp l - fexp r) : ℕ) * (2 : ℚ) ^ ((fexp r : ℤ) - 16383 - 112) := by
    have hexp : (fexp l : ℤ) - 16383 - 112 = (fexp l - fexp r : ℕ) + ((fexp r : ℤ) - 16383 - 112) := by omega
    rw [abs_fval, hexp, zpow_add₀ two_ne_zero, zpow_natCast, ← mul_assoc, Nat.cast_mul, Nat.cast_pow, Nat.cast_ofNat]
  rw [hl, abs_fval r, sub_mul_floor_div_of_scaled _ _ (by positivity)]

/-- A normalised significand puts its value at or above the least Normal magnitude iff its exponent is positive. -/
theorem scaled_lt_least_iff {m : ℕ} (e : ℤ) (hlow : 2 ^ 112 ≤ m) (hhigh : m < 2 ^ 113) :
    (m : ℚ) * 2 ^ (e - 16383 - 112) < (2 : ℚ) ^ (1 - 16383 : ℤ) ↔ e ≤ 0 := by
  have hscale (k : ℕ) : (2 : ℚ) ^ (e - 16383 - 112 + k) = (2 ^ k : ℕ) * (2 : ℚ) ^ (e - 16383 - 112) := by
    rw [zpow_add₀ two_ne_zero, zpow_natCast, mul_comm, Nat.cast_pow, Nat.cast_ofNat]
  have hpos : (0 : ℚ) < 2 ^ (e - 16383 - 112) := by positivity
  constructor
  · intro hlt
    by_contra hexp
    refine absurd hlt (not_lt.mpr ?_)
    calc (2 : ℚ) ^ (1 - 16383 : ℤ) ≤ 2 ^ (e - 16383 - 112 + (112 : ℕ)) :=
          zpow_le_zpow_right₀ one_le_two (by omega)
      _ = (2 ^ 112 : ℕ) * (2 : ℚ) ^ (e - 16383 - 112) := hscale 112
      _ ≤ m * 2 ^ (e - 16383 - 112) := mul_le_mul_of_nonneg_right (Nat.cast_le.mpr hlow) hpos.le
  · intro hexp
    calc (m : ℚ) * 2 ^ (e - 16383 - 112)
        < (2 ^ 113 : ℕ) * (2 : ℚ) ^ (e - 16383 - 112) := mul_lt_mul_of_pos_right (Nat.cast_lt.mpr hhigh) hpos
      _ = (2 : ℚ) ^ (e - 16383 - 112 + (113 : ℕ)) := (hscale 113).symm
      _ ≤ 2 ^ (1 - 16383 : ℤ) := zpow_le_zpow_right₀ one_le_two (by omega)

/-- 45_float128_arith.md R254: the packed remainder has the value of the exact one, or is flushed below the least
magnitude. -/
theorem fmodNormal_exact {l r : Word} (hr : ftag r = .normal) (h : ¬ fmag l < fmag r) :
    let rest := |fval l| - |fval r| * ⌊|fval l| / |fval r|⌋
    if rest < (2 : ℚ) ^ (1 - 16383 : ℤ) then fmodNormal l r = fzero (fsign l)
    else ftag (fmodNormal l r) = .normal ∧ fsign (fmodNormal l r) = fsign l ∧ |fval (fmodNormal l r)| = rest := by
  have hexp : fexp r ≤ fexp l := by
    have hl := ffrac_lt l
    rw [fmag_eq, fmag_eq] at h
    omega
  obtain ⟨-, hfinite⟩ := (ftag_normal_iff r).mp hr
  have hrange := fexp_lt r
  obtain ⟨-, hrhigh⟩ := signif_bounds r
  have hbound := (Nat.mod_lt (signif l * 2 ^ (fexp l - fexp r)) (signif_pos r)).trans hrhigh
  dsimp only
  rw [remainder_eq hexp]
  simp only [fmodNormal, if_neg h, Nat.shiftLeft_eq _ (fexp l - fexp r)]
  generalize signif l * 2 ^ (fexp l - fexp r) % signif r = t at hbound ⊢
  by_cases hzero : t = 0
  · rw [if_pos hzero, hzero, Nat.cast_zero, zero_mul, if_pos (by positivity)]
  rw [if_neg hzero]
  obtain ⟨n, hn, hlow, hhigh, hpacked⟩ := normalised_isPacked (fsign l) (fexp r) hzero hbound
  have hvalue : (t : ℚ) * 2 ^ ((fexp r : ℤ) - 16383 - 112) =
      (t * 2 ^ n : ℕ) * (2 : ℚ) ^ ((fexp r : ℤ) - n - 16383 - 112) := by
    have hsplit : (fexp r : ℤ) - 16383 - 112 = n + ((fexp r : ℤ) - n - 16383 - 112) := by ring
    rw [hsplit, zpow_add₀ two_ne_zero, zpow_natCast, ← mul_assoc, Nat.cast_mul, Nat.cast_pow, Nat.cast_ofNat]
  rw [hvalue, ← hn]
  simp only [scaled_lt_least_iff _ hlow hhigh]
  split_ifs with hsmall
  · exact pack_of_small _ hsmall _
  · obtain ⟨hnormal, hsign, -⟩ := hpacked.value (by omega) (by omega)
    exact ⟨hnormal, hsign, hpacked.abs_value (by omega) (by omega)⟩

end Sys2Proof.Machine

namespace Sys2Proof.Proofs
open Sys2Proof Sys2Proof.Machine

/-- Settles O39: the rows of the table in their order. -/
theorem floatMultiplySpecials : Obligations.FloatMultiplySpecials := by
  intro d a b s
  refine ⟨selects_commandWord (i := .fmul d a b) rfl fun _ _ => rfl, ?_⟩
  have hwrites {v : Word} (hv : fmul (s.readReg a) (s.readReg b) = v) : Writes (.fmul d a b) s d v :=
    writes_of_binary (f := fmul) rfl hv
  have hvalue := fmul_eq (s.readReg a) (s.readReg b)
  dsimp only
  split_ifs at hvalue ⊢ with hnan hinvalid hinfinite hzero
  any_goals exact hwrites hvalue
  · exact fun _ => hwrites hvalue
  · exact fun h => absurd h hzero

/-- Settles O40: the fast path packs the exact significand, so `IsPacked.value` gives the exact product. -/
theorem floatMultiplyByPowerOfTwo : Obligations.FloatMultiplyByPowerOfTwo := by
  intro d a b s l r neg e hl hr hpower
  have hwrites {v : Word} (hv : fmulNormal l r = v) : Writes (.fmul d a b) s d v :=
    writes_of_binary (f := fmul) rfl ((fmul_of_normal hl hr).trans hv)
  obtain ⟨f, m, hpack, hpacked, hexact⟩ := fmulNormal_of_powerOf2 hpower
  refine ⟨fun he => hwrites (hpack.trans (pack_of_large _ he f)), fun he => hwrites (hpack.trans (pack_of_small _ he f)),
    fun hlow hhigh => ?_⟩
  obtain ⟨hnormal, -, hvalue⟩ := hpacked.value hlow hhigh
  refine ⟨_, hnormal, ?_, hwrites rfl⟩
  have hscale := zpow_product_exponent l r 0
  rw [Nat.cast_zero, add_zero, pow_zero, one_mul] at hscale
  rw [hvalue, hscale, fval_mul, ← hexact, Nat.cast_mul]
  ring

/-- Settles O41: the result of the general path is packed as `fmulGeneral_isPacked` says. -/
theorem floatMultiplyGeneral : Obligations.FloatMultiplyGeneral := by
  intro d a b s l r p e hl hr hpl hpr
  have hresult : fmul l r = fmulGeneral l r := (fmul_of_normal hl hr).trans (fmulNormal_of_not_powerOf2 hpl hpr)
  have hpacked := fmulGeneral_isPacked l r
  rw [← signif_top, ← signif_top] at hpacked
  exact ⟨_, hpacked, writes_of_binary (f := fmul) rfl hresult⟩

/-- Settles O42: both magnitudes are integers in units of the last place of the exact product, where
`fmulNormal_truncates` bounds the loss. -/
theorem floatMultiplyAccuracy : Obligations.FloatMultiplyAccuracy := by
  intro d a b s t l r v hl hr hexec hv
  obtain ⟨t', hexec', hread, -⟩ : Writes (.fmul d a b) s d (fmulNormal l r) :=
    writes_of_binary (f := fmul) rfl (fmul_of_normal hl hr)
  obtain rfl : t = t' := Host.Outcome.next.inj (hexec.symm.trans hexec')
  have hresult : v = fmulNormal l r := (hread d).trans (if_pos rfl)
  rw [hresult] at hv ⊢
  obtain ⟨hsign, n, hvalue, hle, hloss⟩ := fmulNormal_truncates hv
  have hunit := productUnit_pos l r
  rw [hvalue, abs_fval_mul]
  refine ⟨mul_le_mul_of_nonneg_right (Nat.cast_le.mpr hle) hunit.le, ?_, hsign⟩
  have hlossQ : ((signif l * signif r : ℕ) : ℚ) - n < (signif l * signif r : ℕ) * (2 : ℚ) ^ (-54 : ℤ) := by
    have hcast : ((signif l * signif r : ℕ) : ℚ) * 2 ^ 54 < n * 2 ^ 54 + (signif l * signif r : ℕ) := by
      exact_mod_cast hloss
    rw [zpow_neg, ← div_eq_mul_inv, lt_div_iff₀ (by positivity), sub_mul, sub_lt_iff_lt_add']
    exact hcast
  rw [← sub_mul, mul_right_comm]
  exact mul_lt_mul_of_pos_right hlossQ hunit

/-- Settles O43: the rows of the table in their order. -/
theorem floatAddSpecials : Obligations.FloatAddSpecials := by
  intro d a b s
  refine ⟨selects_commandWord (i := .fadd d a b) rfl fun _ _ => rfl, ?_⟩
  have hwrites {v : Word} (hv : fadd (s.readReg a) (s.readReg b) = v) : Writes (.fadd d a b) s d v :=
    writes_of_binary (f := fadd) rfl hv
  have hvalue := fadd_eq (s.readReg a) (s.readReg b)
  dsimp only
  split_ifs at hvalue ⊢ with hnan hinfinities hlike hinfl hinfr hzeros hlike hzerol hzeror
  any_goals exact hwrites hvalue
  · exact fun _ => hwrites hvalue
  · exact fun h => absurd h hzeror

/-- Settles O44: the aligner's three outcomes, each packed as its rule says. -/
theorem floatAddAligns : Obligations.FloatAddAligns := by
  intro d a b s big small hbig hsmall horder k aligned
  have hle : fmag small ≤ fmag big := by
    obtain ⟨-, -, hle⟩ | ⟨-, -, hlt⟩ := horder
    exacts [hle, hlt.le]
  obtain ⟨ha, hb⟩ : ftag (s.readReg a) = .normal ∧ ftag (s.readReg b) = .normal := by
    obtain ⟨ha, hb, -⟩ | ⟨ha, hb, -⟩ := horder
    exacts [⟨ha ▸ hbig, hb ▸ hsmall⟩, ⟨ha ▸ hsmall, hb ▸ hbig⟩]
  have hwrites {v : Word} (hv : faddAligned big small = v) : Writes (.fadd d a b) s d v :=
    writes_of_binary (f := fadd) rfl
      ((fadd_of_normal ha hb).trans ((faddNormal_of_larger horder).trans hv))
  obtain ⟨hlow, hhigh⟩ := signif_bounds big
  simp only [faddAligned, Nat.shiftRight_eq_div_pow] at hwrites
  by_cases hfar : 112 < k
  · rw [if_pos hfar]
    exact hwrites (if_pos hfar)
  rw [if_neg hfar] at hwrites ⊢
  by_cases hsign : fsign big = fsign small
  · rw [if_pos hsign] at hwrites ⊢
    exact ⟨_, faddSame_isPacked _ _ hlow hhigh (aligned_le_signif hle), hwrites rfl⟩
  rw [if_neg hsign] at hwrites ⊢
  dsimp only
  by_cases hcancel : signif big - aligned = 0
  · rw [if_pos hcancel]
    exact hwrites (faddOpposite_of_cancel _ _ hcancel)
  · rw [if_neg hcancel]
    obtain ⟨n, hnlow, hnhigh, hpacked⟩ := faddOpposite_isPacked (fsign big) (fexp big) hcancel hhigh
    exact ⟨_, n, hnlow, hnhigh, hpacked, hwrites rfl⟩

/-- Settles O45. -/
theorem floatAddCommutes : Obligations.FloatAddCommutes :=
  fun d a b s => congrArg (setReg d · s) (fadd_comm (s.readReg a) (s.readReg b))

/-- Settles O46: the rows of the table in their order. -/
theorem floatDivideSpecials : Obligations.FloatDivideSpecials := by
  intro d a b s
  refine ⟨selects_commandWord (i := .fdiv d a b) rfl fun _ _ => rfl, ?_⟩
  have hwrites {v : Word} (hv : fdiv (s.readReg a) (s.readReg b) = .ok v) : Writes (.fdiv d a b) s d v :=
    writes_of_ok (op := Op.fdiv.code) rfl hv
  have hvalue := fdiv_eq (s.readReg a) (s.readReg b)
  dsimp only
  split_ifs at hvalue ⊢ with hdivisor hnan hinvalid hinfinite hinfinitesimal hzero
  · exact errs_of_error (op := Op.fdiv.code) (d := d) rfl hvalue
  any_goals exact hwrites hvalue
  · exact fun _ => hwrites hvalue
  · exact fun h => absurd h hzero

/-- Settles O47: the value of `FDIV` on Normal operands is packed as `fdivNormal_isPacked` says. -/
theorem floatDivideTruncatesQuotient : Obligations.FloatDivideTruncatesQuotient := by
  intro d a b s l r e hl hr
  exact ⟨_, fdivNormal_isPacked l r, writes_of_ok (op := Op.fdiv.code) rfl (fdiv_of_normal hl hr)⟩

/-- Settles O48: the rows of the table in their order. -/
theorem floatModuloSpecials : Obligations.FloatModuloSpecials := by
  intro d a b s
  refine ⟨selects_commandWord (i := .fmod d a b) rfl fun _ _ => rfl, ?_⟩
  have hwrites {v : Word} (hv : fmod (s.readReg a) (s.readReg b) = .ok v) : Writes (.fmod d a b) s d v :=
    writes_of_ok (op := Op.fmod.code) rfl hv
  have hvalue := fmod_eq (s.readReg a) (s.readReg b)
  dsimp only
  split_ifs at hvalue ⊢ with hdivisor hnan hinfinite hdividend
  · exact errs_of_error (op := Op.fmod.code) (d := d) rfl hvalue
  any_goals exact hwrites hvalue
  · exact fun _ => hwrites hvalue
  · exact fun h => absurd h hdividend

/-- Settles O49: a dividend of smaller magnitude is returned, every other one leaves what `fmodNormal_exact` says. -/
theorem floatModuloIsExactRemainder : Obligations.FloatModuloIsExactRemainder := by
  intro d a b s l r rest hl hr
  have hwrites {v : Word} (hv : fmodNormal l r = v) : Writes (.fmod d a b) s d v :=
    writes_of_ok (op := Op.fmod.code) rfl ((fmod_of_normal hl hr).trans (congrArg Except.ok hv))
  by_cases hless : fmag l < fmag r
  · rw [if_pos hless]
    exact hwrites (if_pos hless)
  rw [if_neg hless]
  have hexact := fmodNormal_exact hr hless
  dsimp only at hexact
  split_ifs at hexact ⊢ with hsmall
  · exact hwrites hexact
  · obtain ⟨hnormal, hsign, hvalue⟩ := hexact
    exact ⟨_, hnormal, hsign, hvalue, hwrites rfl⟩

end Sys2Proof.Proofs
end
